-- ==== Sys2Proof/Word.lean ====
section
/-! DEFINITION. The unsigned word types of the SPU (R6, R8, R9): every value is an unsigned integer of a
fixed width where the spec gives it a register field or a place in a stream, and no operation is signed. -/

namespace Sys2Proof

/-- A 32-bit register value or command word (R42, R57). -/
abbrev Word := BitVec 32

/-- An octet, 0 to 255, "the unit of the external payload representation" (R14). -/
abbrev Octet := BitVec 8

/-- A septet, 0 to 127, "a 7-bit data unit" (R14). -/
abbrev Septet := BitVec 7

/-- A code point as the SPU carries it: `CP_BITS` = 21 (R6, R13). -/
abbrev CodePoint := BitVec 21

/-- A session count: `COUNT_BITS` = 16 (R6). -/
abbrev Count := BitVec 16

end Sys2Proof
end

