-- ==== Sys2Proof/Config.lean ====
section
/-! DEFINITION. The implementation parameters of R6: the fixed ones with their values, the two OPEN ones as
uninterpreted constants. `CHAR_TABLES` is data (Machine/CharTables.lean). -/

namespace Sys2Proof.Config

/-- `TABLE_SIZE`: entries per ROM (R6). -/
abbrev tableSize : Nat := 128

/-- `ESC`: the escape septet, index 27 of the default table (R6, R34). -/
abbrev esc : Septet := 27

/-- `SEPTET_BITS` (R6). -/
abbrev septetBits : Nat := 7

/-- `OCTET_BITS` (R6). -/
abbrev octetBits : Nat := 8

/-- `GROUP_SEPTETS` (R6). -/
abbrev groupSeptets : Nat := 8

/-- `GROUP_OCTETS` (R6). -/
abbrev groupOctets : Nat := 7

/-- `COUNT_MAX`: the most septets of one session (R6). -/
abbrev countMax : Nat := 65535

/-- `REG_BASE`: the bus address of register offset 0, which the spec leaves OPEN (R6, R47). It has no body, so
no proof can rest on a value of it. Assumption log 2. -/
opaque regBase : Nat

/-- `BUS_BYTE_LANES`: the bus byte lane that carries each of the four bytes of a register, byte 0 the least significant
(R6, R42), which the spec leaves OPEN. It has no body. No meaning reads it, as R42 says. Assumption log 3. -/
opaque busByteLanes : Equiv.Perm (Fin 4)

end Sys2Proof.Config
end

