-- ==== Sys2Proof/Machine/CharTables.lean ====
section
/-! DEFINITION. The two character ROMs (R33, R65) as plain data, and the default contents of the parameter
`CHAR_TABLES` (R6, R67, R68). The ROM contents are part of State, so every meaning is written for any contents. -/

namespace Sys2Proof.Machine

/-- One ROM entry, the pair `(cp, valid)` of R33. For given contents with a nonzero `cp` beside `valid` = 0 see assumption
log 11. -/
structure RomEntry where
  cp : CodePoint
  valid : Bool
deriving DecidableEq, Repr

/-- The parameter `CHAR_TABLES`: `DEF_ROM` and `EXT_ROM`, 128 entries each (R33, R65). -/
structure CharTables where
  dflt : Vector RomEntry 128
  ext : Vector RomEntry 128
deriving DecidableEq, Repr

/-- `DEF_CP` of R67, index 0 first; `none` is an entry with `valid` = 0. -/
def defCp : List (Option Nat) :=
     [some 0x0040, some 0x00A3, some 0x0024, some 0x00A5, some 0x00E8, some 0x00E9, some 0x00F9, some 0x00EC]
  ++ [some 0x00F2, some 0x00C7, some 0x000A, some 0x00D8, some 0x00F8, some 0x000D, some 0x00C5, some 0x00E5]
  ++ [some 0x0394, some 0x005F, some 0x03A6, some 0x0393, some 0x039B, some 0x03A9, some 0x03A0, some 0x03A8]
  ++ [some 0x03A3, some 0x0398, some 0x039E, none, some 0x00C6, some 0x00E6, some 0x00DF, some 0x00C9]
  ++ [some 0x0020, some 0x0021, some 0x0022, some 0x0023, some 0x00A4, some 0x0025, some 0x0026, some 0x0027]
  ++ [some 0x0028, some 0x0029, some 0x002A, some 0x002B, some 0x002C, some 0x002D, some 0x002E, some 0x002F]
  ++ [some 0x0030, some 0x0031, some 0x0032, some 0x0033, some 0x0034, some 0x0035, some 0x0036, some 0x0037]
  ++ [some 0x0038, some 0x0039, some 0x003A, some 0x003B, some 0x003C, some 0x003D, some 0x003E, some 0x003F]
  ++ [some 0x00A1, some 0x0041, some 0x0042, some 0x0043, some 0x0044, some 0x0045, some 0x0046, some 0x0047]
  ++ [some 0x0048, some 0x0049, some 0x004A, some 0x004B, some 0x004C, some 0x004D, some 0x004E, some 0x004F]
  ++ [some 0x0050, some 0x0051, some 0x0052, some 0x0053, some 0x0054, some 0x0055, some 0x0056, some 0x0057]
  ++ [some 0x0058, some 0x0059, some 0x005A, some 0x00C4, some 0x00D6, some 0x00D1, some 0x00DC, some 0x00A7]
  ++ [some 0x00BF, some 0x0061, some 0x0062, some 0x0063, some 0x0064, some 0x0065, some 0x0066, some 0x0067]
  ++ [some 0x0068, some 0x0069, some 0x006A, some 0x006B, some 0x006C, some 0x006D, some 0x006E, some 0x006F]
  ++ [some 0x0070, some 0x0071, some 0x0072, some 0x0073, some 0x0074, some 0x0075, some 0x0076, some 0x0077]
  ++ [some 0x0078, some 0x0079, some 0x007A, some 0x00E4, some 0x00F6, some 0x00F1, some 0x00FC, some 0x00E0]

/-- `EXT_CP` of R68, index 0 first; `none` is an entry with `valid` = 0. -/
def extCp : List (Option Nat) :=
     [none, none, none, none, none, none, none, none]
  ++ [none, none, some 0x000C, none, none, none, none, none]
  ++ [none, none, none, none, some 0x005E, none, none, none]
  ++ [none, none, none, none, none, none, none, none]
  ++ [none, none, none, none, none, none, none, none]
  ++ [some 0x007B, some 0x007D, none, none, none, none, none, some 0x005C]
  ++ [none, none, none, none, none, none, none, none]
  ++ [none, none, none, none, some 0x005B, some 0x007E, some 0x005D, none]
  ++ [some 0x007C, none, none, none, none, none, none, none]
  ++ [none, none, none, none, none, none, none, none]
  ++ [none, none, none, none, none, none, none, none]
  ++ [none, none, none, none, none, none, none, none]
  ++ [none, none, none, none, none, some 0x20AC, none, none]
  ++ [none, none, none, none, none, none, none, none]
  ++ [none, none, none, none, none, none, none, none]
  ++ [none, none, none, none, none, none, none, none]

/-- The entry a listing row stands for: an entry with `valid` = 0 has `cp` = 0 (R33). -/
def romEntry : Option Nat → RomEntry
  | none => ⟨0, false⟩
  | some c => ⟨BitVec.ofNat 21 c, true⟩

/-- The default `CHAR_TABLES`: the contents of R67 and R68. Assumption log 4. -/
def CharTables.standard : CharTables where
  dflt := ⟨⟨defCp.map romEntry⟩, by rfl⟩
  ext := ⟨⟨extCp.map romEntry⟩, by rfl⟩

/-- `DEF[s]` of R10. -/
def CharTables.defAt (t : CharTables) (s : Septet) : RomEntry := t.dflt[s.toNat]'(s.isLt)

/-- `EXT[s]` of R10. -/
def CharTables.extAt (t : CharTables) (s : Septet) : RomEntry := t.ext[s.toNat]'(s.isLt)

end Sys2Proof.Machine
end

