-- ==== Sys2Proof/Syntax.lean ====
section
/-! DEFINITION. The eleven commands of spec/opcode_table.json (R60), their formats (R58) and operands (R59).
Each operand has exactly the width its format gives it, so every term is a command some word encodes. -/

namespace Sys2Proof

/-- The table an `I2C` operand names (R59): `T` = 0 is the default ROM, `T` = 1 the extension ROM. -/
inductive TableSel where
  | dflt
  | ext
deriving DecidableEq, Repr

/-- The six command formats (R58). -/
inductive Format where
  | n
  | c
  | i
  | s
  | o
  | b
deriving DecidableEq, Repr

/-- The rows of the opcode map (R60), by mnemonic. -/
inductive Opcode where
  | nop
  | clear
  | c2i
  | i2c
  | encBegin
  | encChar
  | encSeptet
  | encEnd
  | decBegin
  | decOctet
  | decEnd
deriving DecidableEq, Repr

/-- A decoded command (R62): one constructor per row of spec/opcode_table.json. -/
inductive Instr where
  /-- `NOP` (R98). -/
  | nop
  /-- `CLEAR` (R99). -/
  | clear
  /-- `C2I cp` (R72). -/
  | c2i (cp : CodePoint)
  /-- `I2C T, IDX` (R74); `IDX` is 8 bits wide and 128 to 255 can be encoded (R59). -/
  | i2c (t : TableSel) (idx : BitVec 8)
  /-- `ENC_BEGIN` (R83). -/
  | encBegin
  /-- `ENC_CHAR cp` (R84). -/
  | encChar (cp : CodePoint)
  /-- `ENC_SEPTET sept` (R85); `SEPT` is 8 bits wide and 128 to 255 can be encoded (R59). -/
  | encSeptet (sept : BitVec 8)
  /-- `ENC_END` (R86). -/
  | encEnd
  /-- `DEC_BEGIN n` or `DEC_BEGIN n, RAW` (R93). -/
  | decBegin (raw : Bool) (n : Count)
  /-- `DEC_OCTET oct` (R94). -/
  | decOctet (oct : Octet)
  /-- `DEC_END` (R96). -/
  | decEnd
deriving DecidableEq, Repr

/-- The row of R60 a command belongs to. -/
def Instr.opcode : Instr → Opcode
  | .nop => .nop
  | .clear => .clear
  | .c2i _ => .c2i
  | .i2c _ _ => .i2c
  | .encBegin => .encBegin
  | .encChar _ => .encChar
  | .encSeptet _ => .encSeptet
  | .encEnd => .encEnd
  | .decBegin _ _ => .decBegin
  | .decOctet _ => .decOctet
  | .decEnd => .decEnd

end Sys2Proof
end

