-- ==== Sys2Proof/WellFormed.lean ====
section
/-! DEFINITION. The checks of the spec on data from outside the SPU: a command word is legal when one row of R60
matches it (R61), and given ROM contents must meet R69 (a), (b) and (c) before they are used (R7). Every operand of
`Instr` has its exact width (R59), so an `Instr` needs no check; the bus checks of R44 are in Machine/Window.lean. -/

namespace Sys2Proof

/-- One row of the opcode map (R60). -/
structure OpcodeRow where
  op : Opcode
  fmt : Format
  matchBits : Word
  mask : Word
deriving DecidableEq, Repr

/-- The opcode map of R60 with its match and mask columns, row by row. -/
def opcodeRows : List OpcodeRow :=
  [ ⟨.nop, .n, 0x00000000, 0xFFFFFFFF⟩,
    ⟨.clear, .n, 0x01000000, 0xFFFFFFFF⟩,
    ⟨.c2i, .c, 0x10000000, 0xFFE00000⟩,
    ⟨.i2c, .i, 0x11000000, 0xFFFFFE00⟩,
    ⟨.encBegin, .n, 0x20000000, 0xFFFFFFFF⟩,
    ⟨.encChar, .c, 0x21000000, 0xFFE00000⟩,
    ⟨.encSeptet, .s, 0x22000000, 0xFFFFFF00⟩,
    ⟨.encEnd, .n, 0x23000000, 0xFFFFFFFF⟩,
    ⟨.decBegin, .b, 0x30000000, 0xFFFE0000⟩,
    ⟨.decOctet, .o, 0x31000000, 0xFFFFFF00⟩,
    ⟨.decEnd, .n, 0x32000000, 0xFFFFFFFF⟩ ]

/-- "A word `w` selects a row when `(w & mask) = match`" (R60). -/
def OpcodeRow.selectedBy (r : OpcodeRow) (w : Word) : Bool := w &&& r.mask == r.matchBits

/-- A command word is legal when some row of R60 selects it; every other word is illegal (R61). -/
def wfWord (w : Word) : Bool := opcodeRows.any (·.selectedBy w)

namespace Machine

/-- R69 (a): the escape slot of the default ROM holds no character. -/
def CharTables.escInvalid (t : CharTables) : Bool := !(t.defAt Config.esc).valid

/-- R69 (b) for one entry: a valid code point is at most 0x10FFFF and is no surrogate. -/
def RomEntry.cpInRange (e : RomEntry) : Bool :=
  !e.valid || (e.cp.toNat ≤ 0x10FFFF && !(0xD800 ≤ e.cp.toNat && e.cp.toNat ≤ 0xDFFF))

/-- All 256 entries, the default ROM first. -/
def CharTables.entries (t : CharTables) : List RomEntry := t.dflt.toList ++ t.ext.toList

/-- The code points that are valid in some entry, in table order. -/
def CharTables.validCps (t : CharTables) : List CodePoint :=
  (t.entries.filter (·.valid)).map (·.cp)

/-- R69 (b): every valid code point is in range. -/
def CharTables.cpsInRange (t : CharTables) : Bool := t.entries.all (·.cpInRange)

/-- R69 (c): no code point is valid in two entries, within one table or across both. -/
def CharTables.cpsDistinct (t : CharTables) : Bool := decide t.validCps.Nodup

/-- Well-formedness of `CHAR_TABLES` (R69). -/
def CharTables.wf (t : CharTables) : Bool := t.escInvalid && t.cpsInRange && t.cpsDistinct

end Machine

end Sys2Proof
end

