-- ==== Sys2Proof/Decode.lean ====
section
/-! DEFINITION. The decode function of R62, total on all 2^32 words, and the encoder written from the same
formats (R58, R59). -/

namespace Sys2Proof

/-- Every row of R60. -/
def Opcode.all : List Opcode :=
  [.nop, .clear, .c2i, .i2c, .encBegin, .encChar, .encSeptet, .encEnd, .decBegin, .decOctet, .decEnd]

/-- The `OPC` column of R60. -/
def Opcode.code : Opcode → BitVec 8
  | .nop => 0x00
  | .clear => 0x01
  | .c2i => 0x10
  | .i2c => 0x11
  | .encBegin => 0x20
  | .encChar => 0x21
  | .encSeptet => 0x22
  | .encEnd => 0x23
  | .decBegin => 0x30
  | .decOctet => 0x31
  | .decEnd => 0x32

/-- The format column of R60. -/
def Opcode.format : Opcode → Format
  | .nop => .n
  | .clear => .n
  | .c2i => .c
  | .i2c => .i
  | .encBegin => .n
  | .encChar => .c
  | .encSeptet => .s
  | .encEnd => .n
  | .decBegin => .b
  | .decOctet => .o
  | .decEnd => .n

/-- The row with a given `OPC`, if R60 lists one. -/
def Opcode.ofCode (c : BitVec 8) : Option Opcode := Opcode.all.find? (·.code == c)

/-- The reserved-bit masks of R58. -/
def Format.reservedMask : Format → Word
  | .n => 0x00FFFFFF
  | .c => 0x00E00000
  | .i => 0x00FFFE00
  | .s => 0x00FFFF00
  | .o => 0x00FFFF00
  | .b => 0x00FE0000

/-- The bit of `T` (R59). -/
def TableSel.bit : TableSel → BitVec 1
  | .dflt => 0
  | .ext => 1

/-- `T` read from its bit (R59). -/
def TableSel.ofBit (b : Bool) : TableSel := if b then .ext else .dflt

/-- The opcode field `w[31:24]` (R57). -/
def opcodeField (w : Word) : BitVec 8 := w.extractLsb' 24 8

/-- The operand `CP` = `w[20:0]` (R59). -/
def cpField (w : Word) : CodePoint := w.extractLsb' 0 21

/-- The 8-bit operands `IDX`, `SEPT` and `OCT` = `w[7:0]` (R59). -/
def byteField (w : Word) : BitVec 8 := w.extractLsb' 0 8

/-- The operand `N` = `w[15:0]` (R59). -/
def countField (w : Word) : Count := w.extractLsb' 0 16

/-- The operand fields of a row, extracted by R59. -/
def Opcode.withOperands (w : Word) : Opcode → Instr
  | .nop => .nop
  | .clear => .clear
  | .c2i => .c2i (cpField w)
  | .i2c => .i2c (TableSel.ofBit (w.getLsbD 8)) (byteField w)
  | .encBegin => .encBegin
  | .encChar => .encChar (cpField w)
  | .encSeptet => .encSeptet (byteField w)
  | .encEnd => .encEnd
  | .decBegin => .decBegin (w.getLsbD 16) (countField w)
  | .decOctet => .decOctet (byteField w)
  | .decEnd => .decEnd

/-- R62: `none` is ILLEGAL. -/
def decode (w : Word) : Option Instr :=
  match Opcode.ofCode (opcodeField w) with
  | none => none
  | some op => if w &&& op.format.reservedMask = 0 then some (op.withOperands w) else none

/-- The operand field `w[23:0]` of a command, its reserved bits 0 (R58, R59). -/
def Instr.operandBits : Instr → BitVec 24
  | .c2i cp => 0#3 ++ cp
  | .i2c t idx => 0#15 ++ t.bit ++ idx
  | .encChar cp => 0#3 ++ cp
  | .encSeptet sept => 0#16 ++ sept
  | .decBegin raw n => 0#7 ++ BitVec.ofBool raw ++ n
  | .decOctet oct => 0#16 ++ oct
  | .nop => 0
  | .clear => 0
  | .encBegin => 0
  | .encEnd => 0
  | .decEnd => 0

/-- The one word that encodes a command (R57, R58). -/
def encode (i : Instr) : Word := i.opcode.code ++ i.operandBits

/-- The word of `CLEAR`, exactly 0x01000000 (R99, R115). -/
def clearWord : Word := 0x01000000

/-- The command the decoder reads from `nbits` table bits `w`; a command is one 32-bit word and the host writes it
whole (R43, R57), so no byte order is involved. -/
def decodeTableWord (nbits w : Nat) : Option Instr := decode (BitVec.ofNat 32 (w % 2 ^ nbits))

end Sys2Proof
end

