-- ==== Sys2Proof/Machine/State.lean ====
section
/-! DEFINITION. The state of the SPU (R16) as plain data, the bus events that drive it (R19, R45, R120), the reasons
a step stops, and the state after reset (R39, R120). -/

namespace Sys2Proof.Machine

/-- `STATUS.MODE` (R22): session state, not privilege (R118). -/
inductive Mode where
  | idle
  | enc
  | dec
  | error
deriving DecidableEq, Repr

/-- `STATUS.ERRCODE` (R22): no fault, or one of the nine fault codes of R111. Codes 10 to 15 are never written, so
they have no constructor. -/
inductive ErrCode where
  | none
  | illegalCommand
  | sequence
  | indexRange
  | unsupportedCharacter
  | countOverflow
  | excessOctet
  | truncatedPayload
  | malformedSeptetStream
  | unusedSlot
deriving DecidableEq, Repr

/-- `LRES_IDX.CLASS` (R24) and the class `charIndex` returns (R70); the value 3 is never written. -/
inductive CharClass where
  | default
  | extension
  | unmapped
deriving DecidableEq, Repr

/-- The fields of `LRES_IDX` (R24). -/
structure LresIdx where
  index : Septet
  cls : CharClass
deriving DecidableEq, Repr

/-- The fields of `LRES_CHR` (R25). -/
structure LresChr where
  cp : CodePoint
  valid : Bool
  escMark : Bool
deriving DecidableEq, Repr

/-- The fields of `OUT_OCT` (R26). -/
structure OutOct where
  oct0 : Octet
  oct1 : Octet
  octN : BitVec 2
deriving DecidableEq, Repr

/-- The fields of `OUT_SEPT` (R27). -/
structure OutSept where
  sept0 : Septet
  sept1 : Septet
  septN : BitVec 2
deriving DecidableEq, Repr

/-- The fields of `OUT_CHR0` and of `OUT_CHR1` (R28). -/
structure OutChr where
  cp : CodePoint
  valid : Bool
deriving DecidableEq, Repr

/-- What reaches the SPU from outside. An access carries its byte offset from `REG_BASE`, negative below it
(assumption log 2), and its width in bytes; accesses that R44 gives no meaning can be written down too, and are
refused when they are taken. `reset` is the platform's reset event (R120). -/
inductive BusEvent where
  | read (offset : Int) (bytes : Nat)
  | write (offset : Int) (bytes : Nat) (data : Word)
  | reset
deriving DecidableEq, Repr

/-- The SPU's state (R16), and the two fields of the model's own that stand for its surroundings: `pending`, the
bus events not yet taken (R19), and `responses`, the values host reads have returned (R45). Assumption log 1. -/
structure State where
  /-- `DEF_ROM` and `EXT_ROM` (R33). -/
  rom : CharTables
  /-- `STATUS.MODE` (R22). -/
  mode : Mode
  /-- `STATUS.ESC_PENDING` (R22). -/
  escPending : Bool
  /-- `STATUS.RAW` (R22). -/
  raw : Bool
  /-- `STATUS.ERRCODE` (R22). -/
  errCode : ErrCode
  /-- `STATUS.NBITS` (R22). -/
  nbits : BitVec 4
  /-- `ERRCMD` (R23). -/
  errCmd : Word
  /-- `LRES_IDX` (R24). -/
  lresIdx : LresIdx
  /-- `LRES_CHR` (R25). -/
  lresChr : LresChr
  /-- `OUT_OCT` (R26). -/
  outOct : OutOct
  /-- `OUT_SEPT` (R27). -/
  outSept : OutSept
  /-- `OUT_CHR0` (R28). -/
  outChr0 : OutChr
  /-- `OUT_CHR1` (R28). -/
  outChr1 : OutChr
  /-- `SCOUNT` (R29). -/
  scount : Count
  /-- `REMAIN` (R30). -/
  remain : Count
  /-- `OCOUNT` (R31). -/
  ocount : Count
  /-- `ACC` (R32). -/
  acc : BitVec 15
  /-- The bus events the SPU has not taken yet, oldest first (R19, R50). -/
  pending : List BusEvent
  /-- The values host reads have returned, oldest first (R45). -/
  responses : List Word
deriving DecidableEq, Repr

/-- A fault that would stop the machine. It has no constructor: the spec stops the SPU nowhere, and its own faults
(R110) are next states in ERROR mode. -/
inductive Fault where
deriving DecidableEq, Repr

/-- Why the model gives a step no meaning. -/
inductive Refusal where
  /-- An instruction without a meaning in `exec`; no arm of `exec` raises it. Safe. -/
  | notModelled (mnemonic : String)
  /-- Raised by the bus for an access that is not 32 bits wide: "no 8-bit or 16-bit access" (R44). Safe. -/
  | accessWidth
  /-- Raised by the bus for a 32-bit access whose offset is no multiple of 4: "no misaligned access" (R44). Safe. -/
  | accessMisaligned
  /-- Raised by the bus for an aligned 32-bit access below 0x00 or above 0x3C: "no access outside the window"
  (R44). Safe. -/
  | accessOutsideWindow
deriving DecidableEq, Repr

/-- The state after reset: every register 0, so MODE is IDLE with no fault recorded (R39, R120, R121), the ROMs with
their contents (R17). No access is waiting: a program comes to run when the host issues accesses (assumption
log 1). -/
def State.reset : State where
  rom := CharTables.standard
  mode := .idle
  escPending := false
  raw := false
  errCode := .none
  nbits := 0
  errCmd := 0
  lresIdx := ⟨0, .default⟩
  lresChr := ⟨0, false, false⟩
  outOct := ⟨0, 0, 0⟩
  outSept := ⟨0, 0, 0⟩
  outChr0 := ⟨0, false⟩
  outChr1 := ⟨0, false⟩
  scount := 0
  remain := 0
  ocount := 0
  acc := 0
  pending := []
  responses := []

end Sys2Proof.Machine
end

