-- ==== Sys2Proof/Machine/CharRom.lean ====
section
/-! DEFINITION. The two lookup functions of the character ROMs (R70, R71). -/

namespace Sys2Proof.Machine

/-- Whether an entry is the one a character lookup wants: only valid entries match (R70). -/
def RomEntry.holds (e : RomEntry) (cp : CodePoint) : Bool := e.valid && e.cp == cp

/-- The least index of a ROM whose entry is valid and holds `cp` (R70). -/
def romIndex (rom : Vector RomEntry 128) (cp : CodePoint) : Option Nat :=
  rom.toList.findIdx? (·.holds cp)

/-- `charIndex(cp)` of R70: the default ROM first, then the extension ROM, then UNMAPPED with index 0. -/
def charIndex (t : CharTables) (cp : CodePoint) : CharClass × Septet :=
  match romIndex t.dflt cp with
  | some i => (.default, BitVec.ofNat 7 i)
  | none =>
    match romIndex t.ext cp with
    | some i => (.extension, BitVec.ofNat 7 i)
    | none => (.unmapped, 0)

/-- What `septetChar` answers (R71). -/
inductive SeptetChar where
  | escapeSignal
  | char (cp : CodePoint)
  | unused
deriving DecidableEq, Repr

/-- The character of an entry, or UNUSED when its `valid` is 0 (R71). -/
def RomEntry.toSeptetChar (e : RomEntry) : SeptetChar := if e.valid then .char e.cp else .unused

/-- `septetChar(esc, s)` of R71. -/
def septetChar (t : CharTables) (esc : Bool) (s : Septet) : SeptetChar :=
  if esc then (t.extAt s).toSeptetChar
  else if s = Config.esc then .escapeSignal
  else (t.defAt s).toSeptetChar

end Sys2Proof.Machine
end

