-- ==== Sys2Proof/Machine/Datapath.lean ====
section
/-! DEFINITION. The streaming datapath: `push` and `flush` of the packer (R79), `charSeptets` of the encoder (R82),
`pull` of the unpacker (R90), `decodeStep` of the decoder (R92). The accumulator and its fill count are unbounded
naturals here, as R9 reads the shifts; the registers narrow them when a command writes them. -/

namespace Sys2Proof.Machine

/-- What the packer leaves: the accumulator, its fill count, and the octets emitted, first one first. -/
structure Packed where
  acc : Nat
  nb : Nat
  outs : List Octet
deriving DecidableEq, Repr

/-- `push(acc, nb, s)` of R79. -/
def push (acc nb : Nat) (s : Septet) : Packed :=
  let a := acc ||| (s.toNat <<< nb)
  let n := nb + Config.septetBits
  if 8 ≤ n then ⟨a >>> 8, n - 8, [BitVec.ofNat 8 (a &&& 0xFF)]⟩ else ⟨a, n, []⟩

/-- `push` for each septet in order, the octets appended in that order (R84). -/
def pushAll (acc nb : Nat) : List Septet → Packed
  | [] => ⟨acc, nb, []⟩
  | s :: ss =>
    let p := push acc nb s
    let q := pushAll p.acc p.nb ss
    ⟨q.acc, q.nb, p.outs ++ q.outs⟩

/-- `flush(acc, nb)` of R79. -/
def flush (acc nb : Nat) : List Octet :=
  if 0 < nb then [BitVec.ofNat 8 (acc &&& 0xFF)] else []

/-- `charSeptets(cp)` of R82; `none` is VIOLATION. -/
def charSeptets (t : CharTables) (cp : CodePoint) : Option (List Septet) :=
  match charIndex t cp with
  | (.default, i) => some [i]
  | (.extension, i) => some [Config.esc, i]
  | (.unmapped, _) => none

/-- What the unpacker leaves: the accumulator, its fill count, and the septets extracted, first one first. -/
structure Pulled where
  acc : Nat
  nb : Nat
  seps : List Septet
deriving DecidableEq, Repr

/-- The loop of `pull` (R90): extract septets while 7 bits are there and fewer than `rem` have been extracted. -/
def pullLoop (a n : Nat) : (rem : Nat) → Pulled
  | 0 => ⟨a, n, []⟩
  | rem + 1 =>
    if Config.septetBits ≤ n then
      let q := pullLoop (a >>> 7) (n - Config.septetBits) rem
      ⟨q.acc, q.nb, BitVec.ofNat 7 (a &&& 0x7F) :: q.seps⟩
    else ⟨a, n, []⟩

/-- `pull(acc, nb, o, rem)` of R90: once the count is reached the rest are pad bits, unchecked and discarded. -/
def pull (acc nb : Nat) (o : Octet) (rem : Nat) : Pulled :=
  let q := pullLoop (acc ||| (o.toNat <<< nb)) (nb + Config.octetBits) rem
  if q.seps.length = rem then ⟨0, 0, q.seps⟩ else q

/-- What the septet decoder leaves: the pending escape and the characters, in order. -/
structure Decoded where
  esc : Bool
  chars : List CodePoint
deriving DecidableEq, Repr

/-- `decodeStep(esc, s)` of R92; `none` is UNUSED_SLOT. -/
def decodeStep (t : CharTables) (esc : Bool) (s : Septet) : Option Decoded :=
  match septetChar t esc s with
  | .escapeSignal => some ⟨true, []⟩
  | .char cp => some ⟨false, [cp]⟩
  | .unused => none

/-- `decodeStep` for each septet in order (R94); the first UNUSED_SLOT ends it. -/
def decodeSeptets (t : CharTables) (esc : Bool) : List Septet → Option Decoded
  | [] => some ⟨esc, []⟩
  | s :: ss =>
    match decodeStep t esc s with
    | none => none
    | some d =>
      match decodeSeptets t d.esc ss with
      | none => none
      | some e => some ⟨e.esc, d.chars ++ e.chars⟩

end Sys2Proof.Machine
end

