-- ==== Sys2Proof/Machine/Flags.lean ====
section
/-! DEFINITION. The codes of the flag fields (R22, R24, R111) and the 32-bit value each register shows (R22 to R32):
field positions, with every reserved bit 0 (R20). -/

namespace Sys2Proof.Machine

/-- The value of `STATUS.MODE` (R22). -/
def Mode.code : Mode → BitVec 2
  | .idle => 0
  | .enc => 1
  | .dec => 2
  | .error => 3

/-- The value of `STATUS.ERRCODE` (R111). -/
def ErrCode.code : ErrCode → BitVec 4
  | .none => 0
  | .illegalCommand => 1
  | .sequence => 2
  | .indexRange => 3
  | .unsupportedCharacter => 4
  | .countOverflow => 5
  | .excessOctet => 6
  | .truncatedPayload => 7
  | .malformedSeptetStream => 8
  | .unusedSlot => 9

/-- The value of `LRES_IDX.CLASS` (R24). -/
def CharClass.code : CharClass → BitVec 2
  | .default => 0
  | .extension => 1
  | .unmapped => 2

/-- `STATUS` (R22): NBITS [11:8], ERRCODE [7:4], RAW [3], ESC_PENDING [2], MODE [1:0]. -/
def State.statusWord (s : State) : Word :=
  0#20 ++ s.nbits ++ s.errCode.code ++ BitVec.ofBool s.raw ++ BitVec.ofBool s.escPending ++ s.mode.code

/-- `LRES_IDX` (R24): CLASS [9:8], INDEX [6:0]. -/
def LresIdx.word (r : LresIdx) : Word := 0#22 ++ r.cls.code ++ 0#1 ++ r.index

/-- `LRES_CHR` (R25): ESCMARK [25], VALID [24], CP [20:0]. -/
def LresChr.word (r : LresChr) : Word :=
  0#6 ++ BitVec.ofBool r.escMark ++ BitVec.ofBool r.valid ++ 0#3 ++ r.cp

/-- `OUT_OCT` (R26): OCT_N [17:16], OCT1 [15:8], OCT0 [7:0]. -/
def OutOct.word (r : OutOct) : Word := 0#14 ++ r.octN ++ r.oct1 ++ r.oct0

/-- `OUT_SEPT` (R27): SEPT_N [17:16], SEPT1 [14:8], SEPT0 [6:0]. -/
def OutSept.word (r : OutSept) : Word := 0#14 ++ r.septN ++ 0#1 ++ r.sept1 ++ 0#1 ++ r.sept0

/-- `OUT_CHR0` and `OUT_CHR1` (R28): VALID [24], CP [20:0]. -/
def OutChr.word (r : OutChr) : Word := 0#7 ++ BitVec.ofBool r.valid ++ 0#3 ++ r.cp

/-- A 16-bit count register (R29 to R31): bits [31:16] read 0. -/
def countWord (c : Count) : Word := 0#16 ++ c

/-- `ACC` (R32): bits [31:15] read 0. -/
def accWord (a : BitVec 15) : Word := 0#17 ++ a

/-- `OUT_OCT` for the octets a command emitted (R26, R84 to R86): absent slots are 0. -/
def OutOct.ofList (outs : List Octet) : OutOct where
  oct0 := outs.getD 0 0
  oct1 := outs.getD 1 0
  octN := BitVec.ofNat 2 outs.length

/-- `OUT_SEPT` for the septets a command extracted (R27, R94): absent slots are 0. -/
def OutSept.ofList (seps : List Septet) : OutSept where
  sept0 := seps.getD 0 0
  sept1 := seps.getD 1 0
  septN := BitVec.ofNat 2 seps.length

/-- An `OUT_CHR` register for the character in its slot, 0 when there is none (R28, R94). -/
def OutChr.ofOption : Option CodePoint → OutChr
  | none => ⟨0, false⟩
  | some cp => ⟨cp, true⟩

/-- The octets `OUT_OCT` holds, `OCT0` first, `OCT_N` of them (R26, R40). -/
def OutOct.octets (r : OutOct) : List Octet := [r.oct0, r.oct1].take r.octN.toNat

/-- The septets `OUT_SEPT` holds, `SEPT0` first, `SEPT_N` of them (R27). -/
def OutSept.septets (r : OutSept) : List Septet := [r.sept0, r.sept1].take r.septN.toNat

/-- The character an `OUT_CHR` register holds, if its `VALID` is 1 (R28). -/
def OutChr.chars (r : OutChr) : List CodePoint := if r.valid then [r.cp] else []

end Sys2Proof.Machine
end

