-- ==== Sys2Proof/Machine/Ops.lean ====
section
/-! DEFINITION. The named operations on the registers that the commands share: taking a fault (R110), leaving it
(R99, R116), the guard every command runs under (R113, R115), and the session updates of R83 to R96. -/

namespace Sys2Proof.Machine

/-- `raise Fault(CODE)` (R110): MODE, ERRCODE and ERRCMD are written, every other register keeps its value. -/
def raiseFault (c : ErrCode) (w : Word) (s : State) : State :=
  { s with mode := .error, errCode := c, errCmd := w }

/-- Every register of the window becomes 0 (R39, R99, R120), which is the only way out of ERROR (R116). The ROMs keep
their contents; what the host still has to issue and has read is not the SPU's. -/
def clearRegs (s : State) : State :=
  { State.reset with rom := s.rom, pending := s.pending, responses := s.responses }

/-- A machine built with given ROM contents: R7 asks that they meet R69 before they are used. R33 gives an entry with
`valid` = 0 the `cp` 0, which none of R69's three conditions asks for: DESIGN CHOICE, only those three are checked, and
such an entry keeps the `cp` it was given, which no command reads (assumption log 11). -/
def State.withTables (t : CharTables) : Option State :=
  if t.wf then some { State.reset with rom := t } else none

/-- The guard of every command but `CLEAR`: in ERROR mode it is ignored (R115); otherwise its body gives the state
it leaves, or the first fault that applies (R113), which is raised with the command's own word (R110, R111). -/
def runCommand (i : Instr) (s : State) (body : Except ErrCode State) : Host.Outcome State Fault Refusal :=
  if s.mode = .error then .next s
  else
    match body with
    | .ok t => .next t
    | .error c => .next (raiseFault c (encode i) s)

/-- The writes of `ENC_BEGIN` (R83). -/
def openEncode (s : State) : State :=
  { s with
    mode := .enc, raw := false, escPending := false, nbits := 0,
    acc := 0, scount := 0, ocount := 0, remain := 0,
    outOct := ⟨0, 0, 0⟩, outSept := ⟨0, 0, 0⟩, outChr0 := ⟨0, false⟩, outChr1 := ⟨0, false⟩ }

/-- The writes of `DEC_BEGIN` (R93). -/
def openDecode (raw : Bool) (n : Count) (s : State) : State :=
  { s with
    mode := .dec, raw := raw, escPending := false, nbits := 0,
    acc := 0, scount := 0, ocount := 0, remain := n,
    outOct := ⟨0, 0, 0⟩, outSept := ⟨0, 0, 0⟩, outChr0 := ⟨0, false⟩, outChr1 := ⟨0, false⟩ }

/-- The writes of a command that pushed `count` septets and left `p` (R84, R85). -/
def commitPush (p : Packed) (count : Nat) (s : State) : State :=
  { s with
    acc := BitVec.ofNat 15 p.acc, nbits := BitVec.ofNat 4 p.nb,
    scount := s.scount + BitVec.ofNat 16 count, ocount := s.ocount + BitVec.ofNat 16 p.outs.length,
    outOct := OutOct.ofList p.outs }

/-- Push septets in an open encode session, or report COUNT_OVERFLOW when the session would pass 65535 septets
(R84, R85). -/
def pushSeptets (ss : List Septet) (s : State) : Except ErrCode State :=
  if Config.countMax < s.scount.toNat + ss.length then .error .countOverflow
  else .ok (commitPush (pushAll s.acc.toNat s.nbits.toNat ss) ss.length s)

/-- The writes of `ENC_END` (R86). -/
def closeEncode (s : State) : State :=
  { s with
    ocount := s.ocount + BitVec.ofNat 16 (flush s.acc.toNat s.nbits.toNat).length,
    outOct := OutOct.ofList (flush s.acc.toNat s.nbits.toNat),
    acc := 0, nbits := 0, mode := .idle }

/-- The writes of `DEC_OCTET` (R94) for the septets pulled and what the decoder made of them. -/
def commitPull (p : Pulled) (d : Decoded) (s : State) : State :=
  { s with
    acc := BitVec.ofNat 15 p.acc, nbits := BitVec.ofNat 4 p.nb, escPending := d.esc,
    remain := s.remain - BitVec.ofNat 16 p.seps.length, scount := s.scount + BitVec.ofNat 16 p.seps.length,
    ocount := s.ocount + 1, outSept := OutSept.ofList p.seps,
    outChr0 := OutChr.ofOption d.chars[0]?, outChr1 := OutChr.ofOption d.chars[1]? }

/-- What the septet decoder makes of the septets of one octet: in a raw session nothing is decoded (R94). -/
def decodePulled (s : State) (seps : List Septet) : Option Decoded :=
  if s.raw then some ⟨s.escPending, []⟩ else decodeSeptets s.rom s.escPending seps

/-- The writes of `DEC_END` (R96). -/
def closeDecode (s : State) : State := { s with mode := .idle, raw := false }

/-- The write of `C2I` (R72). -/
def setLresIdx (r : LresIdx) (s : State) : State := { s with lresIdx := r }

/-- The write of `I2C` (R74). -/
def setLresChr (r : LresChr) (s : State) : State := { s with lresChr := r }

end Sys2Proof.Machine
end

