-- ==== Sys2Proof/Machine/Control.lean ====
section
/-! DEFINITION. The block control commands `NOP` (R98) and `CLEAR` (R99). -/

namespace Sys2Proof.Machine

/-- `NOP` (R98): no state changes, in every mode. -/
def execNop (s : State) : Host.Outcome State Fault Refusal := runCommand .nop s (.ok s)

/-- `CLEAR` (R99): allowed in every mode, the only command that ERROR mode executes. -/
def execClear (s : State) : Host.Outcome State Fault Refusal := .next (clearRegs s)

end Sys2Proof.Machine
end

