-- ==== Sys2Proof/Machine/DecodeSession.lean ====
section
/-! DEFINITION. The BitUnpacker and SeptetDecoder commands `DEC_BEGIN` (R93), `DEC_OCTET` (R94) and `DEC_END` (R96),
each check in the order of its pseudocode (R113). -/

namespace Sys2Proof.Machine

/-- `DEC_BEGIN` (R93). -/
def execDecBegin (raw : Bool) (n : Count) (s : State) : Host.Outcome State Fault Refusal :=
  runCommand (.decBegin raw n) s (.ok (openDecode raw n s))

/-- `DEC_OCTET` (R94, R95). -/
def execDecOctet (oct : Octet) (s : State) : Host.Outcome State Fault Refusal :=
  runCommand (.decOctet oct) s <|
    if s.mode ≠ .dec then .error .sequence
    else if s.remain = 0 then .error .excessOctet
    else
      let p := pull s.acc.toNat s.nbits.toNat oct s.remain.toNat
      match decodePulled s p.seps with
      | none => .error .unusedSlot
      | some d => .ok (commitPull p d s)

/-- `DEC_END` (R96). -/
def execDecEnd (s : State) : Host.Outcome State Fault Refusal :=
  runCommand .decEnd s <|
    if s.mode ≠ .dec then .error .sequence
    else if s.remain ≠ 0 then .error .truncatedPayload
    else if s.escPending then .error .malformedSeptetStream
    else .ok (closeDecode s)

end Sys2Proof.Machine
end

