-- ==== Sys2Proof/Machine/Operands.lean ====
section
/-! DEFINITION. The value checks on operands (R59, R113): they are no part of decoding. -/

namespace Sys2Proof.Machine

/-- An 8-bit index or septet operand (R59): below 128 it is the septet `[6:0]`, from 128 on it is out of range, which
the command reports as INDEX_RANGE (R74, R85). -/
def septetOperand (b : BitVec 8) : Option Septet :=
  if b.toNat < Config.tableSize then some (b.setWidth 7) else none

/-- The escape argument of `septetChar` that `T` stands for (R74): 1 selects the extension table. -/
def escOf : TableSel → Bool
  | .dflt => false
  | .ext => true

end Sys2Proof.Machine
end

