-- ==== Sys2Proof/Machine/Encode.lean ====
section
/-! DEFINITION. The SeptetEncoder and BitPacker commands `ENC_BEGIN` (R83), `ENC_CHAR` (R84), `ENC_SEPTET` (R85) and
`ENC_END` (R86), each check in the order of its pseudocode (R113). -/

namespace Sys2Proof.Machine

/-- `ENC_BEGIN` (R83). -/
def execEncBegin (s : State) : Host.Outcome State Fault Refusal :=
  runCommand .encBegin s (.ok (openEncode s))

/-- `ENC_CHAR` (R84). -/
def execEncChar (cp : CodePoint) (s : State) : Host.Outcome State Fault Refusal :=
  runCommand (.encChar cp) s <|
    if s.mode ≠ .enc then .error .sequence
    else
      match charSeptets s.rom cp with
      | none => .error .unsupportedCharacter
      | some seps => pushSeptets seps s

/-- `ENC_SEPTET` (R85). -/
def execEncSeptet (sept : BitVec 8) (s : State) : Host.Outcome State Fault Refusal :=
  runCommand (.encSeptet sept) s <|
    if s.mode ≠ .enc then .error .sequence
    else
      match septetOperand sept with
      | none => .error .indexRange
      | some x => pushSeptets [x] s

/-- `ENC_END` (R86). -/
def execEncEnd (s : State) : Host.Outcome State Fault Refusal :=
  runCommand .encEnd s (if s.mode ≠ .enc then .error .sequence else .ok (closeEncode s))

end Sys2Proof.Machine
end

