-- ==== Sys2Proof/Machine/Lookup.lean ====
section
/-! DEFINITION. The CharacterTable commands `C2I` (R72) and `I2C` (R74). A lookup that finds nothing is a result, not
a fault (R112). -/

namespace Sys2Proof.Machine

/-- `C2I` (R72). -/
def execC2i (cp : CodePoint) (s : State) : Host.Outcome State Fault Refusal :=
  runCommand (.c2i cp) s (.ok (setLresIdx ⟨(charIndex s.rom cp).2, (charIndex s.rom cp).1⟩ s))

/-- The value `I2C` writes for what `septetChar` answers (R74). -/
def lresChrOf : SeptetChar → LresChr
  | .escapeSignal => ⟨0, false, true⟩
  | .char cp => ⟨cp, true, false⟩
  | .unused => ⟨0, false, false⟩

/-- `I2C` (R74). -/
def execI2c (t : TableSel) (idx : BitVec 8) (s : State) : Host.Outcome State Fault Refusal :=
  runCommand (.i2c t idx) s <|
    match septetOperand idx with
    | none => .error .indexRange
    | some i => .ok (setLresChr (lresChrOf (septetChar s.rom (escOf t) i)) s)

end Sys2Proof.Machine
end

