-- ==== Sys2Proof/Machine/Dispatch.lean ====
section
/-! DEFINITION. The meaning of each command (R56 step 3), one arm per row of the opcode map (R60). -/

namespace Sys2Proof.Machine

def exec (i : Instr) (s : State) : Host.Outcome State Fault Refusal :=
  match i with
  | .nop => Sys2Proof.Machine.execNop s
  | .clear => Sys2Proof.Machine.execClear s
  | .c2i cp => Sys2Proof.Machine.execC2i cp s
  | .i2c t idx => Sys2Proof.Machine.execI2c t idx s
  | .encBegin => Sys2Proof.Machine.execEncBegin s
  | .encChar cp => Sys2Proof.Machine.execEncChar cp s
  | .encSeptet sept => Sys2Proof.Machine.execEncSeptet sept s
  | .encEnd => Sys2Proof.Machine.execEncEnd s
  | .decBegin raw n => Sys2Proof.Machine.execDecBegin raw n s
  | .decOctet oct => Sys2Proof.Machine.execDecOctet oct s
  | .decEnd => Sys2Proof.Machine.execDecEnd s

end Sys2Proof.Machine
end

