-- ==== Sys2Proof/Machine/Window.lean ====
section
/-! DEFINITION. The register window (R20): its sixteen registers, their offsets, the value a read returns (R21 to
R32), and which accesses exist (R44). -/

namespace Sys2Proof.Machine

/-- The registers of the window (R20), the reserved offsets 0x34, 0x38 and 0x3C among them. -/
inductive Reg where
  | cmd
  | status
  | errCmd
  | lresIdx
  | lresChr
  | outOct
  | outSept
  | outChr0
  | outChr1
  | scount
  | remain
  | ocount
  | acc
  | reserved34
  | reserved38
  | reserved3C
deriving DecidableEq, Repr

/-- Every register of the window, in offset order (R20). -/
def Reg.all : List Reg :=
  [.cmd, .status, .errCmd, .lresIdx, .lresChr, .outOct, .outSept, .outChr0, .outChr1, .scount, .remain, .ocount,
    .acc, .reserved34, .reserved38, .reserved3C]

/-- The byte offset from `REG_BASE` (R20). -/
def Reg.offset : Reg → Nat
  | .cmd => 0x00
  | .status => 0x04
  | .errCmd => 0x08
  | .lresIdx => 0x0C
  | .lresChr => 0x10
  | .outOct => 0x14
  | .outSept => 0x18
  | .outChr0 => 0x1C
  | .outChr1 => 0x20
  | .scount => 0x24
  | .remain => 0x28
  | .ocount => 0x2C
  | .acc => 0x30
  | .reserved34 => 0x34
  | .reserved38 => 0x38
  | .reserved3C => 0x3C

/-- The register at an offset, if the window has one there (R20). -/
def Reg.ofOffset (offset : Int) : Option Reg := Reg.all.find? fun r => (r.offset : Int) == offset

/-- The value a read returns (R20 to R32): `CMD` and the reserved offsets read 0. -/
def readReg (r : Reg) (s : State) : Word :=
  match r with
  | .cmd => 0
  | .status => s.statusWord
  | .errCmd => s.errCmd
  | .lresIdx => s.lresIdx.word
  | .lresChr => s.lresChr.word
  | .outOct => s.outOct.word
  | .outSept => s.outSept.word
  | .outChr0 => s.outChr0.word
  | .outChr1 => s.outChr1.word
  | .scount => countWord s.scount
  | .remain => countWord s.remain
  | .ocount => countWord s.ocount
  | .acc => accWord s.acc
  | .reserved34 => 0
  | .reserved38 => 0
  | .reserved3C => 0

/-- The register an access reaches, or why it has no meaning (R44). Which reason an access gets that breaks R44
twice is the model's choice: width, then alignment, then the window (assumption log 5). -/
def resolve (offset : Int) (bytes : Nat) : Except Refusal Reg :=
  if bytes ≠ 4 then .error .accessWidth
  else if offset % 4 ≠ 0 then .error .accessMisaligned
  else
    match Reg.ofOffset offset with
    | none => .error .accessOutsideWindow
    | some r => .ok r

/-- A bus event R44 or R120 gives a meaning: an aligned 32-bit access of the window, or reset. -/
def BusEvent.wf : BusEvent → Bool
  | .read offset bytes => (resolve offset bytes).isOk
  | .write offset bytes _ => (resolve offset bytes).isOk
  | .reset => true

/-- The octet a byte lane of the bus carries in a 32-bit access of the value `v` (R42). -/
def busOctet (v : Word) (lane : Fin 4) : Octet := v.extractLsb' (8 * (Config.busByteLanes.symm lane).val) 8

/-- The 32-bit value the octets on the four byte lanes carry (R42). -/
def ofBusOctets (lanes : Fin 4 → Octet) : Word :=
  lanes (Config.busByteLanes 3) ++ lanes (Config.busByteLanes 2) ++ lanes (Config.busByteLanes 1) ++
    lanes (Config.busByteLanes 0)

/-- `MemRead(addr, bytes)` of R10, at a bus address. -/
def memRead (addr bytes : Nat) : BusEvent := .read ((addr : Int) - (Config.regBase : Int)) bytes

/-- `MemWrite(addr, bytes, v)` of R10, at a bus address. -/
def memWrite (addr bytes : Nat) (v : Word) : BusEvent := .write ((addr : Int) - (Config.regBase : Int)) bytes v

/-- The host's read of a register: `R NAME` of R63. -/
def hostRead (r : Reg) : BusEvent := .read r.offset 4

/-- The host's write of a command word to `CMD` (R21, R63). -/
def commandWord (w : Word) : BusEvent := .write 0 4 w

/-- The host's write of a command to `CMD` (R63). -/
def command (i : Instr) : BusEvent := commandWord (encode i)

end Sys2Proof.Machine
end

