-- ==== Sys2Proof/Machine/Bus.lean ====
section
/-! DEFINITION. What the SPU does with one bus event: a write to `CMD` executes its word (R56), any other write has no
effect, a read returns a register's value and changes nothing else (R20, R46), reset clears every register (R120). -/

namespace Sys2Proof.Machine

/-- A write of `w` to `CMD` (R56): 1. in ERROR mode any word but `CLEAR` is ignored; 2. an illegal word raises
ILLEGAL_COMMAND; 3. otherwise the command's rule. -/
def commandWrite (w : Word) (s : State) : Host.Outcome State Fault Refusal :=
  if s.mode = .error ∧ w ≠ clearWord then .next s
  else
    match decode w with
    | none => .next (raiseFault .illegalCommand w s)
    | some i => exec i s

/-- The state after a read returned `v` (R45, R46). -/
def respond (v : Word) (s : State) : State := { s with responses := s.responses ++ [v] }

/-- The SPU takes one bus event (R45, R46, R50, R120). -/
def takeEvent (e : BusEvent) (s : State) : Host.Outcome State Fault Refusal :=
  match e with
  | .reset => .next (clearRegs s)
  | .read offset bytes =>
    match resolve offset bytes with
    | .error r => .refused r
    | .ok reg => .next (respond (readReg reg s) s)
  | .write offset bytes data =>
    match resolve offset bytes with
    | .error r => .refused r
    | .ok reg => if reg = .cmd then commandWrite data s else .next s

/-- The state once the oldest bus event has been taken off the list (R50). -/
def dropEvent (rest : List BusEvent) (s : State) : State := { s with pending := rest }

/-- One step of the whole machine: the oldest pending event is taken; with none pending the SPU waits, unchanged
(R19, R50; assumption log 1). -/
def takeNext (s : State) : Host.Outcome State Fault Refusal :=
  match s.pending with
  | [] => .next s
  | e :: rest => takeEvent e (dropEvent rest s)

end Sys2Proof.Machine
end

