-- ==== Sys2Proof/Machine/Step.lean ====
section
/-! DEFINITION. The step of the machine (R45, R50, R56) and where its next command comes from. -/

namespace Sys2Proof.Machine

/-- One step: the SPU takes the oldest pending bus event. -/
def step (s : State) : Host.Outcome State Fault Refusal := takeNext s

/-- The host's next access is a write of the table bits `w` to `CMD` (R21): the SPU fetches nothing (R43), so this is
where its next command comes from. Assumption log 1. -/
def State.withFetchWord (s : State) (nbits w : Nat) : State :=
  { s with pending := commandWord (BitVec.ofNat 32 (w % 2 ^ nbits)) :: s.pending }

end Sys2Proof.Machine
end

