-- ==== Sys2Proof/Machine/HostReference.lean ====
section
/-! DEFINITION. The host reference procedures of R100 to R107: software around the SPU, outside the block (R5), which
drives the machine through `step` one access at a time. A hex string is a list of characters (R106), a text is a list
of code points (R13). -/

namespace Sys2Proof.Machine

/-- The mode tag the host keeps with a payload (R100, R102). -/
inductive EncodingMode where
  | restricted
  | wide
deriving DecidableEq, Repr

/-- What the host reports (R103, R105, R106, R108). -/
inductive HostError where
  /-- A hex string of odd length or with a character outside 0-9a-f (R106). -/
  | malformedHex
  /-- A RESTRICTED decode without a septet count, AmbiguousTrailingGroup (R103, R108). -/
  | missingCount
  /-- A WIDE payload with an odd byte count (R105). -/
  | oddLengthWidePayload
  /-- A WIDE payload with an unpaired surrogate unit (R105). -/
  | malformedWidePayload
  /-- The SPU faulted; the fault code is the `STATUS.ERRCODE` read (R103, R107 (e)). -/
  | spuFault (code : BitVec 4)
deriving DecidableEq, Repr

/-- A lowercase hex digit (R106). -/
def hexDigit (n : Nat) : Char := if n < 10 then Char.ofNat (48 + n) else Char.ofNat (87 + n)

/-- `hex(o)` of R106: most-significant nibble first, octet 0 leftmost. -/
def hex (os : List Octet) : List Char :=
  os.flatMap fun o => [hexDigit (o.toNat / 16), hexDigit (o.toNat % 16)]

/-- The value of a character 0-9a-f; every other character, uppercase among them, is malformed (R106). -/
def hexValue (c : Char) : Option Nat :=
  if 48 ≤ c.toNat ∧ c.toNat ≤ 57 then some (c.toNat - 48)
  else if 97 ≤ c.toNat ∧ c.toNat ≤ 102 then some (c.toNat - 87)
  else none

/-- `unhex(h)` of R106; `none` is MalformedHex. -/
def unhex : List Char → Option (List Octet)
  | [] => some []
  | [_] => none
  | a :: b :: rest =>
    match hexValue a, hexValue b, unhex rest with
    | some x, some y, some os => some (BitVec.ofNat 8 (16 * x + y) :: os)
    | _, _, _ => none

/-- The UTF-16 high surrogates (R104). -/
def isHighSurrogate (u : Nat) : Bool := 0xD800 ≤ u && u ≤ 0xDBFF

/-- The UTF-16 low surrogates (R104). -/
def isLowSurrogate (u : Nat) : Bool := 0xDC00 ≤ u && u ≤ 0xDFFF

/-- Whether a code point is one R104 encodes: a Unicode code point that is no surrogate. -/
def isScalar (c : CodePoint) : Bool :=
  c.toNat ≤ 0x10FFFF && !isHighSurrogate c.toNat && !isLowSurrogate c.toNat

/-- A code unit as two big-endian octets (R104). -/
def unitOctets (u : Nat) : List Octet := [BitVec.ofNat 8 (u >>> 8), BitVec.ofNat 8 (u &&& 0xFF)]

/-- The octets of one character (R104); R104 gives none for a surrogate or a value past the last code point, and the
host then has no WIDE payload (assumption log 8). -/
def wideChar (c : CodePoint) : Option (List Octet) :=
  if !isScalar c then none
  else if c.toNat ≤ 0xFFFF then some (unitOctets c.toNat)
  else
    some (unitOctets (0xD800 + ((c.toNat - 0x10000) >>> 10)) ++
      unitOctets (0xDC00 + ((c.toNat - 0x10000) &&& 0x3FF)))

/-- `wideEncode(text)` of R104. -/
def wideEncode : List CodePoint → Option (List Octet)
  | [] => some []
  | c :: cs =>
    match wideChar c, wideEncode cs with
    | some a, some b => some (a ++ b)
    | _, _ => none

/-- The code units of a WIDE payload (R105); `none` when its length is odd. -/
def wideUnits : List Octet → Option (List Nat)
  | [] => some []
  | [_] => none
  | hi :: lo :: rest => (wideUnits rest).map fun us => ((hi.toNat <<< 8) ||| lo.toNat) :: us

/-- The code points of a sequence of code units (R105); `none` on an unpaired surrogate. -/
def unitsText : List Nat → Option (List CodePoint)
  | [] => some []
  | [u] => if isHighSurrogate u || isLowSurrogate u then none else some [BitVec.ofNat 21 u]
  | u :: v :: rest =>
    if isHighSurrogate u then
      if isLowSurrogate v then
        (unitsText rest).map (BitVec.ofNat 21 (0x10000 + ((u - 0xD800) <<< 10) + (v - 0xDC00)) :: ·)
      else none
    else if isLowSurrogate u then none
    else (unitsText (v :: rest)).map (BitVec.ofNat 21 u :: ·)

/-- `wideDecode(o)` of R105. -/
def wideDecode (os : List Octet) : Except HostError (List CodePoint) :=
  match wideUnits os with
  | none => .error .oddLengthWidePayload
  | some us =>
    match unitsText us with
    | none => .error .malformedWidePayload
    | some text => .ok text

/-- The host issues one access and the SPU takes it (R100); `none` when R44 gives the access no meaning. -/
def issue (e : BusEvent) (s : State) : Option State :=
  match step { s with pending := e :: s.pending } with
  | .next t => some t
  | .fault _ => none
  | .refused _ => none

/-- The host issues several accesses, in order (R50). -/
def issueAll : List BusEvent → State → Option State
  | [], s => some s
  | e :: es, s => (issue e s).bind (issueAll es)

/-- The host reads a register and has its value (R45). -/
def readValue (r : Reg) (s : State) : Option (Word × State) :=
  (issue (hostRead r) s).bind fun t => t.responses.getLast?.map fun v => (v, t)

/-- The octets an `OUT_OCT` value names: OCT0, then OCT1, OCT_N of them (R26, R102). -/
def octetsOfWord (w : Word) : List Octet :=
  [w.extractLsb' 0 8, w.extractLsb' 8 8].take (w.extractLsb' 16 2).toNat

/-- The septets an `OUT_SEPT` value names: SEPT0, then SEPT1, SEPT_N of them (R27). -/
def septetsOfWord (w : Word) : List Septet :=
  [w.extractLsb' 0 7, w.extractLsb' 8 7].take (w.extractLsb' 16 2).toNat

/-- The character an `OUT_CHR` value names, if VALID is 1 (R28, R103). -/
def charsOfWord (w : Word) : List CodePoint := if w.getLsbD 24 then [w.extractLsb' 0 21] else []

/-- `selectMode(text)` of R101: WIDE for the whole message as soon as one character is UNMAPPED. -/
def selectMode : List CodePoint → State → Option (EncodingMode × State)
  | [], s => some (.restricted, s)
  | c :: cs, s =>
    (issue (command (.c2i c)) s).bind fun t =>
      (readValue .lresIdx t).bind fun r =>
        if r.1.extractLsb' 8 2 = CharClass.code .unmapped then some (.wide, r.2) else selectMode cs r.2

/-- The character loop of R102: `ENC_CHAR c`, `R OUT_OCT`, append. -/
def encodeChars : List CodePoint → State → Option (List Octet × State)
  | [], s => some ([], s)
  | c :: cs, s =>
    (issue (command (.encChar c)) s).bind fun t =>
      (readValue .outOct t).bind fun r =>
        (encodeChars cs r.2).map fun q => (octetsOfWord r.1 ++ q.1, q.2)

/-- The host reads STATUS (R103): when MODE is ERROR it has the fault code to report, and issues `CLEAR` before the
next call (R107 (e)). -/
def checkStatus (s : State) : Option (Option HostError × State) :=
  (readValue .status s).bind fun r =>
    if r.1.extractLsb' 0 2 = Mode.code .error then
      (issue (command .clear) r.2).map fun t => (some (.spuFault (r.1.extractLsb' 4 4)), t)
    else some (none, r.2)

/-- What `text_to_payload` returns (R102): hex, mode and, in RESTRICTED mode, the septet count. -/
structure Payload where
  hex : List Char
  mode : EncodingMode
  count : Option Count
deriving DecidableEq, Repr

/-- The RESTRICTED branch of R102. R102 itself reads no STATUS; R107 (e) has any fault reported and cleared before the
next call, so the host reads STATUS once, last. DESIGN CHOICE of the place: a fault stays recorded until then (R115,
assumption log 8). -/
def encodeRestricted (text : List CodePoint) (s : State) : Option (Except HostError Payload × State) :=
  (issue (command .encBegin) s).bind fun s1 =>
    (encodeChars text s1).bind fun q =>
      (issue (command .encEnd) q.2).bind fun s2 =>
        (readValue .outOct s2).bind fun r =>
          (readValue .scount r.2).bind fun n =>
            (checkStatus n.2).map fun c =>
              match c.1 with
              | some e => (.error e, c.2)
              | none => (.ok ⟨hex (q.1 ++ octetsOfWord r.1), .restricted, some (n.1.setWidth 16)⟩, c.2)

/-- `text_to_payload(text)` of R102, with the fault report of R107 (e). -/
def textToPayload (text : List CodePoint) (s : State) : Option (Except HostError Payload × State) :=
  (selectMode text s).bind fun m =>
    match m.1 with
    | .restricted => encodeRestricted text m.2
    | .wide => (wideEncode text).map fun os => (.ok ⟨hex os, .wide, none⟩, m.2)

/-- The octet loop of R103: `DEC_OCTET b`, `R STATUS`, `R OUT_CHR0`, `R OUT_CHR1`, append the valid characters. -/
def decodeOctets : List Octet → State → Option (Except HostError (List CodePoint) × State)
  | [], s => some (.ok [], s)
  | o :: os, s =>
    (issue (command (.decOctet o)) s).bind fun t =>
      (checkStatus t).bind fun c =>
        match c.1 with
        | some e => some (.error e, c.2)
        | none =>
          (readValue .outChr0 c.2).bind fun r0 =>
            (readValue .outChr1 r0.2).bind fun r1 =>
              (decodeOctets os r1.2).map fun q =>
                match q.1 with
                | .error e => (.error e, q.2)
                | .ok cs => (.ok (charsOfWord r0.1 ++ charsOfWord r1.1 ++ cs), q.2)

/-- The RESTRICTED branch of R103. -/
def decodeRestricted (os : List Octet) (n : Count) (s : State) :
    Option (Except HostError (List CodePoint) × State) :=
  (issue (command (.decBegin false n)) s).bind fun s1 =>
    (decodeOctets os s1).bind fun q =>
      match q.1 with
      | .error e => some (.error e, q.2)
      | .ok text =>
        (issue (command .decEnd) q.2).bind fun s2 =>
          (checkStatus s2).map fun c =>
            match c.1 with
            | some e => (.error e, c.2)
            | none => (.ok text, c.2)

/-- `payload_to_text(hex, mode, count)` of R103. -/
def payloadToText (h : List Char) (mode : EncodingMode) (count : Option Count) (s : State) :
    Option (Except HostError (List CodePoint) × State) :=
  match unhex h, mode, count with
  | none, _, _ => some (.error .malformedHex, s)
  | some os, .wide, _ => some (wideDecode os, s)
  | some _, .restricted, none => some (.error .missingCount, s)
  | some os, .restricted, some n => decodeRestricted os n s

end Sys2Proof.Machine
end

