-- ==== Sys2Proof/Machine/SessionRecord.lean ====
section
/-! DEFINITION. The end of a session and its output (R128), read off the accesses the SPU takes. A record is the
observer's, not state of the SPU: it is kept beside the machine and changes nothing in it. -/

namespace Sys2Proof.Machine

/-- What a session computes: `ENC_BEGIN` opens the first kind, `DEC_BEGIN` one of the other two by its RAW operand
(R83, R93). -/
inductive SessionKind where
  | encode
  | decode
  | rawDecode
deriving DecidableEq, Repr

/-- Where a session stands (R128). -/
inductive SessionPhase where
  /-- It "has not ended, and says nothing". -/
  | isOpen
  /-- It ended well, with SCOUNT as its END left it. -/
  | endedWell (count : Count)
  /-- It ended badly, at the fault recorded. -/
  | endedBadly (code : ErrCode)
deriving DecidableEq, Repr

/-- A session as the host sees it: what its reads of OUT_OCT, OUT_SEPT, OUT_CHR0 and OUT_CHR1 gave since the BEGIN. -/
structure Session where
  kind : SessionKind
  phase : SessionPhase
  octets : List Octet
  septets : List Septet
  chars : List CodePoint
deriving DecidableEq, Repr

/-- The output of a session that ended well (R128). -/
inductive SessionOutput where
  | encode (octets : List Octet) (count : Count)
  | decode (chars : List CodePoint)
  | rawDecode (septets : List Septet)
deriving DecidableEq, Repr

/-- A session right after its BEGIN. -/
def Session.opened (k : SessionKind) : Session := ⟨k, .isOpen, [], [], []⟩

/-- The read of a register appends what it gave. Every read counts, as R128 says "every `OUT_OCT` read": DESIGN CHOICE
for a host that reads one value twice (assumption log 10). -/
def Session.afterRead (r : Reg) (v : Word) (x : Session) : Session :=
  match r with
  | .outOct => { x with octets := x.octets ++ octetsOfWord v }
  | .outSept => { x with septets := x.septets ++ septetsOfWord v }
  | .outChr0 => { x with chars := x.chars ++ charsOfWord v }
  | .outChr1 => { x with chars := x.chars ++ charsOfWord v }
  | .cmd => x
  | .status => x
  | .errCmd => x
  | .lresIdx => x
  | .lresChr => x
  | .scount => x
  | .remain => x
  | .ocount => x
  | .acc => x
  | .reserved34 => x
  | .reserved38 => x
  | .reserved3C => x

/-- An open session ends; an ended one stays as it ended. -/
def Session.ended (p : SessionPhase) (x : Session) : Session := if x.phase = .isOpen then { x with phase := p } else x

/-- A write of `w` to CMD that takes `s` to `t` ends the open session well: an `ENC_END` or `DEC_END` that raises no
fault (R128). -/
def EndsWell (w : Word) (s t : State) : Prop :=
  (w = encode .encEnd ∧ s.mode = .enc ∨ w = encode .decEnd ∧ s.mode = .dec) ∧ t.mode ≠ .error

/-- A write to CMD that takes `s` to `t` ends the open session badly: it faults, whether its word is a command or an
illegal one (R110, R128). -/
def EndsBadly (s t : State) : Prop := (s.mode = .enc ∨ s.mode = .dec) ∧ t.mode = .error

/-- The session a write of `w` to CMD opens outside ERROR mode, if it is a BEGIN (R83, R93). -/
def openedBy (w : Word) : Option Session :=
  match decode w with
  | some .encBegin => some (.opened .encode)
  | some (.decBegin raw _) => some (.opened (if raw then .rawDecode else .decode))
  | _ => none

/-- `CLEAR` or reset discards an open session (R125); it does not undo the end of an ended one. -/
def discardOpen (x : Option Session) : Option Session := x.filter (·.phase ≠ .isOpen)

/-- The record after a write of `w` to CMD that took `s` to `t`. A BEGIN starts a new record and so discards an open
session (R125); in ERROR mode every word but `CLEAR` is ignored (R115). -/
def recordWrite (w : Word) (s t : State) (x : Option Session) : Option Session :=
  if w = clearWord then discardOpen x
  else if s.mode = .error then x
  else
    match openedBy w with
    | some y => some y
    | none =>
      if t.mode = .error then x.map (·.ended (.endedBadly t.errCode))
      else if w = encode .encEnd ∨ w = encode .decEnd then x.map (·.ended (.endedWell t.scount))
      else x

/-- The record after the SPU took one access, which took `s` to `t`. -/
def recordEvent (e : BusEvent) (s t : State) (x : Option Session) : Option Session :=
  match e with
  | .reset => discardOpen x
  | .read offset bytes =>
    match resolve offset bytes with
    | .error _ => x
    | .ok r => x.map (·.afterRead r (readReg r s))
  | .write offset bytes w =>
    match resolve offset bytes with
    | .error _ => x
    | .ok r => if r = .cmd then recordWrite w s t x else x

/-- The host issues accesses in order and keeps the record (R50, R100); `none` when R44 gives one no meaning. -/
def issueRecorded : List BusEvent → State → Option Session → Option (State × Option Session)
  | [], s, x => some (s, x)
  | e :: es, s, x => (issue e s).bind fun t => issueRecorded es t (recordEvent e s t x)

/-- The output of a session (R128): none until it has ended well; then what was read since its BEGIN, the reads after
its END among them (assumption log 10), and in an encode session SCOUNT. -/
def Session.output (x : Session) : Option SessionOutput :=
  match x.phase with
  | .isOpen => none
  | .endedBadly _ => none
  | .endedWell n =>
    match x.kind with
    | .encode => some (.encode x.octets n)
    | .decode => some (.decode x.chars)
    | .rawDecode => some (.rawDecode x.septets)

end Sys2Proof.Machine
end

