-- ==== Sys2Proof/Machine/Stream.lean ====
section
/-! DEFINITION. The packing and unpacking functions the datapath is held to: the bit stream definitions (R11, R75,
R88) and the source's per-group formulas (R76, R89). -/

namespace Sys2Proof.Machine

/-- The bit stream of a list of elements of `width` bits as one natural number: element `j` is shifted left by
`width * j`, least-significant bit first (R11, R75). -/
def bitStream (width : Nat) : List Nat → Nat
  | [] => 0
  | x :: xs => x + (bitStream width xs) <<< width

/-- The stream `B` of R75. -/
def septetStream (ss : List Septet) : Nat := bitStream Config.septetBits (ss.map (·.toNat))

/-- The stream `B` of R88. -/
def octetStream (os : List Octet) : Nat := bitStream Config.octetBits (os.map (·.toNat))

/-- `ceil(7N/8)`, the octets of a payload of `N` septets (R77). -/
def payloadLength (n : Nat) : Nat := (Config.septetBits * n + 7) / 8

/-- `pack(s)` of R75. -/
def pack (ss : List Septet) : List Octet :=
  (List.range (payloadLength ss.length)).map fun m => BitVec.ofNat 8 ((septetStream ss >>> (8 * m)) &&& 0xFF)

/-- `unpack(o, N)` of R88. -/
def unpack (os : List Octet) (n : Nat) : List Septet :=
  (List.range n).map fun j => BitVec.ofNat 7 ((octetStream os >>> (7 * j)) &&& 0x7F)

/-- Element `i` of a group, read as 0 past its end (R89 reads `p_7` so). -/
def groupAt {w : Nat} (g : List (BitVec w)) (i : Nat) : Nat := (g.getD i 0).toNat

/-- The octets of one group of 1 to 8 septets by the source's formulas (R76). -/
def packGroup (g : List Septet) : List Octet :=
  let k := g.length
  ((List.range (k - 1)).map fun i =>
    BitVec.ofNat 8 ((groupAt g i >>> i) ||| ((groupAt g (i + 1) <<< (7 - i)) &&& 0xFF))) ++
  (if 7 * k % 8 ≠ 0 then [BitVec.ofNat 8 (groupAt g (k - 1) >>> (k - 1))] else [])

/-- Packing by groups of 8 septets, each on its own, outputs concatenated in order (R76). -/
def packGroups : List Septet → List Octet
  | [] => []
  | a :: b :: c :: d :: e :: f :: g :: h :: rest => packGroup [a, b, c, d, e, f, g, h] ++ packGroups rest
  | last => packGroup last

/-- The `k` septets of one group of octets by the source's formulas (R89). -/
def unpackGroup (p : List Octet) (k : Nat) : List Septet :=
  (List.range k).map fun i =>
    if i = 0 then BitVec.ofNat 7 (groupAt p 0 &&& 0x7F)
    else BitVec.ofNat 7 (((groupAt p i <<< i) ||| (groupAt p (i - 1) >>> (8 - i))) &&& 0x7F)

/-- Unpacking by groups: a full group is 7 octets and gives 8 septets, a last group of `k` < 8 septets is `k` octets
(R89). -/
def unpackGroups (os : List Octet) : (n : Nat) → List Septet
  | 0 => []
  | n + 8 => unpackGroup (os.take Config.groupOctets) Config.groupSeptets ++ unpackGroups (os.drop Config.groupOctets) n
  | k => unpackGroup (os.take k) k

/-- `pull` for each octet of a payload in order, `rem` counted down by the septets extracted (R91). -/
def pullAll (acc nb rem : Nat) : List Octet → Pulled
  | [] => ⟨acc, nb, []⟩
  | o :: os =>
    let p := pull acc nb o rem
    let q := pullAll p.acc p.nb (rem - p.seps.length) os
    ⟨q.acc, q.nb, p.seps ++ q.seps⟩

/-- The septets of a whole text, `charSeptets` of each character in order (R82, R87); `none` when a character is in
neither table. -/
def textSeptets (t : CharTables) : List CodePoint → Option (List Septet)
  | [] => some []
  | c :: cs =>
    match charSeptets t c, textSeptets t cs with
    | some a, some b => some (a ++ b)
    | _, _ => none

end Sys2Proof.Machine
end

