-- ==== Sys2Proof/Safety.lean ====
section
/-! DEFINITION. What counts as a good state of the SPU (the session invariants R37 and R38, the fault record R22, R23
and R116, the register shapes R22 to R32), when a record of a session (R128) agrees with the state, and the output of a
whole session of commands (R87, R97). -/

namespace Sys2Proof.Machine

/-- MODE = ERROR exactly when ERRCODE is not 0 (R22, R116), and ERRCMD is 0 when ERRCODE is 0 (R23). -/
abbrev State.FaultRecordInv (s : State) : Prop :=
  (s.mode = .error ↔ s.errCode ≠ .none) ∧ (s.errCode = .none → s.errCmd = 0)

/-- NBITS is at most 7 (R22), and bits of ACC at and above NBITS are 0 (R32). -/
abbrev State.AccInv (s : State) : Prop :=
  s.nbits.toNat ≤ 7 ∧ s.acc.toNat < 2 ^ s.nbits.toNat

/-- The invariants of ENC mode (R37). -/
abbrev State.EncInv (s : State) : Prop :=
  s.mode = .enc →
    s.nbits.toNat = 7 * s.scount.toNat % 8 ∧ s.ocount.toNat = 7 * s.scount.toNat / 8 ∧
      s.acc.toNat < 2 ^ s.nbits.toNat

/-- The invariants of DEC mode (R38). The operand `N` of the opening `DEC_BEGIN` is SCOUNT + REMAIN, at most
65535. -/
abbrev State.DecInv (s : State) : Prop :=
  s.mode = .dec →
    s.scount.toNat + s.remain.toNat ≤ Config.countMax ∧
    (0 < s.remain.toNat →
      8 * s.ocount.toNat = 7 * s.scount.toNat + s.nbits.toNat ∧ s.nbits.toNat ≤ 6) ∧
    (s.remain.toNat = 0 →
      s.nbits.toNat = 0 ∧ s.acc.toNat = 0 ∧ s.ocount.toNat = payloadLength (s.scount.toNat + s.remain.toNat)) ∧
    s.acc.toNat < 2 ^ s.nbits.toNat ∧
    (s.raw = true → s.escPending = false)

/-- Outside a decode session and ERROR mode the decoder's bits are 0, and in IDLE so are NBITS and ACC (R22, R83, R86,
R96). -/
abbrev State.SessionFlagInv (s : State) : Prop :=
  (s.mode = .idle ∨ s.mode = .enc → s.raw = false ∧ s.escPending = false) ∧
  (s.mode = .idle → s.nbits.toNat = 0 ∧ s.acc.toNat = 0)

/-- The result registers hold only values R24 to R28 allow. -/
abbrev State.ResultInv (s : State) : Prop :=
  (s.lresIdx.cls = .unmapped → s.lresIdx.index = 0) ∧
  ¬(s.lresChr.valid = true ∧ s.lresChr.escMark = true) ∧
  (s.lresChr.valid = false → s.lresChr.cp = 0) ∧
  s.outOct.octN.toNat ≤ 2 ∧
  (s.outOct.octN.toNat = 0 → s.outOct.oct0 = 0) ∧ (s.outOct.octN.toNat < 2 → s.outOct.oct1 = 0) ∧
  s.outSept.septN.toNat ≤ 2 ∧
  (s.outSept.septN.toNat = 0 → s.outSept.sept0 = 0) ∧ (s.outSept.septN.toNat < 2 → s.outSept.sept1 = 0) ∧
  (s.outChr0.valid = false → s.outChr0.cp = 0) ∧ (s.outChr1.valid = false → s.outChr1.cp = 0) ∧
  (s.outChr1.valid = true → s.outChr0.valid = true)

/-- The most octets OCOUNT can count, `ceil(7 * 65535 / 8)` = 57344 (R31). -/
abbrev State.OcountInv (s : State) : Prop := s.ocount.toNat ≤ 57344

/-- The invariant of the machine: its ROM contents meet R69 and every register holds a value the spec allows. -/
abbrev State.Inv (s : State) : Prop :=
  s.rom.wf = true ∧ s.FaultRecordInv ∧ s.AccInv ∧ s.EncInv ∧ s.DecInv ∧ s.SessionFlagInv ∧ s.ResultInv ∧
    s.OcountInv

/-- A host that issues only the accesses R44 defines. -/
def State.hostConforms (s : State) : Bool := s.pending.all (·.wf)

/-- A record of the session agrees with the state: MODE is ENC exactly when an encode session is open, and DEC exactly
when a decode session is, of the kind RAW says (R22, R128). -/
def SessionAgrees (x : Option Session) (s : State) : Prop :=
  (s.mode = .enc ↔ ∃ y, x = some y ∧ y.phase = .isOpen ∧ y.kind = .encode) ∧
  (s.mode = .dec ↔ ∃ y, x = some y ∧ y.phase = .isOpen ∧ y.kind ≠ .encode) ∧
  (s.mode = .dec → ∀ y, x = some y → y.kind = if s.raw then .rawDecode else .decode)

/-- A sequence of commands with no fault: the state it leaves and what `out` reads after each command, in command
order; `none` when a command faults (R87, R97). -/
def runSession {β : Type} (out : Instr → State → List β) : List Instr → State → Option (State × List β)
  | [], s => some (s, [])
  | i :: is, s =>
    match exec i s with
    | .next t => if t.mode = .error then none else (runSession out is t).map fun q => (q.1, out i t ++ q.2)
    | .fault _ => none
    | .refused _ => none

/-- The octets an encode command emitted: OCT0, then OCT1, OCT_N of them (R87). The other commands emit none, and
OUT_OCT may then hold an older value (R123). -/
def emittedOctets : Instr → State → List Octet
  | .encChar _, t => t.outOct.octets
  | .encSeptet _, t => t.outOct.octets
  | .encEnd, t => t.outOct.octets
  | _, _ => []

/-- The septets a `DEC_OCTET` extracted (R97); the other commands extract none. -/
def extractedSeptets : Instr → State → List Septet
  | .decOctet _, t => t.outSept.septets
  | _, _ => []

/-- The characters a `DEC_OCTET` decoded, OUT_CHR0 before OUT_CHR1 (R97); the other commands decode none. -/
def decodedChars : Instr → State → List CodePoint
  | .decOctet _, t => t.outChr0.chars ++ t.outChr1.chars
  | _, _ => []

/-- The septets a pushing command pushes (R82, R85); `none` when it pushes none. -/
def commandSeptets (t : CharTables) : Instr → Option (List Septet)
  | .encChar cp => charSeptets t cp
  | .encSeptet b => (septetOperand b).map fun x => [x]
  | _ => none

/-- The septets a list of pushing commands pushes, in order (R87). -/
def pushedSeptets (t : CharTables) : List Instr → Option (List Septet)
  | [] => some []
  | i :: is =>
    match commandSeptets t i, pushedSeptets t is with
    | some a, some b => some (a ++ b)
    | _, _ => none

end Sys2Proof.Machine
end

