-- ==== Sys2Proof/Certificates/Slice0/Obligations.lean ====
section
/-! DEFINITION. The statements for the provers, from the numbered rules of spec/. Each names the rule it formalises;
a state before a command is any state at all unless a hypothesis says otherwise. -/

open Sys2Proof Sys2Proof.Machine

/-! ### Encoding (R56 to R62) -/

/-- Decoding the word of a command gives the command back, with every operand at every value its field admits
(R59, R62). -/
def Obligations.DecodeEncodeAgree : Prop := ∀ i : Instr, decode (encode i) = some i

/-- No two words decode to one command: the word a command was decoded from is the command's encoding (R57, R62), so
the word R110 records is the word the host wrote. -/
def Obligations.EncodeDecodeAgree : Prop := ∀ (w : Word) (i : Instr), decode w = some i → encode i = w

/-- R61: exactly the words with an unlisted opcode or a reserved bit set are illegal, and executing one outside
ERROR mode raises ILLEGAL_COMMAND with the word itself recorded and nothing else changed. -/
def Obligations.IllegalWordsFault : Prop :=
  ∀ w : Word,
    (decode w = none ↔
      (let c := (w >>> 24).toNat
       (0x02 ≤ c ∧ c ≤ 0x0F) ∨ (0x12 ≤ c ∧ c ≤ 0x1F) ∨ (0x24 ≤ c ∧ c ≤ 0x2F) ∨ (0x33 ≤ c ∧ c ≤ 0xFF)) ∨
      ∃ op : Opcode, (w >>> 24).toNat = op.code.toNat ∧ w &&& op.format.reservedMask ≠ 0) ∧
    (decode w = none → ∀ (s : State) (rest : List BusEvent), s.pending = commandWord w :: rest → s.mode ≠ .error →
      step s = .next { s with pending := rest, mode := .error, errCode := .illegalCommand, errCmd := w })

/-- R58, R60 and R62: a word selects a row of the opcode map, `(w & mask) = match`, exactly when it decodes to a
command of that row, and at most one row matches any word. -/
def Obligations.OpcodeMapSelectsTheDecodedRow : Prop :=
  (∀ (w : Word) (r : OpcodeRow), r ∈ opcodeRows →
    (w &&& r.mask = r.matchBits ↔ ∃ i, decode w = some i ∧ i.opcode = r.op)) ∧
  (∀ (w : Word) (r r' : OpcodeRow), r ∈ opcodeRows → r' ∈ opcodeRows →
    w &&& r.mask = r.matchBits → w &&& r'.mask = r'.matchBits → r = r')

/-- Words written out from the opcodes of R60, the formats of R58 and the operands of R59 decode (R62) to the commands
they stand for, one of each family and format. -/
def Obligations.WrittenWordsDecode : Prop :=
  decode 0x01000000 = some .clear ∧ decode 0x1000007B = some (.c2i 0x7B) ∧
  decode 0x11000165 = some (.i2c .ext 0x65) ∧ decode 0x22000041 = some (.encSeptet 0x41) ∧
  decode 0x30010002 = some (.decBegin true 2) ∧ decode 0x310000D9 = some (.decOctet 0xD9)

/-- R56: a step whose next access is a write of `w` to CMD ignores it in ERROR mode unless it is `CLEAR`; otherwise it
raises ILLEGAL_COMMAND when `w` does not decode, and runs the meaning of the command when it does, on the state whose
access has been taken off the list (R19, R50). -/
def Obligations.StepRunsTheDecodedCommand : Prop :=
  ∀ (s : State) (w : Word) (rest : List BusEvent), s.pending = commandWord w :: rest →
    (s.mode = .error → w ≠ 0x01000000 → step s = .next { s with pending := rest }) ∧
    (¬(s.mode = .error ∧ w ≠ 0x01000000) → decode w = none →
      step s = .next { s with pending := rest, mode := .error, errCode := .illegalCommand, errCmd := w }) ∧
    (∀ i : Instr, decode w = some i → step s = exec i { s with pending := rest })

/-! ### The bus (R20, R44 to R46, R50) -/

/-- R44, for the host's accesses `MemRead(addr, n)` and `MemWrite(addr, n, v)`: a 32-bit access of REG_BASE plus a
multiple of 4 in 0x00 to 0x3C is taken; every other access is refused. -/
def Obligations.OnlyAlignedWindowAccessesAreTaken : Prop :=
  ∀ (s : State) (addr n : Nat) (v : Word) (rest : List BusEvent) (e : BusEvent),
    (e = memRead addr n ∨ e = memWrite addr n v) → s.pending = e :: rest →
    (((∃ off, addr = Config.regBase + off ∧ off % 4 = 0 ∧ off ≤ 0x3C) ∧ n = 4) → ∃ t, step s = .next t) ∧
    (¬((∃ off, addr = Config.regBase + off ∧ off % 4 = 0 ∧ off ≤ 0x3C) ∧ n = 4) → ∃ r, step s = .refused r)

/-- A read of any register, in every mode, returns its value and changes nothing (R45, R46); a write of any register
but CMD changes nothing (R20, R46). -/
def Obligations.ReadsAndReadOnlyWritesHaveNoSideEffect : Prop :=
  ∀ (s : State) (r : Reg) (rest : List BusEvent),
    (s.pending = hostRead r :: rest →
      step s = .next { s with pending := rest, responses := s.responses ++ [readReg r s] }) ∧
    (∀ v : Word, r ≠ .cmd → s.pending = .write r.offset 4 v :: rest → step s = .next { s with pending := rest })

/-- The sixteen registers stand at their offsets (R20), their fields where R22 to R32 put them, with reserved bits 0
(R20); MODE, ERRCODE and CLASS have the numbers of R22, R111 and R24. -/
def Obligations.RegisterFieldsStandInTheirBits : Prop :=
  [Reg.cmd, .status, .errCmd, .lresIdx, .lresChr, .outOct, .outSept, .outChr0, .outChr1, .scount, .remain, .ocount,
    .acc, .reserved34, .reserved38, .reserved3C].map Reg.offset =
    [0x00, 0x04, 0x08, 0x0C, 0x10, 0x14, 0x18, 0x1C, 0x20, 0x24, 0x28, 0x2C, 0x30, 0x34, 0x38, 0x3C] ∧
  [Mode.idle, .enc, .dec, .error].map (fun m => m.code.toNat) = [0, 1, 2, 3] ∧
  [ErrCode.none, .illegalCommand, .sequence, .indexRange, .unsupportedCharacter, .countOverflow, .excessOctet,
    .truncatedPayload, .malformedSeptetStream, .unusedSlot].map (fun c => c.code.toNat) =
    [0, 1, 2, 3, 4, 5, 6, 7, 8, 9] ∧
  [CharClass.default, .extension, .unmapped].map (fun c => c.code.toNat) = [0, 1, 2] ∧
  ∀ s : State,
    (readReg .status s).toNat =
      s.mode.code.toNat + 2 ^ 2 * s.escPending.toNat + 2 ^ 3 * s.raw.toNat + 2 ^ 4 * s.errCode.code.toNat +
        2 ^ 8 * s.nbits.toNat ∧
    readReg .errCmd s = s.errCmd ∧
    (readReg .lresIdx s).toNat = s.lresIdx.index.toNat + 2 ^ 8 * s.lresIdx.cls.code.toNat ∧
    (readReg .lresChr s).toNat =
      s.lresChr.cp.toNat + 2 ^ 24 * s.lresChr.valid.toNat + 2 ^ 25 * s.lresChr.escMark.toNat ∧
    (readReg .outOct s).toNat = s.outOct.oct0.toNat + 2 ^ 8 * s.outOct.oct1.toNat + 2 ^ 16 * s.outOct.octN.toNat ∧
    (readReg .outSept s).toNat =
      s.outSept.sept0.toNat + 2 ^ 8 * s.outSept.sept1.toNat + 2 ^ 16 * s.outSept.septN.toNat ∧
    (readReg .outChr0 s).toNat = s.outChr0.cp.toNat + 2 ^ 24 * s.outChr0.valid.toNat ∧
    (readReg .outChr1 s).toNat = s.outChr1.cp.toNat + 2 ^ 24 * s.outChr1.valid.toNat ∧
    (readReg .scount s).toNat = s.scount.toNat ∧ (readReg .remain s).toNat = s.remain.toNat ∧
    (readReg .ocount s).toNat = s.ocount.toNat ∧ (readReg .acc s).toNat = s.acc.toNat ∧
    readReg .cmd s = 0 ∧ readReg .reserved34 s = 0 ∧ readReg .reserved38 s = 0 ∧ readReg .reserved3C s = 0

/-- When every access the host has issued is one R44 defines, a step always gives a next state, and the rest of the
accesses are still of that kind (R44, R50). -/
def Obligations.ConformingHostIsNeverRefused : Prop :=
  ∀ s : State, s.hostConforms = true → ∃ t, step s = .next t ∧ t.hostConforms = true

/-! ### Reset, CLEAR and NOP (R39, R98, R99, R120) -/

/-- R120 and R39: from every state, reset leaves every register 0, MODE IDLE and no fault, the ROMs unchanged, and
exactly the state `CLEAR` leaves; the model's reset state has every register 0 too. -/
def Obligations.ResetLeavesEveryRegisterZero : Prop :=
  (∀ (s : State) (rest : List BusEvent), s.pending = .reset :: rest →
    ∃ t, step s = .next t ∧ (∀ r : Reg, readReg r t = 0) ∧ t.mode = .idle ∧ t.escPending = false ∧ t.raw = false ∧
      t.errCode = .none ∧ t.nbits = 0 ∧ t.rom = s.rom ∧ t.pending = rest ∧ t.responses = s.responses ∧
      exec .clear { s with pending := rest } = .next t) ∧
  (∀ r : Reg, readReg r State.reset = 0) ∧ State.reset.mode = .idle

/-- R99: the word of `CLEAR` is exactly 0x01000000; in every mode it makes every register 0 and keeps the ROMs (and
touches nothing outside the SPU); another word with its opcode raises ILLEGAL_COMMAND, and in ERROR mode every other
word is ignored. -/
def Obligations.ClearMakesEveryRegisterZero : Prop :=
  decode 0x01000000 = some .clear ∧
  (∀ (s : State) (w : Word) (rest : List BusEvent), s.pending = commandWord w :: rest → s.mode ≠ .error →
    (w >>> 24).toNat = 0x01 → w ≠ 0x01000000 →
    step s = .next { s with pending := rest, mode := .error, errCode := .illegalCommand, errCmd := w }) ∧
  (∀ s : State, ∃ t, exec .clear s = .next t ∧ (∀ r : Reg, readReg r t = 0) ∧
    t = { State.reset with rom := s.rom, pending := s.pending, responses := s.responses }) ∧
  (∀ (s : State) (w : Word) (rest : List BusEvent), s.pending = commandWord w :: rest → s.mode = .error →
    w ≠ 0x01000000 → step s = .next { s with pending := rest })

/-- R98: the word of `NOP` is exactly 0x00000000, and in every mode it changes no state; another word with its opcode
raises ILLEGAL_COMMAND outside ERROR mode. -/
def Obligations.NopChangesNothing : Prop :=
  decode 0x00000000 = some .nop ∧
  (∀ (s : State) (w : Word) (rest : List BusEvent), s.pending = commandWord w :: rest → s.mode ≠ .error →
    (w >>> 24).toNat = 0 → w ≠ 0 →
    step s = .next { s with pending := rest, mode := .error, errCode := .illegalCommand, errCmd := w }) ∧
  (∀ s : State, exec .nop s = .next s)

/-! ### Lookups (R69 to R74, R112) -/

/-- `C2I` outside ERROR mode writes LRES_IDX and nothing else: the least matching index of the default ROM with CLASS
DEFAULT, else the least matching index of the extension ROM with CLASS EXTENSION, else index 0 with CLASS UNMAPPED;
only valid entries match (R70, R72). -/
def Obligations.C2iWritesTheLookupResult : Prop :=
  ∀ (s : State) (cp : CodePoint), s.mode ≠ .error →
    (∀ i : Septet, (s.rom.defAt i).valid = true → (s.rom.defAt i).cp = cp →
      (∀ j : Septet, j.toNat < i.toNat → ¬((s.rom.defAt j).valid = true ∧ (s.rom.defAt j).cp = cp)) →
      exec (.c2i cp) s = .next { s with lresIdx := ⟨i, .default⟩ }) ∧
    ((∀ j : Septet, ¬((s.rom.defAt j).valid = true ∧ (s.rom.defAt j).cp = cp)) →
      (∀ i : Septet, (s.rom.extAt i).valid = true → (s.rom.extAt i).cp = cp →
        (∀ j : Septet, j.toNat < i.toNat → ¬((s.rom.extAt j).valid = true ∧ (s.rom.extAt j).cp = cp)) →
        exec (.c2i cp) s = .next { s with lresIdx := ⟨i, .extension⟩ }) ∧
      ((∀ j : Septet, ¬((s.rom.extAt j).valid = true ∧ (s.rom.extAt j).cp = cp)) →
        exec (.c2i cp) s = .next { s with lresIdx := ⟨0, .unmapped⟩ }))

/-- `I2C` of an index below 128 outside ERROR mode writes LRES_CHR and nothing else: ESCMARK for default index 27,
else the entry's character with VALID, else 0 (R71, R74). -/
def Obligations.I2cWritesTheEntry : Prop :=
  ∀ (s : State) (idx : BitVec 8), s.mode ≠ .error → idx.toNat < 128 →
    (idx = 27 → exec (.i2c .dflt idx) s = .next { s with lresChr := ⟨0, false, true⟩ }) ∧
    (idx ≠ 27 → exec (.i2c .dflt idx) s = .next { s with lresChr :=
      if (s.rom.defAt (idx.setWidth 7)).valid then ⟨(s.rom.defAt (idx.setWidth 7)).cp, true, false⟩
      else ⟨0, false, false⟩ }) ∧
    exec (.i2c .ext idx) s = .next { s with lresChr :=
      if (s.rom.extAt (idx.setWidth 7)).valid then ⟨(s.rom.extAt (idx.setWidth 7)).cp, true, false⟩
      else ⟨0, false, false⟩ }

/-- `I2C` of an index of 128 or more outside ERROR mode raises INDEX_RANGE and changes nothing else (R74, R110). -/
def Obligations.I2cIndexRangeFaults : Prop :=
  ∀ (s : State) (t : TableSel) (idx : BitVec 8), s.mode ≠ .error → 128 ≤ idx.toNat →
    exec (.i2c t idx) s =
      .next { s with mode := .error, errCode := .indexRange, errCmd := encode (.i2c t idx) }

/-- R112: no lookup result is a fault. `C2I` of a character in neither ROM answers CLASS UNMAPPED, `I2C` of an unused
slot answers VALID = 0, and neither leaves the mode it ran in; the encoder and the decoder do fault on them. -/
def Obligations.LookupResultsAreNoFaults : Prop :=
  (∀ (s : State) (cp : CodePoint), s.mode ≠ .error → (charIndex s.rom cp).1 = .unmapped →
    (∃ t, exec (.c2i cp) s = .next t ∧ t.mode = s.mode ∧ t.errCode = s.errCode ∧ t.lresIdx = ⟨0, .unmapped⟩) ∧
    (s.mode = .enc → ∃ t, exec (.encChar cp) s = .next t ∧ t.mode = .error)) ∧
  (∀ (s : State) (t : TableSel) (idx : BitVec 8), s.mode ≠ .error → idx.toNat < 128 →
    septetChar s.rom (escOf t) (idx.setWidth 7) = .unused →
    ∃ u, exec (.i2c t idx) s = .next u ∧ u.mode = s.mode ∧ u.errCode = s.errCode ∧ u.lresChr.valid = false) ∧
  (∀ (s : State) (oct : Octet), s.mode = .dec → s.raw = false → s.nbits.toNat ≤ 6 → 0 < s.remain.toNat →
    septetChar s.rom s.escPending (BitVec.ofNat 7 (s.acc.toNat ||| (oct.toNat <<< s.nbits.toNat))) = .unused →
    ∃ u, exec (.decOctet oct) s = .next u ∧ u.mode = .error)

/-- R73: the four round-trip laws of the two lookup functions, for all ROM contents that meet R69. -/
def Obligations.LookupsRoundTrip : Prop :=
  ∀ (t : CharTables) (cp : CodePoint) (i : Septet), t.wf = true →
    (charIndex t cp = (.default, i) → i ≠ 27 ∧ septetChar t false i = .char cp) ∧
    (charIndex t cp = (.extension, i) → septetChar t true i = .char cp) ∧
    (septetChar t false i = .char cp → charIndex t cp = (.default, i)) ∧
    (septetChar t true i = .char cp → charIndex t cp = (.extension, i))

/-- A machine is built with given ROM contents exactly when they meet conditions (a), (b) and (c) of R69 (R7), and the
contents of R67 and R68 do, with 137 distinct code points. That nothing more is asked, so that a nonzero `cp` beside
`valid` = 0, which R33 excludes, is accepted, is the model's choice, assumption log 11 (DESIGN CHOICE). -/
def Obligations.GivenTablesAreChecked : Prop :=
  (∀ t : CharTables, (State.withTables t).isSome = true ↔
    ((t.defAt 27).valid = false ∧
      (∀ i : Septet, ∀ e, e = t.defAt i ∨ e = t.extAt i → e.valid = true →
        e.cp.toNat ≤ 0x10FFFF ∧ ¬(0xD800 ≤ e.cp.toNat ∧ e.cp.toNat ≤ 0xDFFF)) ∧
      (∀ i j : Septet, i ≠ j → (t.defAt i).valid = true → (t.defAt j).valid = true →
        (t.defAt i).cp ≠ (t.defAt j).cp) ∧
      (∀ i j : Septet, i ≠ j → (t.extAt i).valid = true → (t.extAt j).valid = true →
        (t.extAt i).cp ≠ (t.extAt j).cp) ∧
      (∀ i j : Septet, (t.defAt i).valid = true → (t.extAt j).valid = true → (t.defAt i).cp ≠ (t.extAt j).cp))) ∧
  (State.withTables CharTables.standard).isSome = true ∧ CharTables.standard.validCps.length = 137

/-! ### The encode session (R75 to R87) -/

/-- `ENC_BEGIN` in every mode but ERROR opens an encode session: the registers R83 names are set, the lookup results,
the error registers and all else keep their values. -/
def Obligations.EncBeginOpensASession : Prop :=
  ∀ s : State, s.mode ≠ .error → exec .encBegin s = .next { s with
    mode := .enc, raw := false, escPending := false, nbits := 0, acc := 0, scount := 0, ocount := 0, remain := 0,
    outOct := ⟨0, 0, 0⟩, outSept := ⟨0, 0, 0⟩, outChr0 := ⟨0, false⟩, outChr1 := ⟨0, false⟩ }

/-- `ENC_SEPTET` of a value below 128 in ENC mode, with room for it, pushes that septet (R79, R85): with the
accumulator empty the septet becomes its 7 bits and nothing is emitted; otherwise exactly one octet is, the low 8 bits.
Nothing but ACC, NBITS, SCOUNT, OCOUNT and OUT_OCT changes. -/
def Obligations.EncSeptetPushesOneSeptet : Prop :=
  ∀ (s : State) (x : BitVec 8), s.mode = .enc → x.toNat < 128 → s.scount.toNat < 65535 →
    let a := s.acc.toNat ||| (x.toNat <<< s.nbits.toNat)
    (s.nbits = 0 → exec (.encSeptet x) s = .next { s with
      acc := BitVec.ofNat 15 a, nbits := 7, scount := s.scount + 1, outOct := ⟨0, 0, 0⟩ }) ∧
    (s.nbits ≠ 0 → exec (.encSeptet x) s = .next { s with
      acc := BitVec.ofNat 15 (a >>> 8), nbits := s.nbits - 1, scount := s.scount + 1, ocount := s.ocount + 1,
      outOct := ⟨BitVec.ofNat 8 a, 0, 1⟩ })

/-- `ENC_CHAR` in ENC mode, with room for its septets, pushes the septet of a default character, or ESC and then the
index of an extension character, and changes only ACC, NBITS, SCOUNT, OCOUNT and OUT_OCT (R82, R84). -/
def Obligations.EncCharPushesItsSeptets : Prop :=
  ∀ (s : State) (cp : CodePoint) (i : Septet), s.mode = .enc →
    (charIndex s.rom cp = (.default, i) → s.scount.toNat + 1 ≤ 65535 →
      let p := push s.acc.toNat s.nbits.toNat i
      exec (.encChar cp) s = .next { s with
        acc := BitVec.ofNat 15 p.acc, nbits := BitVec.ofNat 4 p.nb, scount := s.scount + 1,
        ocount := s.ocount + BitVec.ofNat 16 p.outs.length,
        outOct := ⟨p.outs.getD 0 0, 0, BitVec.ofNat 2 p.outs.length⟩ }) ∧
    (charIndex s.rom cp = (.extension, i) → s.scount.toNat + 2 ≤ 65535 →
      let p := push s.acc.toNat s.nbits.toNat 27
      let q := push p.acc p.nb i
      exec (.encChar cp) s = .next { s with
        acc := BitVec.ofNat 15 q.acc, nbits := BitVec.ofNat 4 q.nb, scount := s.scount + 2,
        ocount := s.ocount + BitVec.ofNat 16 (p.outs ++ q.outs).length,
        outOct := ⟨(p.outs ++ q.outs).getD 0 0, (p.outs ++ q.outs).getD 1 0,
          BitVec.ofNat 2 (p.outs ++ q.outs).length⟩ })

/-- How many octets one command emits (R81, R84): a single push at most one, exactly when NBITS is not 0 before; an
`ENC_CHAR` of an extension character 2 when NBITS is at least 2 before, and 1 when it is 0 or 1. -/
def Obligations.EncCharEmitsAtMostTwoOctets : Prop :=
  ∀ (s t : State) (cp : CodePoint) (i : Septet), s.mode = .enc → s.nbits.toNat ≤ 7 →
    exec (.encChar cp) s = .next t → t.mode = .enc →
    (charIndex s.rom cp = (.default, i) → t.outOct.octN.toNat = if s.nbits = 0 then 0 else 1) ∧
    (charIndex s.rom cp = (.extension, i) → t.outOct.octN.toNat = if s.nbits.toNat < 2 then 1 else 2)

/-- The faults of the pushing commands, first check first, and nothing else changes (R84, R85, R110, R113): an
unmapped character, then a session that would pass 65535 septets; a septet operand of 128 or more, then the count. -/
def Obligations.PushingCommandsFault : Prop :=
  ∀ s : State, s.mode = .enc →
    (∀ cp : CodePoint, (charIndex s.rom cp).1 = .unmapped → exec (.encChar cp) s =
      .next { s with mode := .error, errCode := .unsupportedCharacter, errCmd := encode (.encChar cp) }) ∧
    (∀ cp : CodePoint, (charIndex s.rom cp).1 = .default → s.scount.toNat = 65535 → exec (.encChar cp) s =
      .next { s with mode := .error, errCode := .countOverflow, errCmd := encode (.encChar cp) }) ∧
    (∀ cp : CodePoint, (charIndex s.rom cp).1 = .extension → 65534 ≤ s.scount.toNat → exec (.encChar cp) s =
      .next { s with mode := .error, errCode := .countOverflow, errCmd := encode (.encChar cp) }) ∧
    (∀ x : BitVec 8, 128 ≤ x.toNat → exec (.encSeptet x) s =
      .next { s with mode := .error, errCode := .indexRange, errCmd := encode (.encSeptet x) }) ∧
    (∀ x : BitVec 8, x.toNat < 128 → s.scount.toNat = 65535 → exec (.encSeptet x) s =
      .next { s with mode := .error, errCode := .countOverflow, errCmd := encode (.encSeptet x) })

/-- `ENC_END` in ENC mode flushes the partial octet, if NBITS is not 0, and closes the session; SCOUNT keeps the
session's total and all else but OCOUNT, OUT_OCT, ACC, NBITS and MODE is unchanged (R79, R86). -/
def Obligations.EncEndFlushesAndCloses : Prop :=
  ∀ s : State, s.mode = .enc →
    (s.nbits = 0 → exec .encEnd s = .next { s with
      outOct := ⟨0, 0, 0⟩, acc := 0, nbits := 0, mode := .idle }) ∧
    (s.nbits ≠ 0 → exec .encEnd s = .next { s with
      ocount := s.ocount + 1, outOct := ⟨s.acc.setWidth 8, 0, 1⟩, acc := 0, nbits := 0, mode := .idle })

/-- R80: pushing the septets of any sequence from an empty accumulator and flushing at the end emits `pack` of the
sequence; after it NBITS is `7 j mod 8`, the octets emitted are `7 j div 8` and the accumulator holds the rest of the
stream. -/
def Obligations.StreamingPackerComputesPack : Prop :=
  ∀ ss : List Septet,
    let p := pushAll 0 0 ss
    p.outs ++ flush p.acc p.nb = pack ss ∧ p.nb = 7 * ss.length % 8 ∧ p.outs.length = 7 * ss.length / 8 ∧
      p.acc = septetStream ss >>> (8 * (7 * ss.length / 8))

/-- R76: packing by groups of 8 septets with the source's formulas is `pack`; a full group gives 7 octets and a group
of `k` < 8 septets gives `k`. -/
def Obligations.GroupPackingIsPack : Prop :=
  (∀ ss : List Septet, packGroups ss = pack ss) ∧
  (∀ g : List Septet, g.length = 8 → (packGroup g).length = 7) ∧
  (∀ g : List Septet, 1 ≤ g.length → g.length < 8 → (packGroup g).length = g.length)

/-- R78: two septet counts give one octet count exactly when they are `8q - 1` and `8q`, and a packed payload of
`8q - 1` septets is that of the same septets and a zero septet. -/
def Obligations.PackingIsNotSelfDescribing : Prop :=
  (∀ n m : Nat, n ≠ m →
    (payloadLength n = payloadLength m ↔ ∃ q, 1 ≤ q ∧ ((n = 8 * q - 1 ∧ m = 8 * q) ∨ (n = 8 * q ∧ m = 8 * q - 1)))) ∧
  (∀ (ss : List Septet) (q : Nat), 1 ≤ q → ss.length = 8 * q - 1 → pack ss = pack (ss ++ [0]))

/-- R87: `ENC_BEGIN`, commands that push the septets `ss`, at most 65535 of them, then `ENC_END` run without a fault;
the octets of every OUT_OCT in command order are `pack ss`, and SCOUNT and OCOUNT hold the totals. -/
def Obligations.EncodeSessionComputesPack : Prop :=
  ∀ (s : State) (cs : List Instr) (ss : List Septet), s.mode ≠ .error → pushedSeptets s.rom cs = some ss →
    ss.length ≤ 65535 →
    ∃ t, runSession emittedOctets (.encBegin :: (cs ++ [.encEnd])) s = some (t, pack ss) ∧
      t.mode = .idle ∧ t.scount.toNat = ss.length ∧ t.ocount.toNat = payloadLength ss.length

/-! ### The decode session (R88 to R97) -/

/-- `DEC_BEGIN` in every mode but ERROR opens a decode session for N septets, raw or not: the registers R93 names are
set, the lookup results, the error registers and all else keep their values. -/
def Obligations.DecBeginOpensASession : Prop :=
  ∀ (s : State) (raw : Bool) (n : Count), s.mode ≠ .error → exec (.decBegin raw n) s = .next { s with
    mode := .dec, raw := raw, escPending := false, nbits := 0, acc := 0, scount := 0, ocount := 0, remain := n,
    outOct := ⟨0, 0, 0⟩, outSept := ⟨0, 0, 0⟩, outChr0 := ⟨0, false⟩, outChr1 := ⟨0, false⟩ }

/-- `DEC_OCTET` in a raw session with septets still owed: one septet, or two when NBITS is 6 and two are owed; once
the count is reached the rest of the octet is discarded (R90, R94). Nothing is decoded and nothing but the registers
named changes. -/
def Obligations.DecOctetUnpacksRaw : Prop :=
  ∀ (s : State) (oct : Octet), s.mode = .dec → s.raw = true → s.nbits.toNat ≤ 6 → 0 < s.remain.toNat →
    let a := s.acc.toNat ||| (oct.toNat <<< s.nbits.toNat)
    ((s.nbits.toNat < 6 ∨ s.remain.toNat = 1) → exec (.decOctet oct) s = .next { s with
      acc := if s.remain = 1 then 0 else BitVec.ofNat 15 (a >>> 7),
      nbits := if s.remain = 1 then 0 else s.nbits + 1,
      remain := s.remain - 1, scount := s.scount + 1, ocount := s.ocount + 1,
      outSept := ⟨BitVec.ofNat 7 a, 0, 1⟩, outChr0 := ⟨0, false⟩, outChr1 := ⟨0, false⟩ }) ∧
    ((s.nbits.toNat = 6 ∧ 2 ≤ s.remain.toNat) → exec (.decOctet oct) s = .next { s with
      acc := if s.remain = 2 then 0 else BitVec.ofNat 15 (a >>> 14), nbits := 0,
      remain := s.remain - 2, scount := s.scount + 2, ocount := s.ocount + 1,
      outSept := ⟨BitVec.ofNat 7 a, BitVec.ofNat 7 (a >>> 7), 2⟩, outChr0 := ⟨0, false⟩, outChr1 := ⟨0, false⟩ })

/-- `DEC_OCTET` that completes one septet in a decoding session (R90, R92, R94): septet 27 with no escape pending sets
ESC_PENDING; a character, of the extension ROM when an escape is pending, goes to OUT_CHR0 and clears it; an unused
slot raises UNUSED_SLOT and changes nothing else. -/
def Obligations.DecOctetDecodesOneSeptet : Prop :=
  ∀ (s : State) (oct : Octet), s.mode = .dec → s.raw = false → s.nbits.toNat ≤ 6 → 0 < s.remain.toNat →
    (s.nbits.toNat < 6 ∨ s.remain.toNat = 1) →
    let a := s.acc.toNat ||| (oct.toNat <<< s.nbits.toNat)
    let next := fun (esc : Bool) (c : OutChr) => ({ s with
      acc := if s.remain = 1 then 0 else BitVec.ofNat 15 (a >>> 7),
      nbits := if s.remain = 1 then 0 else s.nbits + 1, escPending := esc,
      remain := s.remain - 1, scount := s.scount + 1, ocount := s.ocount + 1,
      outSept := ⟨BitVec.ofNat 7 a, 0, 1⟩, outChr0 := c, outChr1 := ⟨0, false⟩ } : State)
    (septetChar s.rom s.escPending (BitVec.ofNat 7 a) = .escapeSignal →
      exec (.decOctet oct) s = .next (next true ⟨0, false⟩)) ∧
    (∀ cp, septetChar s.rom s.escPending (BitVec.ofNat 7 a) = .char cp →
      exec (.decOctet oct) s = .next (next false ⟨cp, true⟩)) ∧
    (septetChar s.rom s.escPending (BitVec.ofNat 7 a) = .unused → exec (.decOctet oct) s =
      .next { s with mode := .error, errCode := .unusedSlot, errCmd := encode (.decOctet oct) })

/-- `DEC_OCTET` that completes two septets in a decoding session (NBITS is 6 and two are owed): they are decoded in
order, the second with the escape the first leaves; if either is an unused slot the command raises UNUSED_SLOT and
changes nothing else (R90, R92, R94). -/
def Obligations.DecOctetDecodesTwoSeptets : Prop :=
  ∀ (s : State) (oct : Octet), s.mode = .dec → s.raw = false → s.nbits.toNat = 6 → 2 ≤ s.remain.toNat →
    let a := s.acc.toNat ||| (oct.toNat <<< 6)
    let x : Septet := BitVec.ofNat 7 a
    let y : Septet := BitVec.ofNat 7 (a >>> 7)
    let fault := ({ s with mode := .error, errCode := .unusedSlot, errCmd := encode (.decOctet oct) } : State)
    (decodeStep s.rom s.escPending x = none → exec (.decOctet oct) s = .next fault) ∧
    (∀ d, decodeStep s.rom s.escPending x = some d →
      (decodeStep s.rom d.esc y = none → exec (.decOctet oct) s = .next fault) ∧
      (∀ e, decodeStep s.rom d.esc y = some e → exec (.decOctet oct) s = .next { s with
        acc := if s.remain = 2 then 0 else BitVec.ofNat 15 (a >>> 14), nbits := 0, escPending := e.esc,
        remain := s.remain - 2, scount := s.scount + 2, ocount := s.ocount + 1, outSept := ⟨x, y, 2⟩,
        outChr0 := OutChr.ofOption (d.chars ++ e.chars)[0]?,
        outChr1 := OutChr.ofOption (d.chars ++ e.chars)[1]? }))

/-- R95: an octet past the payload's `ceil(7N/8)`, that is one given when REMAIN is 0, raises EXCESS_OCTET and changes
nothing else. -/
def Obligations.ExtraOctetFaults : Prop :=
  ∀ (s : State) (oct : Octet), s.mode = .dec → s.remain = 0 → exec (.decOctet oct) s =
    .next { s with mode := .error, errCode := .excessOctet, errCmd := encode (.decOctet oct) }

/-- `DEC_END` in DEC mode (R96, R113): septets still owed raise TRUNCATED_PAYLOAD, whether or not an escape is pending;
else a pending escape raises MALFORMED_SEPTET_STREAM; else the session closes, and only MODE and RAW change. -/
def Obligations.DecEndChecksAndCloses : Prop :=
  ∀ s : State, s.mode = .dec →
    (0 < s.remain.toNat → exec .decEnd s =
      .next { s with mode := .error, errCode := .truncatedPayload, errCmd := 0x32000000 }) ∧
    (s.remain.toNat = 0 → s.escPending = true → exec .decEnd s =
      .next { s with mode := .error, errCode := .malformedSeptetStream, errCmd := 0x32000000 }) ∧
    (s.remain.toNat = 0 → s.escPending = false → exec .decEnd s = .next { s with mode := .idle, raw := false })

/-- R91: pulling the octets of a payload of `ceil(7N/8)` octets, from an empty accumulator and with N septets owed,
extracts `unpack` of the payload, and the count is reached at the last octet and not before. -/
def Obligations.StreamingUnpackerComputesUnpack : Prop :=
  ∀ (os : List Octet) (n : Nat), os.length = payloadLength n →
    (pullAll 0 0 n os).seps = unpack os n ∧
    (∀ k, k < os.length → (pullAll 0 0 n (os.take k)).seps.length < n)

/-- R88: unpacking a packed sequence with its length gives the sequence back, and pad bits are ignored: the septets
depend only on the low `7N` stream bits. -/
def Obligations.UnpackInvertsPack : Prop :=
  (∀ ss : List Septet, unpack (pack ss) ss.length = ss) ∧
  (∀ (os os' : List Octet) (n : Nat), octetStream os % 2 ^ (7 * n) = octetStream os' % 2 ^ (7 * n) →
    unpack os n = unpack os' n)

/-- R89: unpacking by groups of 7 octets with the source's formulas is `unpack`. -/
def Obligations.GroupUnpackingIsUnpack : Prop :=
  ∀ (os : List Octet) (n : Nat), os.length = payloadLength n → unpackGroups os n = unpack os n

/-- R97, its first two clauses: the septets a whole decode session extracts are `unpack` of its payload, and a raw
session runs without a fault whatever the payload. A session that is not raw runs without a fault exactly when the
septet decoder takes those septets and ends with no escape pending, and decodes the characters the decoder gives. -/
def Obligations.DecodeSessionComputesUnpack : Prop :=
  ∀ (s : State) (raw : Bool) (n : Count) (os : List Octet), s.mode ≠ .error → os.length = payloadLength n.toNat →
    let session := runSession extractedSeptets (.decBegin raw n :: (os.map .decOctet ++ [.decEnd])) s
    (∀ t seps, session = some (t, seps) → seps = unpack os n.toNat ∧ t.mode = .idle ∧ t.scount = n) ∧
    (raw = true → session.isSome = true) ∧
    (raw = false → ∀ text : List CodePoint,
      (∃ t, runSession decodedChars (.decBegin raw n :: (os.map .decOctet ++ [.decEnd])) s = some (t, text)) ↔
        decodeSeptets s.rom false (unpack os n.toNat) = some ⟨false, text⟩)

/-- R97, its last clause: a decode session of the packed septets of a text, with their count, runs without a fault and
decodes the text. -/
def Obligations.DecodeSessionRecoversTheText : Prop :=
  ∀ (s : State) (text : List CodePoint) (ss : List Septet), s.mode ≠ .error → s.rom.wf = true →
    textSeptets s.rom text = some ss → ss.length ≤ 65535 →
    ∃ t, runSession decodedChars
        (.decBegin false (BitVec.ofNat 16 ss.length) :: ((pack ss).map .decOctet ++ [.decEnd])) s = some (t, text) ∧
      t.mode = .idle

/-! ### Faults (R110 to R116) -/

/-- R110 with R111: a command that enters ERROR mode writes MODE, one of the nine codes and its own word, and keeps
every other register. -/
def Obligations.FaultsArePrecise : Prop :=
  ∀ (i : Instr) (s t : State), s.mode ≠ .error → exec i s = .next t → t.mode = .error →
    ∃ c : ErrCode, c ≠ .none ∧ t = { s with mode := .error, errCode := c, errCmd := encode i }

/-- A session command outside its session raises SEQUENCE before any check on its operand, and changes nothing else
(R111, R113). -/
def Obligations.SessionCommandsOutsideTheirSessionFault : Prop :=
  ∀ (s : State) (i : Instr), s.mode ≠ .error →
    ((s.mode ≠ .enc ∧ ((∃ cp, i = .encChar cp) ∨ (∃ x, i = .encSeptet x) ∨ i = .encEnd)) ∨
      (s.mode ≠ .dec ∧ ((∃ o, i = .decOctet o) ∨ i = .decEnd))) →
    exec i s = .next { s with mode := .error, errCode := .sequence, errCmd := encode i }

/-- R115: in ERROR mode a write to CMD of any word but exactly 0x01000000 changes no state and raises nothing, and
host reads work as in any mode. -/
def Obligations.ErrorModeIgnoresEveryWordButClear : Prop :=
  ∀ (s : State) (rest : List BusEvent), s.mode = .error →
    (∀ w : Word, w ≠ 0x01000000 → s.pending = commandWord w :: rest → step s = .next { s with pending := rest }) ∧
    (∀ r : Reg, s.pending = hostRead r :: rest →
      step s = .next { s with pending := rest, responses := s.responses ++ [readReg r s] })

/-- R116: a step that leaves ERROR mode takes a write of `CLEAR` or a reset, and every register is 0 after it; a step
that stays in ERROR mode keeps the recorded fault, so a fault cannot nest; and every step keeps it that MODE is ERROR
exactly when ERRCODE is not 0. -/
def Obligations.OnlyClearOrResetLeavesError : Prop :=
  (∀ s t : State, s.mode = .error → step s = .next t → t.mode ≠ .error →
    (∃ rest, s.pending = .reset :: rest ∨ s.pending = commandWord 0x01000000 :: rest) ∧
      ∀ r : Reg, readReg r t = 0) ∧
  (∀ s t : State, s.mode = .error → step s = .next t → t.mode = .error →
    t.errCode = s.errCode ∧ t.errCmd = s.errCmd) ∧
  (∀ s t : State, s.FaultRecordInv → step s = .next t → t.FaultRecordInv)

/-- The end of a session (R128, R86): a write that ends it well leaves IDLE with SCOUNT kept, an encode session with
OCOUNT = ceil(7 SCOUNT / 8); one that ends it badly, be its word a command or an illegal one, records the fault and
changes nothing else, and the SPU then ignores every word but `CLEAR`. -/
def Obligations.SessionsEndWellOrBadly : Prop :=
  ∀ (s t : State) (w : Word) (rest : List BusEvent), s.pending = commandWord w :: rest → step s = .next t →
    (EndsWell w s t → t.mode = .idle ∧ t.scount = s.scount ∧
      (s.EncInv → s.mode = .enc → t.ocount.toNat = payloadLength t.scount.toNat)) ∧
    (EndsBadly s t →
      (∃ c : ErrCode, c ≠ .none ∧ t = { s with pending := rest, mode := .error, errCode := c, errCmd := w }) ∧
      ∀ (w' : Word) (rest' : List BusEvent), w' ≠ 0x01000000 →
        step { t with pending := commandWord w' :: rest' } = .next { t with pending := rest' })

/-- The model's record of a session follows the machine: whatever access is taken, the record is of an open encode
session exactly in ENC, and of an open decode session, raw as RAW says, exactly in DEC; with no session recorded it
agrees with reset. What the record takes from R128 and R125 is the model's reading, assumption log 10 (DEDUCED: a BEGIN
starts a new record in place of an open one, `CLEAR` or reset drops the record of an open session). -/
def Obligations.SessionRecordFollowsTheMode : Prop :=
  (∀ (s t : State) (e : BusEvent) (x : Option Session), SessionAgrees x s → issue e s = some t →
    SessionAgrees (recordEvent e s t x) t) ∧
  SessionAgrees none State.reset

/-- For a host that reads OUT_OCT after each command, the one after `ENC_END` included: an encode session ends well, and
its output is the packed septets with their count (R87, R128). That a read after `ENC_END` belongs to the session,
that SCOUNT is taken at `ENC_END` and that a BEGIN starts a new record are the model's reading of R128, assumption
log 10 (DEDUCED). -/
def Obligations.ObservedEncodeSessionGivesPack : Prop :=
  ∀ (s : State) (x : Option Session) (cs : List Instr) (ss : List Septet), s.mode ≠ .error →
    pushedSeptets s.rom cs = some ss → ss.length ≤ 65535 →
    ∃ t y, issueRecorded (command .encBegin ::
        (cs.flatMap (fun i => [command i, hostRead .outOct]) ++ [command .encEnd, hostRead .outOct])) s x
          = some (t, some y) ∧
      y.output = some (.encode (pack ss) (BitVec.ofNat 16 ss.length))

/-- For a host that reads the outputs after each octet: a raw session ends well and its output is `unpack` of the
payload; a session of the packed septets of a text ends well and its output is the text (R97, R128). That a BEGIN
starts a new record is the model's reading of R125 and R128, assumption log 10 (DEDUCED). -/
def Obligations.ObservedDecodeSessionGivesItsOutput : Prop :=
  (∀ (s : State) (x : Option Session) (n : Count) (os : List Octet), s.mode ≠ .error →
    os.length = payloadLength n.toNat →
    ∃ t y, issueRecorded (command (.decBegin true n) ::
        (os.flatMap (fun o => [command (.decOctet o), hostRead .outSept]) ++ [command .decEnd])) s x
          = some (t, some y) ∧
      y.output = some (.rawDecode (unpack os n.toNat))) ∧
  (∀ (s : State) (x : Option Session) (text : List CodePoint) (ss : List Septet), s.mode ≠ .error →
    s.rom.wf = true → textSeptets s.rom text = some ss → ss.length ≤ 65535 →
    ∃ t y, issueRecorded (command (.decBegin false (BitVec.ofNat 16 ss.length)) ::
        ((pack ss).flatMap (fun o => [command (.decOctet o), hostRead .outChr0, hostRead .outChr1]) ++
          [command .decEnd])) s x
          = some (t, some y) ∧
      y.output = some (.decode text))

/-! ### What every step keeps (R17, R37, R38, R123, R124) -/

/-- The invariant of the machine is kept by every step from every state that meets it. -/
def Obligations.StepKeepsTheMachineInvariant : Prop := ∀ s t : State, s.Inv → step s = .next t → t.Inv

/-- The reset state meets the invariant of the machine. -/
def Obligations.ResetMeetsTheMachineInvariant : Prop := State.reset.Inv

/-- R37: the invariants of ENC mode are kept by every step, whatever mode it starts in. -/
def Obligations.StepKeepsTheEncodeInvariant : Prop := ∀ s t : State, s.EncInv → step s = .next t → t.EncInv

/-- R38: the invariants of DEC mode are kept by every step, whatever mode it starts in; `DEC_BEGIN` makes
SCOUNT + REMAIN its operand N, and no other command changes the sum while the session stays open. -/
def Obligations.StepKeepsTheDecodeInvariant : Prop :=
  (∀ s t : State, s.DecInv → step s = .next t → t.DecInv) ∧
  (∀ (s t : State) (raw : Bool) (n : Count), s.mode ≠ .error → exec (.decBegin raw n) s = .next t →
    t.mode = .dec ∧ t.scount.toNat + t.remain.toNat = n.toNat) ∧
  (∀ (s t : State) (i : Instr), s.DecInv → s.mode = .dec → (∀ raw n, i ≠ .decBegin raw n) → exec i s = .next t →
    t.mode = .dec → t.scount.toNat + t.remain.toNat = s.scount.toNat + s.remain.toNat)

/-- R17: no command and no host write changes the ROMs, and neither does reset. -/
def Obligations.StepKeepsTheRoms : Prop := ∀ s t : State, step s = .next t → t.rom = s.rom

/-- R124: a lookup writes its own result register and no session state; every other command but `CLEAR` leaves both
lookup results alone. -/
def Obligations.LookupsAndSessionsDoNotMix : Prop :=
  (∀ (s t : State) (cp : CodePoint), exec (.c2i cp) s = .next t → t = { s with lresIdx := t.lresIdx }) ∧
  (∀ (s t : State) (sel : TableSel) (idx : BitVec 8), exec (.i2c sel idx) s = .next t →
    t = { s with lresChr := t.lresChr, mode := t.mode, errCode := t.errCode, errCmd := t.errCmd } ∧
      (idx.toNat < 128 → t = { s with lresChr := t.lresChr })) ∧
  (∀ (s t : State) (i : Instr), i ≠ .clear → exec i s = .next t →
    ((∀ cp, i ≠ .c2i cp) → t.lresIdx = s.lresIdx) ∧ ((∀ sel idx, i ≠ .i2c sel idx) → t.lresChr = s.lresChr))

/-- The lifetime of the output registers (R123): OUT_OCT changes only by an encode command, a BEGIN or `CLEAR`,
OUT_SEPT and the OUT_CHR registers only by `DEC_OCTET`, a BEGIN or `CLEAR`. -/
def Obligations.OutputsLastUntilTheNextCommandOfTheirKind : Prop :=
  ∀ (s t : State) (i : Instr), exec i s = .next t →
    (i.opcode ∉ [Opcode.encChar, .encSeptet, .encEnd, .encBegin, .decBegin, .clear] → t.outOct = s.outOct) ∧
    (i.opcode ∉ [Opcode.decOctet, .encBegin, .decBegin, .clear] →
      t.outSept = s.outSept ∧ t.outChr0 = s.outChr0 ∧ t.outChr1 = s.outChr1)

/-! ### The host reference (R100 to R109) -/

/-- R106: `hex` writes two lowercase digits for each octet, most-significant nibble first, octet 0 leftmost; `unhex` is
its inverse and refuses a string of odd length or with a character outside 0-9a-f, uppercase letters among them; the
empty string is the empty payload. -/
def Obligations.HexAndUnhexAreInverse : Prop :=
  (∀ (o : Octet) (os : List Octet), ∃ a b, hex (o :: os) = a :: b :: hex os ∧
    ['0', '1', '2', '3', '4', '5', '6', '7', '8', '9', 'a', 'b', 'c', 'd', 'e', 'f'][o.toNat / 16]? = some a ∧
    ['0', '1', '2', '3', '4', '5', '6', '7', '8', '9', 'a', 'b', 'c', 'd', 'e', 'f'][o.toNat % 16]? = some b) ∧
  (∀ os : List Octet, unhex (hex os) = some os) ∧
  (∀ (h : List Char) (os : List Octet), unhex h = some os → hex os = h) ∧
  (∀ h : List Char, h.length % 2 = 1 → unhex h = none) ∧
  (∀ (h : List Char) (c : Char), c ∈ h →
    c ∉ ['0', '1', '2', '3', '4', '5', '6', '7', '8', '9', 'a', 'b', 'c', 'd', 'e', 'f'] → unhex h = none) ∧
  hex [] = [] ∧ unhex [] = some []

/-- The WIDE codec round-trips every text of Unicode code points (R104, R105, R109), and a payload of odd length is
refused as OddLengthWidePayload. -/
def Obligations.WideCodecRoundTrips : Prop :=
  (∀ text : List CodePoint, text.all isScalar = true →
    ∃ os, wideEncode text = some os ∧ wideDecode os = .ok text) ∧
  (∀ os : List Octet, os.length % 2 = 1 → wideDecode os = .error .oddLengthWidePayload)

/-- The end-to-end round trip of host and SPU in RESTRICTED mode (R102, R103, R109): a text whose characters are all in
the tables encodes to the hex of its packed septets with their count, and decodes back. -/
def Obligations.RestrictedTextRoundTrips : Prop :=
  ∀ (s : State) (text : List CodePoint) (ss : List Septet), s.mode ≠ .error → s.rom.wf = true →
    textSeptets s.rom text = some ss → ss.length ≤ 65535 →
    ∃ t u, textToPayload text s =
        some (.ok ⟨hex (pack ss), .restricted, some (BitVec.ofNat 16 ss.length)⟩, t) ∧
      payloadToText (hex (pack ss)) .restricted (some (BitVec.ofNat 16 ss.length)) t = some (.ok text, u)

/-- The mode fallback of host and SPU (R101, R109): a text with a character in neither table encodes in WIDE, all of
it, and decodes back; encoding the decoded text again gives the identical payload. -/
def Obligations.UnmappedTextFallsBackToWide : Prop :=
  ∀ (s : State) (text : List CodePoint), s.mode ≠ .error → textSeptets s.rom text = none →
    text.all isScalar = true →
    ∃ p t u, textToPayload text s = some (.ok p, t) ∧ p.mode = .wide ∧ p.count = none ∧
      payloadToText p.hex p.mode p.count t = some (.ok text, t) ∧ textToPayload text t = some (.ok p, u)

/-- The model's host, with the two calls of R102 and R103: a text of more than 65535 septets is reported as
COUNT_OVERFLOW and the SPU cleared; a RESTRICTED payload is answered with a text exactly when its decode session runs
without a fault and decodes that text, and else with the code of the first fault of the session; whatever the call, a
reported SPU fault leaves every register 0, and no call leaves the SPU in ERROR. R102 reads no STATUS, and R107 (e)
asks for the report and for `CLEAR` before the next call: that `text_to_payload` itself reads STATUS last, reports the
fault in place of a payload and issues `CLEAR` before it returns is the model's reading, assumption log 8
(DESIGN CHOICE). -/
def Obligations.HostReportsAndClearsFaults : Prop :=
  (∀ (s : State) (text : List CodePoint) (ss : List Septet), s.mode ≠ .error → textSeptets s.rom text = some ss →
    65535 < ss.length →
    ∃ t, textToPayload text s = some (.error (.spuFault (ErrCode.code .countOverflow)), t) ∧
      ∀ r : Reg, readReg r t = 0) ∧
  (∀ (s t : State) (text : List CodePoint) (p : Except HostError Payload), s.mode ≠ .error →
    textToPayload text s = some (p, t) →
    t.mode ≠ .error ∧ (∀ c, p = .error (.spuFault c) → ∀ r : Reg, readReg r t = 0)) ∧
  (∀ (s t : State) (h : List Char) (m : EncodingMode) (n : Option Count) (p : Except HostError (List CodePoint)),
    s.mode ≠ .error → payloadToText h m n s = some (p, t) →
    t.mode ≠ .error ∧ (∀ c, p = .error (.spuFault c) → ∀ r : Reg, readReg r t = 0)) ∧
  (∀ (s : State) (h : List Char) (os : List Octet) (n : Count), s.mode ≠ .error → unhex h = some os →
    let session := Instr.decBegin false n :: (os.map .decOctet ++ [.decEnd])
    (∀ text : List CodePoint,
      (∃ t, payloadToText h .restricted (some n) s = some (.ok text, t)) ↔
        ∃ u, runSession decodedChars session s = some (u, text)) ∧
    (∀ (done left : List Instr) (i : Instr) (u v : State) (cs : List CodePoint), session = done ++ i :: left →
      runSession decodedChars done s = some (u, cs) → exec i u = .next v → v.mode = .error →
      ∃ t, payloadToText h .restricted (some n) s = some (.error (.spuFault v.errCode.code), t)))
end

