-- ==== Sys2Proof/Laws/Stream.lean ====
section
/-! SUPPORT. Arithmetic of bit streams: what a stream's slices add up to, that streams determine their elements, and
what `pack` and `unpack` are as streams. -/

namespace Sys2Proof.Machine

@[simp] theorem bitStream_nil (w : Nat) : bitStream w [] = 0 := rfl

@[simp] theorem bitStream_cons (w x : Nat) (xs : List Nat) :
    bitStream w (x :: xs) = x + 2 ^ w * bitStream w xs := by
  simp [bitStream, Nat.shiftLeft_eq, Nat.mul_comm]

/-- A stream of elements that fit their width fits its own. -/
theorem bitStream_lt {w : Nat} {xs : List Nat} (h : ∀ x ∈ xs, x < 2 ^ w) : bitStream w xs < 2 ^ (w * xs.length) := by
  induction xs with
  | nil => simp
  | cons x xs ih =>
    have hx := h x (by simp)
    have ih := ih fun y hy => h y (by simp [hy])
    rw [bitStream_cons, List.length_cons, Nat.mul_succ, Nat.add_comm, Nat.pow_add, Nat.mul_comm (2 ^ (w * _))]
    calc 2 ^ w * bitStream w xs + x < 2 ^ w * bitStream w xs + 2 ^ w := by omega
      _ = 2 ^ w * (bitStream w xs + 1) := by ring
      _ ≤ 2 ^ w * 2 ^ (w * xs.length) := Nat.mul_le_mul_left _ ih

/-- The stream of a concatenation. -/
theorem bitStream_append (w : Nat) (xs ys : List Nat) :
    bitStream w (xs ++ ys) = bitStream w xs + 2 ^ (w * xs.length) * bitStream w ys := by
  induction xs with
  | nil => simp
  | cons x xs ih =>
    rw [List.cons_append, bitStream_cons, ih, bitStream_cons, List.length_cons, Nat.mul_succ, Nat.pow_add]
    ring

/-- A stream determines its elements. -/
theorem bitStream_inj {w : Nat} {xs ys : List Nat} (hx : ∀ x ∈ xs, x < 2 ^ w) (hy : ∀ y ∈ ys, y < 2 ^ w)
    (hl : xs.length = ys.length) (h : bitStream w xs = bitStream w ys) : xs = ys := by
  induction xs generalizing ys with
  | nil => exact (List.length_eq_zero_iff.mp hl.symm).symm
  | cons x xs ih =>
    cases ys with
    | nil => simp at hl
    | cons y ys =>
      rw [bitStream_cons, bitStream_cons] at h
      have h1 := hx x (by simp)
      have h2 := hy y (by simp)
      have hxy : x = y := by
        have := congrArg (· % 2 ^ w) h
        simpa [Nat.add_mul_mod_self_left, Nat.mod_eq_of_lt h1, Nat.mod_eq_of_lt h2] using this
      subst hxy
      have hs : bitStream w xs = bitStream w ys := Nat.eq_of_mul_eq_mul_left (Nat.two_pow_pos w) (by omega)
      rw [ih (fun z hz => hx z (by simp [hz])) (fun z hz => hy z (by simp [hz])) (by simpa using hl) hs]

/-- The slices of a number, as R75 and R88 cut them, are the stream of its low bits. -/
theorem bitStream_slices (w b n : Nat) :
    bitStream w ((List.range n).map fun m => (b >>> (w * m)) % 2 ^ w) = b % 2 ^ (w * n) := by
  induction n generalizing b with
  | zero => simp [Nat.mod_one]
  | succ n ih =>
    have shift : ∀ m, b >>> (w * (m + 1)) = (b >>> w) >>> (w * m) := by
      intro m
      rw [Nat.mul_succ, Nat.add_comm, Nat.shiftRight_add]
    have hr : ((List.range (n + 1)).map fun m => (b >>> (w * m)) % 2 ^ w)
        = b % 2 ^ w :: (List.range n).map fun m => ((b >>> w) >>> (w * m)) % 2 ^ w := by
      rw [List.range_succ_eq_map, List.map_cons, List.map_map]
      simp [Function.comp_def, shift]
    rw [hr, bitStream_cons, ih, Nat.shiftRight_eq_div_pow, Nat.mul_succ, Nat.add_comm (w * n), Nat.pow_add,
      Nat.mod_mul]

/-- `& 0xFF` keeps 8 bits (R9). -/
theorem and_255 (n : Nat) : n &&& 0xFF = n % 2 ^ 8 := Nat.and_two_pow_sub_one_eq_mod n 8

/-- `& 0x7F` keeps 7 bits (R9). -/
theorem and_127 (n : Nat) : n &&& 0x7F = n % 2 ^ 7 := Nat.and_two_pow_sub_one_eq_mod n 7

/-- Every septet of a list fits 7 bits. -/
theorem septet_map_lt (ss : List Septet) : ∀ x ∈ ss.map (·.toNat), x < 2 ^ 7 := by
  intro x hx
  obtain ⟨s, -, rfl⟩ := List.mem_map.mp hx
  exact s.isLt

/-- Every octet of a list fits 8 bits. -/
theorem octet_map_lt (os : List Octet) : ∀ x ∈ os.map (·.toNat), x < 2 ^ 8 := by
  intro x hx
  obtain ⟨o, -, rfl⟩ := List.mem_map.mp hx
  exact o.isLt

@[simp] theorem septetStream_nil : septetStream [] = 0 := rfl

@[simp] theorem octetStream_nil : octetStream [] = 0 := rfl

@[simp] theorem septetStream_cons (s : Septet) (ss : List Septet) :
    septetStream (s :: ss) = s.toNat + 2 ^ 7 * septetStream ss := bitStream_cons 7 _ _

@[simp] theorem octetStream_cons (o : Octet) (os : List Octet) :
    octetStream (o :: os) = o.toNat + 2 ^ 8 * octetStream os := bitStream_cons 8 _ _

theorem septetStream_append (ss us : List Septet) :
    septetStream (ss ++ us) = septetStream ss + 2 ^ (7 * ss.length) * septetStream us := by
  simpa [septetStream] using bitStream_append 7 (ss.map (·.toNat)) (us.map (·.toNat))

theorem octetStream_append (os us : List Octet) :
    octetStream (os ++ us) = octetStream os + 2 ^ (8 * os.length) * octetStream us := by
  simpa [octetStream] using bitStream_append 8 (os.map (·.toNat)) (us.map (·.toNat))

theorem septetStream_lt (ss : List Septet) : septetStream ss < 2 ^ (7 * ss.length) := by
  simpa [septetStream] using bitStream_lt (septet_map_lt ss)

theorem octetStream_lt (os : List Octet) : octetStream os < 2 ^ (8 * os.length) := by
  simpa [octetStream] using bitStream_lt (octet_map_lt os)

/-- Septet lists of one length with one stream are equal. -/
theorem septetStream_inj {ss us : List Septet} (hl : ss.length = us.length)
    (h : septetStream ss = septetStream us) : ss = us := by
  have := bitStream_inj (septet_map_lt ss) (septet_map_lt us) (by simpa using hl) h
  exact List.map_injective_iff.mpr (fun a b hab => BitVec.eq_of_toNat_eq hab) this

/-- Octet lists of one length with one stream are equal. -/
theorem octetStream_inj {os us : List Octet} (hl : os.length = us.length)
    (h : octetStream os = octetStream us) : os = us := by
  have := bitStream_inj (octet_map_lt os) (octet_map_lt us) (by simpa using hl) h
  exact List.map_injective_iff.mpr (fun a b hab => BitVec.eq_of_toNat_eq hab) this

@[simp] theorem pack_length (ss : List Septet) : (pack ss).length = payloadLength ss.length := by simp [pack]

@[simp] theorem unpack_length (os : List Octet) (n : Nat) : (unpack os n).length = n := by simp [unpack]

/-- `pack` keeps the stream. -/
theorem octetStream_pack (ss : List Septet) : octetStream (pack ss) = septetStream ss := by
  have h := bitStream_slices 8 (septetStream ss) (payloadLength ss.length)
  have hlt : septetStream ss < 2 ^ (8 * payloadLength ss.length) :=
    lt_of_lt_of_le (septetStream_lt ss) (Nat.pow_le_pow_right (by decide) (by
      simp only [payloadLength, Config.septetBits]; omega))
  rw [Nat.mod_eq_of_lt hlt] at h
  rw [← h]
  simp only [octetStream, pack, Config.octetBits, List.map_map]
  refine congrArg (bitStream 8) (List.map_congr_left fun m _ => ?_)
  rw [Function.comp_apply, BitVec.toNat_ofNat, and_255, Nat.mod_mod]

/-- `unpack` keeps the low `7N` bits of the stream. -/
theorem septetStream_unpack (os : List Octet) (n : Nat) :
    septetStream (unpack os n) = octetStream os % 2 ^ (7 * n) := by
  rw [← bitStream_slices 7 (octetStream os) n]
  simp only [septetStream, unpack, Config.septetBits, List.map_map]
  refine congrArg (bitStream 7) (List.map_congr_left fun m _ => ?_)
  rw [Function.comp_apply, BitVec.toNat_ofNat, and_127, Nat.mod_mod]

end Sys2Proof.Machine
end

