-- ==== Sys2Proof/Laws/Datapath.lean ====
section
/-! SUPPORT. What `push`, `pushAll`, `flush` and `pull` do to the bit stream (R79, R90): the stream bits held before
and those taken in are the stream bits put out and those held after. -/

namespace Sys2Proof.Machine

/-- Joining bits above `nb` to an accumulator that fits `nb` bits is adding them. -/
theorem or_shift_eq_add {acc nb x : Nat} (h : acc < 2 ^ nb) : acc ||| (x <<< nb) = acc + 2 ^ nb * x := by
  rw [Nat.or_comm, ← Nat.shiftLeft_add_eq_or_of_lt h, Nat.shiftLeft_eq]
  ring

/-- What one `push` does (R79, R81): it emits at most one octet, exactly when the accumulator is not empty, and keeps
the stream. -/
theorem push_spec {acc nb : Nat} (s : Septet) (h : acc < 2 ^ nb) (hn : nb ≤ 7) :
    (push acc nb s).outs.length = (if nb = 0 then 0 else 1) ∧
    (push acc nb s).nb + 8 * (push acc nb s).outs.length = nb + 7 ∧ (push acc nb s).nb ≤ 7 ∧
    (push acc nb s).acc < 2 ^ (push acc nb s).nb ∧
    octetStream (push acc nb s).outs + 2 ^ (8 * (push acc nb s).outs.length) * (push acc nb s).acc =
      acc + 2 ^ nb * s.toNat := by
  have hs := s.isLt
  have ha := or_shift_eq_add (x := s.toNat) h
  have hlt : acc + 2 ^ nb * s.toNat < 2 ^ (nb + 7) := by
    rw [Nat.pow_add]
    calc acc + 2 ^ nb * s.toNat < 2 ^ nb + 2 ^ nb * s.toNat := by omega
      _ = 2 ^ nb * (s.toNat + 1) := by ring
      _ ≤ 2 ^ nb * 2 ^ 7 := Nat.mul_le_mul_left _ hs
  unfold push
  simp only [Config.septetBits, ha, and_255]
  by_cases h0 : nb = 0
  · subst h0
    simpa using hlt
  · have hge : 8 ≤ nb + 7 := by omega
    simp only [hge, if_true, h0, if_false, List.length_singleton, octetStream_cons, octetStream_nil,
      BitVec.toNat_ofNat, Nat.shiftRight_eq_div_pow]
    refine ⟨trivial, by omega, by omega, ?_, ?_⟩
    · rw [Nat.div_lt_iff_lt_mul (by decide), ← Nat.pow_add]
      exact lt_of_lt_of_eq hlt (by congr 1; omega)
    · have := Nat.mod_add_div (acc + 2 ^ nb * s.toNat) (2 ^ 8)
      simpa using this

/-- What pushing a list of septets does (R79, R80): the fill count is `nb + 7 j` less what was emitted, and the stream
is kept. -/
theorem pushAll_spec (ss : List Septet) {acc nb : Nat} (h : acc < 2 ^ nb) (hn : nb ≤ 7) :
    (pushAll acc nb ss).nb + 8 * (pushAll acc nb ss).outs.length = nb + 7 * ss.length ∧
    (pushAll acc nb ss).nb ≤ 7 ∧ (pushAll acc nb ss).acc < 2 ^ (pushAll acc nb ss).nb ∧
    octetStream (pushAll acc nb ss).outs + 2 ^ (8 * (pushAll acc nb ss).outs.length) * (pushAll acc nb ss).acc =
      acc + 2 ^ nb * septetStream ss := by
  induction ss generalizing acc nb with
  | nil => simp [pushAll, h, hn]
  | cons s ss ih =>
    obtain ⟨-, hnb, hle, hlt, hst⟩ := push_spec s h hn
    obtain ⟨qnb, qle, qlt, qst⟩ := ih hlt hle
    refine ⟨by simp only [pushAll, List.length_append, List.length_cons]; omega, qle, qlt, ?_⟩
    simp only [pushAll, List.length_append, octetStream_append, septetStream_cons]
    set p := push acc nb s
    set q := pushAll p.acc p.nb ss
    have hpow : 2 ^ (8 * p.outs.length) * 2 ^ p.nb = 2 ^ nb * 2 ^ 7 := by
      rw [← Nat.pow_add, ← Nat.pow_add]
      congr 1
      omega
    calc octetStream p.outs + 2 ^ (8 * p.outs.length) * octetStream q.outs +
          2 ^ (8 * (p.outs.length + q.outs.length)) * q.acc
        = octetStream p.outs +
          2 ^ (8 * p.outs.length) * (octetStream q.outs + 2 ^ (8 * q.outs.length) * q.acc) := by
            rw [Nat.mul_add, Nat.pow_add]; ring
      _ = octetStream p.outs + 2 ^ (8 * p.outs.length) * (p.acc + 2 ^ p.nb * septetStream ss) := by rw [qst]
      _ = (octetStream p.outs + 2 ^ (8 * p.outs.length) * p.acc) +
          (2 ^ (8 * p.outs.length) * 2 ^ p.nb) * septetStream ss := by ring
      _ = acc + 2 ^ nb * (s.toNat + 2 ^ 7 * septetStream ss) := by rw [hst, hpow]; ring

/-- Pushing one list after another is pushing their concatenation. -/
theorem pushAll_append (ss us : List Septet) (acc nb : Nat) :
    pushAll acc nb (ss ++ us) =
      ⟨(pushAll (pushAll acc nb ss).acc (pushAll acc nb ss).nb us).acc,
        (pushAll (pushAll acc nb ss).acc (pushAll acc nb ss).nb us).nb,
        (pushAll acc nb ss).outs ++ (pushAll (pushAll acc nb ss).acc (pushAll acc nb ss).nb us).outs⟩ := by
  induction ss generalizing acc nb with
  | nil => simp [pushAll]
  | cons s ss ih => simp [pushAll, ih]

/-- What `flush` emits (R79): nothing from an empty accumulator, else one octet that is the accumulator. -/
theorem flush_spec {acc nb : Nat} (h : acc < 2 ^ nb) (hn : nb ≤ 7) :
    (flush acc nb).length = (if nb = 0 then 0 else 1) ∧ octetStream (flush acc nb) = acc := by
  have h8 : acc < 2 ^ 8 := lt_of_lt_of_le h (Nat.pow_le_pow_right (by decide) (by omega))
  by_cases h0 : nb = 0
  · subst h0
    simp at h
    simp [flush, h]
  · have : 0 < nb := Nat.pos_of_ne_zero h0
    simpa [flush, this, h0, and_255] using h8

/-- What the loop of `pull` does: it extracts `min rem (n / 7)` septets and keeps the stream. -/
theorem pullLoop_spec (a n rem : Nat) :
    (pullLoop a n rem).seps.length = min rem (n / 7) ∧
    (pullLoop a n rem).nb = n - 7 * (pullLoop a n rem).seps.length ∧
    (pullLoop a n rem).acc = a >>> (7 * (pullLoop a n rem).seps.length) ∧
    septetStream (pullLoop a n rem).seps = a % 2 ^ (7 * (pullLoop a n rem).seps.length) := by
  induction rem generalizing a n with
  | zero => simp [pullLoop, Nat.mod_one]
  | succ rem ih =>
    unfold pullLoop
    by_cases h : 7 ≤ n
    · obtain ⟨hl, hn, ha, hst⟩ := ih (a >>> 7) (n - 7)
      simp only [Config.septetBits, h, if_true, List.length_cons, septetStream_cons]
      refine ⟨by omega, by omega, ?_, ?_⟩
      · rw [ha, ← Nat.shiftRight_add]
        congr 1
        omega
      · rw [hst, BitVec.toNat_ofNat, and_127, Nat.mod_mod, Nat.mul_succ, Nat.add_comm (7 * _), Nat.pow_add,
          Nat.mod_mul, Nat.shiftRight_eq_div_pow]
    · simp [Config.septetBits, h, Nat.mod_one]
      omega

/-- What one `pull` does (R90): one or two septets, two only when 6 bits were held and two are owed; while septets are
still owed the stream is kept, and once none is the accumulator is empty. -/
theorem pull_spec {acc nb rem : Nat} (o : Octet) (h : acc < 2 ^ nb) (hn : nb ≤ 6) (hr : 1 ≤ rem) :
    (pull acc nb o rem).seps.length = (if nb = 6 ∧ 2 ≤ rem then 2 else 1) ∧
    septetStream (pull acc nb o rem).seps =
      (acc + 2 ^ nb * o.toNat) % 2 ^ (7 * (pull acc nb o rem).seps.length) ∧
    ((pull acc nb o rem).seps.length = rem → (pull acc nb o rem).acc = 0 ∧ (pull acc nb o rem).nb = 0) ∧
    ((pull acc nb o rem).seps.length < rem →
      (pull acc nb o rem).nb + 7 * (pull acc nb o rem).seps.length = nb + 8 ∧
      (pull acc nb o rem).acc = (acc + 2 ^ nb * o.toNat) / 2 ^ (7 * (pull acc nb o rem).seps.length)) ∧
    (pull acc nb o rem).nb ≤ 6 ∧ (pull acc nb o rem).acc < 2 ^ (pull acc nb o rem).nb := by
  have ho := o.isLt
  have ha := or_shift_eq_add (x := o.toNat) h
  have hlt : acc + 2 ^ nb * o.toNat < 2 ^ (nb + 8) := by
    rw [Nat.pow_add]
    calc acc + 2 ^ nb * o.toNat < 2 ^ nb + 2 ^ nb * o.toNat := by omega
      _ = 2 ^ nb * (o.toNat + 1) := by ring
      _ ≤ 2 ^ nb * 2 ^ 8 := Nat.mul_le_mul_left _ ho
  obtain ⟨hl, hnb, hacc, hst⟩ := pullLoop_spec (acc + 2 ^ nb * o.toNat) (nb + 8) rem
  have hlen : (pullLoop (acc + 2 ^ nb * o.toNat) (nb + 8) rem).seps.length = if nb = 6 ∧ 2 ≤ rem then 2 else 1 := by
    rw [hl]
    split <;> omega
  have hle : (pullLoop (acc + 2 ^ nb * o.toNat) (nb + 8) rem).seps.length ≤ rem := by
    rw [hlen]
    split <;> omega
  unfold pull
  simp only [Config.octetBits, ha]
  by_cases he : (pullLoop (acc + 2 ^ nb * o.toNat) (nb + 8) rem).seps.length = rem
  · rw [if_pos he]
    exact ⟨hlen, hst, fun _ => ⟨rfl, rfl⟩, fun hlt => absurd he (Nat.ne_of_lt hlt), Nat.zero_le 6, Nat.one_pos⟩
  · rw [if_neg he]
    have hcap : 7 * (pullLoop (acc + 2 ^ nb * o.toNat) (nb + 8) rem).seps.length ≤ nb + 8 := by
      rw [hlen]
      split <;> omega
    refine ⟨hlen, hst, fun h => absurd h he, fun _ => ⟨by omega, by rw [hacc, Nat.shiftRight_eq_div_pow]⟩, ?_, ?_⟩
    · rw [hnb]
      have : ¬(nb = 6 ∧ 2 ≤ rem) → nb < 6 := by omega
      rw [hlen] at he ⊢
      split at he <;> split <;> omega
    · rw [hacc, Nat.shiftRight_eq_div_pow, Nat.div_lt_iff_lt_mul (Nat.two_pow_pos _), ← Nat.pow_add]
      exact lt_of_lt_of_eq hlt (by congr 1; omega)

end Sys2Proof.Machine
end

