-- ==== Sys2Proof/Laws/Decode.lean ====
section
/-! SUPPORT. The opcode field and the reserved bits of words and encodings (R57, R58). -/

namespace Sys2Proof

/-- Each row's `OPC` finds the row (R60: the rows have distinct `OPC`). -/
@[simp] theorem ofCode_code (op : Opcode) : Opcode.ofCode op.code = some op := by cases op <;> rfl

/-- An `OPC` finds only the row that has it. -/
theorem code_of_ofCode {c : BitVec 8} {op : Opcode} (h : Opcode.ofCode c = some op) : op.code = c := by
  simpa using List.find?_some h

/-- The opcode field of an encoding is its row's `OPC`. -/
@[simp] theorem opcodeField_encode (i : Instr) : opcodeField (encode i) = i.opcode.code := by
  unfold opcodeField encode
  rw [BitVec.extractLsb'_append_eq_of_le (by decide)]
  simp

/-- Decoding answers a command exactly when the opcode is listed and no reserved bit of its format is 1 (R62). -/
theorem decode_eq_some {w : Word} {i : Instr} :
    decode w = some i ↔ ∃ op : Opcode, op.code = opcodeField w ∧ w &&& op.format.reservedMask = 0 ∧
      i = op.withOperands w := by
  unfold decode
  constructor
  · intro h
    cases ho : Opcode.ofCode (opcodeField w) with
    | none => simp [ho] at h
    | some op =>
      simp only [ho] at h
      split at h
      · rename_i hz
        exact ⟨op, code_of_ofCode ho, hz, by simpa using h.symm⟩
      · cases h
  · rintro ⟨op, hc, hz, rfl⟩
    rw [← hc]
    simp [hz]

/-- The row of a decoded command is the row of its opcode. -/
@[simp] theorem opcode_withOperands (op : Opcode) (w : Word) : (op.withOperands w).opcode = op := by
  cases op <;> rfl

/-- The reserved bits of an encoding are 0 (R58). -/
theorem reservedBits_encode (i : Instr) : encode i &&& i.opcode.format.reservedMask = 0 := by
  apply BitVec.eq_of_getLsbD_eq
  intro k hk
  cases i <;>
  simp only [encode, Instr.operandBits, Instr.opcode, Opcode.code, Opcode.format, Format.reservedMask,
    BitVec.getLsbD_append, BitVec.getLsbD_and] <;>
  interval_cases k <;> simp

end Sys2Proof
end

