-- ==== Sys2Proof/Laws/State.lean ====
section
/-! SUPPORT. One lemma per field per named update of the state, each true by rfl, so that no proof unfolds a record
update. -/

namespace Sys2Proof.Machine

@[simp] theorem raiseFault_rom (c : ErrCode) (w : Word) (s : State) : (raiseFault c w s).rom = s.rom := rfl
@[simp] theorem raiseFault_mode (c : ErrCode) (w : Word) (s : State) : (raiseFault c w s).mode = .error := rfl
@[simp] theorem raiseFault_escPending (c : ErrCode) (w : Word) (s : State) : (raiseFault c w s).escPending = s.escPending := rfl
@[simp] theorem raiseFault_raw (c : ErrCode) (w : Word) (s : State) : (raiseFault c w s).raw = s.raw := rfl
@[simp] theorem raiseFault_errCode (c : ErrCode) (w : Word) (s : State) : (raiseFault c w s).errCode = c := rfl
@[simp] theorem raiseFault_nbits (c : ErrCode) (w : Word) (s : State) : (raiseFault c w s).nbits = s.nbits := rfl
@[simp] theorem raiseFault_errCmd (c : ErrCode) (w : Word) (s : State) : (raiseFault c w s).errCmd = w := rfl
@[simp] theorem raiseFault_lresIdx (c : ErrCode) (w : Word) (s : State) : (raiseFault c w s).lresIdx = s.lresIdx := rfl
@[simp] theorem raiseFault_lresChr (c : ErrCode) (w : Word) (s : State) : (raiseFault c w s).lresChr = s.lresChr := rfl
@[simp] theorem raiseFault_outOct (c : ErrCode) (w : Word) (s : State) : (raiseFault c w s).outOct = s.outOct := rfl
@[simp] theorem raiseFault_outSept (c : ErrCode) (w : Word) (s : State) : (raiseFault c w s).outSept = s.outSept := rfl
@[simp] theorem raiseFault_outChr0 (c : ErrCode) (w : Word) (s : State) : (raiseFault c w s).outChr0 = s.outChr0 := rfl
@[simp] theorem raiseFault_outChr1 (c : ErrCode) (w : Word) (s : State) : (raiseFault c w s).outChr1 = s.outChr1 := rfl
@[simp] theorem raiseFault_scount (c : ErrCode) (w : Word) (s : State) : (raiseFault c w s).scount = s.scount := rfl
@[simp] theorem raiseFault_remain (c : ErrCode) (w : Word) (s : State) : (raiseFault c w s).remain = s.remain := rfl
@[simp] theorem raiseFault_ocount (c : ErrCode) (w : Word) (s : State) : (raiseFault c w s).ocount = s.ocount := rfl
@[simp] theorem raiseFault_acc (c : ErrCode) (w : Word) (s : State) : (raiseFault c w s).acc = s.acc := rfl
@[simp] theorem raiseFault_pending (c : ErrCode) (w : Word) (s : State) : (raiseFault c w s).pending = s.pending := rfl
@[simp] theorem raiseFault_responses (c : ErrCode) (w : Word) (s : State) : (raiseFault c w s).responses = s.responses := rfl

@[simp] theorem clearRegs_rom (s : State) : (clearRegs s).rom = s.rom := rfl
@[simp] theorem clearRegs_mode (s : State) : (clearRegs s).mode = .idle := rfl
@[simp] theorem clearRegs_escPending (s : State) : (clearRegs s).escPending = false := rfl
@[simp] theorem clearRegs_raw (s : State) : (clearRegs s).raw = false := rfl
@[simp] theorem clearRegs_errCode (s : State) : (clearRegs s).errCode = .none := rfl
@[simp] theorem clearRegs_nbits (s : State) : (clearRegs s).nbits = 0 := rfl
@[simp] theorem clearRegs_errCmd (s : State) : (clearRegs s).errCmd = 0 := rfl
@[simp] theorem clearRegs_lresIdx (s : State) : (clearRegs s).lresIdx = ⟨0, .default⟩ := rfl
@[simp] theorem clearRegs_lresChr (s : State) : (clearRegs s).lresChr = ⟨0, false, false⟩ := rfl
@[simp] theorem clearRegs_outOct (s : State) : (clearRegs s).outOct = ⟨0, 0, 0⟩ := rfl
@[simp] theorem clearRegs_outSept (s : State) : (clearRegs s).outSept = ⟨0, 0, 0⟩ := rfl
@[simp] theorem clearRegs_outChr0 (s : State) : (clearRegs s).outChr0 = ⟨0, false⟩ := rfl
@[simp] theorem clearRegs_outChr1 (s : State) : (clearRegs s).outChr1 = ⟨0, false⟩ := rfl
@[simp] theorem clearRegs_scount (s : State) : (clearRegs s).scount = 0 := rfl
@[simp] theorem clearRegs_remain (s : State) : (clearRegs s).remain = 0 := rfl
@[simp] theorem clearRegs_ocount (s : State) : (clearRegs s).ocount = 0 := rfl
@[simp] theorem clearRegs_acc (s : State) : (clearRegs s).acc = 0 := rfl
@[simp] theorem clearRegs_pending (s : State) : (clearRegs s).pending = s.pending := rfl
@[simp] theorem clearRegs_responses (s : State) : (clearRegs s).responses = s.responses := rfl

@[simp] theorem openEncode_rom (s : State) : (openEncode s).rom = s.rom := rfl
@[simp] theorem openEncode_mode (s : State) : (openEncode s).mode = .enc := rfl
@[simp] theorem openEncode_escPending (s : State) : (openEncode s).escPending = false := rfl
@[simp] theorem openEncode_raw (s : State) : (openEncode s).raw = false := rfl
@[simp] theorem openEncode_errCode (s : State) : (openEncode s).errCode = s.errCode := rfl
@[simp] theorem openEncode_nbits (s : State) : (openEncode s).nbits = 0 := rfl
@[simp] theorem openEncode_errCmd (s : State) : (openEncode s).errCmd = s.errCmd := rfl
@[simp] theorem openEncode_lresIdx (s : State) : (openEncode s).lresIdx = s.lresIdx := rfl
@[simp] theorem openEncode_lresChr (s : State) : (openEncode s).lresChr = s.lresChr := rfl
@[simp] theorem openEncode_outOct (s : State) : (openEncode s).outOct = ⟨0, 0, 0⟩ := rfl
@[simp] theorem openEncode_outSept (s : State) : (openEncode s).outSept = ⟨0, 0, 0⟩ := rfl
@[simp] theorem openEncode_outChr0 (s : State) : (openEncode s).outChr0 = ⟨0, false⟩ := rfl
@[simp] theorem openEncode_outChr1 (s : State) : (openEncode s).outChr1 = ⟨0, false⟩ := rfl
@[simp] theorem openEncode_scount (s : State) : (openEncode s).scount = 0 := rfl
@[simp] theorem openEncode_remain (s : State) : (openEncode s).remain = 0 := rfl
@[simp] theorem openEncode_ocount (s : State) : (openEncode s).ocount = 0 := rfl
@[simp] theorem openEncode_acc (s : State) : (openEncode s).acc = 0 := rfl
@[simp] theorem openEncode_pending (s : State) : (openEncode s).pending = s.pending := rfl
@[simp] theorem openEncode_responses (s : State) : (openEncode s).responses = s.responses := rfl

@[simp] theorem openDecode_rom (raw : Bool) (n : Count) (s : State) : (openDecode raw n s).rom = s.rom := rfl
@[simp] theorem openDecode_mode (raw : Bool) (n : Count) (s : State) : (openDecode raw n s).mode = .dec := rfl
@[simp] theorem openDecode_escPending (raw : Bool) (n : Count) (s : State) : (openDecode raw n s).escPending = false := rfl
@[simp] theorem openDecode_raw (raw : Bool) (n : Count) (s : State) : (openDecode raw n s).raw = raw := rfl
@[simp] theorem openDecode_errCode (raw : Bool) (n : Count) (s : State) : (openDecode raw n s).errCode = s.errCode := rfl
@[simp] theorem openDecode_nbits (raw : Bool) (n : Count) (s : State) : (openDecode raw n s).nbits = 0 := rfl
@[simp] theorem openDecode_errCmd (raw : Bool) (n : Count) (s : State) : (openDecode raw n s).errCmd = s.errCmd := rfl
@[simp] theorem openDecode_lresIdx (raw : Bool) (n : Count) (s : State) : (openDecode raw n s).lresIdx = s.lresIdx := rfl
@[simp] theorem openDecode_lresChr (raw : Bool) (n : Count) (s : State) : (openDecode raw n s).lresChr = s.lresChr := rfl
@[simp] theorem openDecode_outOct (raw : Bool) (n : Count) (s : State) : (openDecode raw n s).outOct = ⟨0, 0, 0⟩ := rfl
@[simp] theorem openDecode_outSept (raw : Bool) (n : Count) (s : State) : (openDecode raw n s).outSept = ⟨0, 0, 0⟩ := rfl
@[simp] theorem openDecode_outChr0 (raw : Bool) (n : Count) (s : State) : (openDecode raw n s).outChr0 = ⟨0, false⟩ := rfl
@[simp] theorem openDecode_outChr1 (raw : Bool) (n : Count) (s : State) : (openDecode raw n s).outChr1 = ⟨0, false⟩ := rfl
@[simp] theorem openDecode_scount (raw : Bool) (n : Count) (s : State) : (openDecode raw n s).scount = 0 := rfl
@[simp] theorem openDecode_remain (raw : Bool) (n : Count) (s : State) : (openDecode raw n s).remain = n := rfl
@[simp] theorem openDecode_ocount (raw : Bool) (n : Count) (s : State) : (openDecode raw n s).ocount = 0 := rfl
@[simp] theorem openDecode_acc (raw : Bool) (n : Count) (s : State) : (openDecode raw n s).acc = 0 := rfl
@[simp] theorem openDecode_pending (raw : Bool) (n : Count) (s : State) : (openDecode raw n s).pending = s.pending := rfl
@[simp] theorem openDecode_responses (raw : Bool) (n : Count) (s : State) : (openDecode raw n s).responses = s.responses := rfl

@[simp] theorem commitPush_rom (p : Packed) (k : Nat) (s : State) : (commitPush p k s).rom = s.rom := rfl
@[simp] theorem commitPush_mode (p : Packed) (k : Nat) (s : State) : (commitPush p k s).mode = s.mode := rfl
@[simp] theorem commitPush_escPending (p : Packed) (k : Nat) (s : State) : (commitPush p k s).escPending = s.escPending := rfl
@[simp] theorem commitPush_raw (p : Packed) (k : Nat) (s : State) : (commitPush p k s).raw = s.raw := rfl
@[simp] theorem commitPush_errCode (p : Packed) (k : Nat) (s : State) : (commitPush p k s).errCode = s.errCode := rfl
@[simp] theorem commitPush_nbits (p : Packed) (k : Nat) (s : State) : (commitPush p k s).nbits = BitVec.ofNat 4 p.nb := rfl
@[simp] theorem commitPush_errCmd (p : Packed) (k : Nat) (s : State) : (commitPush p k s).errCmd = s.errCmd := rfl
@[simp] theorem commitPush_lresIdx (p : Packed) (k : Nat) (s : State) : (commitPush p k s).lresIdx = s.lresIdx := rfl
@[simp] theorem commitPush_lresChr (p : Packed) (k : Nat) (s : State) : (commitPush p k s).lresChr = s.lresChr := rfl
@[simp] theorem commitPush_outOct (p : Packed) (k : Nat) (s : State) : (commitPush p k s).outOct = OutOct.ofList p.outs := rfl
@[simp] theorem commitPush_outSept (p : Packed) (k : Nat) (s : State) : (commitPush p k s).outSept = s.outSept := rfl
@[simp] theorem commitPush_outChr0 (p : Packed) (k : Nat) (s : State) : (commitPush p k s).outChr0 = s.outChr0 := rfl
@[simp] theorem commitPush_outChr1 (p : Packed) (k : Nat) (s : State) : (commitPush p k s).outChr1 = s.outChr1 := rfl
@[simp] theorem commitPush_scount (p : Packed) (k : Nat) (s : State) : (commitPush p k s).scount = s.scount + BitVec.ofNat 16 k := rfl
@[simp] theorem commitPush_remain (p : Packed) (k : Nat) (s : State) : (commitPush p k s).remain = s.remain := rfl
@[simp] theorem commitPush_ocount (p : Packed) (k : Nat) (s : State) : (commitPush p k s).ocount = s.ocount + BitVec.ofNat 16 p.outs.length := rfl
@[simp] theorem commitPush_acc (p : Packed) (k : Nat) (s : State) : (commitPush p k s).acc = BitVec.ofNat 15 p.acc := rfl
@[simp] theorem commitPush_pending (p : Packed) (k : Nat) (s : State) : (commitPush p k s).pending = s.pending := rfl
@[simp] theorem commitPush_responses (p : Packed) (k : Nat) (s : State) : (commitPush p k s).responses = s.responses := rfl

@[simp] theorem closeEncode_rom (s : State) : (closeEncode s).rom = s.rom := rfl
@[simp] theorem closeEncode_mode (s : State) : (closeEncode s).mode = .idle := rfl
@[simp] theorem closeEncode_escPending (s : State) : (closeEncode s).escPending = s.escPending := rfl
@[simp] theorem closeEncode_raw (s : State) : (closeEncode s).raw = s.raw := rfl
@[simp] theorem closeEncode_errCode (s : State) : (closeEncode s).errCode = s.errCode := rfl
@[simp] theorem closeEncode_nbits (s : State) : (closeEncode s).nbits = 0 := rfl
@[simp] theorem closeEncode_errCmd (s : State) : (closeEncode s).errCmd = s.errCmd := rfl
@[simp] theorem closeEncode_lresIdx (s : State) : (closeEncode s).lresIdx = s.lresIdx := rfl
@[simp] theorem closeEncode_lresChr (s : State) : (closeEncode s).lresChr = s.lresChr := rfl
@[simp] theorem closeEncode_outOct (s : State) : (closeEncode s).outOct = OutOct.ofList (flush s.acc.toNat s.nbits.toNat) := rfl
@[simp] theorem closeEncode_outSept (s : State) : (closeEncode s).outSept = s.outSept := rfl
@[simp] theorem closeEncode_outChr0 (s : State) : (closeEncode s).outChr0 = s.outChr0 := rfl
@[simp] theorem closeEncode_outChr1 (s : State) : (closeEncode s).outChr1 = s.outChr1 := rfl
@[simp] theorem closeEncode_scount (s : State) : (closeEncode s).scount = s.scount := rfl
@[simp] theorem closeEncode_remain (s : State) : (closeEncode s).remain = s.remain := rfl
@[simp] theorem closeEncode_ocount (s : State) : (closeEncode s).ocount = s.ocount + BitVec.ofNat 16 (flush s.acc.toNat s.nbits.toNat).length := rfl
@[simp] theorem closeEncode_acc (s : State) : (closeEncode s).acc = 0 := rfl
@[simp] theorem closeEncode_pending (s : State) : (closeEncode s).pending = s.pending := rfl
@[simp] theorem closeEncode_responses (s : State) : (closeEncode s).responses = s.responses := rfl

@[simp] theorem commitPull_rom (p : Pulled) (d : Decoded) (s : State) : (commitPull p d s).rom = s.rom := rfl
@[simp] theorem commitPull_mode (p : Pulled) (d : Decoded) (s : State) : (commitPull p d s).mode = s.mode := rfl
@[simp] theorem commitPull_escPending (p : Pulled) (d : Decoded) (s : State) : (commitPull p d s).escPending = d.esc := rfl
@[simp] theorem commitPull_raw (p : Pulled) (d : Decoded) (s : State) : (commitPull p d s).raw = s.raw := rfl
@[simp] theorem commitPull_errCode (p : Pulled) (d : Decoded) (s : State) : (commitPull p d s).errCode = s.errCode := rfl
@[simp] theorem commitPull_nbits (p : Pulled) (d : Decoded) (s : State) : (commitPull p d s).nbits = BitVec.ofNat 4 p.nb := rfl
@[simp] theorem commitPull_errCmd (p : Pulled) (d : Decoded) (s : State) : (commitPull p d s).errCmd = s.errCmd := rfl
@[simp] theorem commitPull_lresIdx (p : Pulled) (d : Decoded) (s : State) : (commitPull p d s).lresIdx = s.lresIdx := rfl
@[simp] theorem commitPull_lresChr (p : Pulled) (d : Decoded) (s : State) : (commitPull p d s).lresChr = s.lresChr := rfl
@[simp] theorem commitPull_outOct (p : Pulled) (d : Decoded) (s : State) : (commitPull p d s).outOct = s.outOct := rfl
@[simp] theorem commitPull_outSept (p : Pulled) (d : Decoded) (s : State) : (commitPull p d s).outSept = OutSept.ofList p.seps := rfl
@[simp] theorem commitPull_outChr0 (p : Pulled) (d : Decoded) (s : State) : (commitPull p d s).outChr0 = OutChr.ofOption d.chars[0]? := rfl
@[simp] theorem commitPull_outChr1 (p : Pulled) (d : Decoded) (s : State) : (commitPull p d s).outChr1 = OutChr.ofOption d.chars[1]? := rfl
@[simp] theorem commitPull_scount (p : Pulled) (d : Decoded) (s : State) : (commitPull p d s).scount = s.scount + BitVec.ofNat 16 p.seps.length := rfl
@[simp] theorem commitPull_remain (p : Pulled) (d : Decoded) (s : State) : (commitPull p d s).remain = s.remain - BitVec.ofNat 16 p.seps.length := rfl
@[simp] theorem commitPull_ocount (p : Pulled) (d : Decoded) (s : State) : (commitPull p d s).ocount = s.ocount + 1 := rfl
@[simp] theorem commitPull_acc (p : Pulled) (d : Decoded) (s : State) : (commitPull p d s).acc = BitVec.ofNat 15 p.acc := rfl
@[simp] theorem commitPull_pending (p : Pulled) (d : Decoded) (s : State) : (commitPull p d s).pending = s.pending := rfl
@[simp] theorem commitPull_responses (p : Pulled) (d : Decoded) (s : State) : (commitPull p d s).responses = s.responses := rfl

@[simp] theorem closeDecode_rom (s : State) : (closeDecode s).rom = s.rom := rfl
@[simp] theorem closeDecode_mode (s : State) : (closeDecode s).mode = .idle := rfl
@[simp] theorem closeDecode_escPending (s : State) : (closeDecode s).escPending = s.escPending := rfl
@[simp] theorem closeDecode_raw (s : State) : (closeDecode s).raw = false := rfl
@[simp] theorem closeDecode_errCode (s : State) : (closeDecode s).errCode = s.errCode := rfl
@[simp] theorem closeDecode_nbits (s : State) : (closeDecode s).nbits = s.nbits := rfl
@[simp] theorem closeDecode_errCmd (s : State) : (closeDecode s).errCmd = s.errCmd := rfl
@[simp] theorem closeDecode_lresIdx (s : State) : (closeDecode s).lresIdx = s.lresIdx := rfl
@[simp] theorem closeDecode_lresChr (s : State) : (closeDecode s).lresChr = s.lresChr := rfl
@[simp] theorem closeDecode_outOct (s : State) : (closeDecode s).outOct = s.outOct := rfl
@[simp] theorem closeDecode_outSept (s : State) : (closeDecode s).outSept = s.outSept := rfl
@[simp] theorem closeDecode_outChr0 (s : State) : (closeDecode s).outChr0 = s.outChr0 := rfl
@[simp] theorem closeDecode_outChr1 (s : State) : (closeDecode s).outChr1 = s.outChr1 := rfl
@[simp] theorem closeDecode_scount (s : State) : (closeDecode s).scount = s.scount := rfl
@[simp] theorem closeDecode_remain (s : State) : (closeDecode s).remain = s.remain := rfl
@[simp] theorem closeDecode_ocount (s : State) : (closeDecode s).ocount = s.ocount := rfl
@[simp] theorem closeDecode_acc (s : State) : (closeDecode s).acc = s.acc := rfl
@[simp] theorem closeDecode_pending (s : State) : (closeDecode s).pending = s.pending := rfl
@[simp] theorem closeDecode_responses (s : State) : (closeDecode s).responses = s.responses := rfl

@[simp] theorem setLresIdx_rom (r : LresIdx) (s : State) : (setLresIdx r s).rom = s.rom := rfl
@[simp] theorem setLresIdx_mode (r : LresIdx) (s : State) : (setLresIdx r s).mode = s.mode := rfl
@[simp] theorem setLresIdx_escPending (r : LresIdx) (s : State) : (setLresIdx r s).escPending = s.escPending := rfl
@[simp] theorem setLresIdx_raw (r : LresIdx) (s : State) : (setLresIdx r s).raw = s.raw := rfl
@[simp] theorem setLresIdx_errCode (r : LresIdx) (s : State) : (setLresIdx r s).errCode = s.errCode := rfl
@[simp] theorem setLresIdx_nbits (r : LresIdx) (s : State) : (setLresIdx r s).nbits = s.nbits := rfl
@[simp] theorem setLresIdx_errCmd (r : LresIdx) (s : State) : (setLresIdx r s).errCmd = s.errCmd := rfl
@[simp] theorem setLresIdx_lresIdx (r : LresIdx) (s : State) : (setLresIdx r s).lresIdx = r := rfl
@[simp] theorem setLresIdx_lresChr (r : LresIdx) (s : State) : (setLresIdx r s).lresChr = s.lresChr := rfl
@[simp] theorem setLresIdx_outOct (r : LresIdx) (s : State) : (setLresIdx r s).outOct = s.outOct := rfl
@[simp] theorem setLresIdx_outSept (r : LresIdx) (s : State) : (setLresIdx r s).outSept = s.outSept := rfl
@[simp] theorem setLresIdx_outChr0 (r : LresIdx) (s : State) : (setLresIdx r s).outChr0 = s.outChr0 := rfl
@[simp] theorem setLresIdx_outChr1 (r : LresIdx) (s : State) : (setLresIdx r s).outChr1 = s.outChr1 := rfl
@[simp] theorem setLresIdx_scount (r : LresIdx) (s : State) : (setLresIdx r s).scount = s.scount := rfl
@[simp] theorem setLresIdx_remain (r : LresIdx) (s : State) : (setLresIdx r s).remain = s.remain := rfl
@[simp] theorem setLresIdx_ocount (r : LresIdx) (s : State) : (setLresIdx r s).ocount = s.ocount := rfl
@[simp] theorem setLresIdx_acc (r : LresIdx) (s : State) : (setLresIdx r s).acc = s.acc := rfl
@[simp] theorem setLresIdx_pending (r : LresIdx) (s : State) : (setLresIdx r s).pending = s.pending := rfl
@[simp] theorem setLresIdx_responses (r : LresIdx) (s : State) : (setLresIdx r s).responses = s.responses := rfl

@[simp] theorem setLresChr_rom (r : LresChr) (s : State) : (setLresChr r s).rom = s.rom := rfl
@[simp] theorem setLresChr_mode (r : LresChr) (s : State) : (setLresChr r s).mode = s.mode := rfl
@[simp] theorem setLresChr_escPending (r : LresChr) (s : State) : (setLresChr r s).escPending = s.escPending := rfl
@[simp] theorem setLresChr_raw (r : LresChr) (s : State) : (setLresChr r s).raw = s.raw := rfl
@[simp] theorem setLresChr_errCode (r : LresChr) (s : State) : (setLresChr r s).errCode = s.errCode := rfl
@[simp] theorem setLresChr_nbits (r : LresChr) (s : State) : (setLresChr r s).nbits = s.nbits := rfl
@[simp] theorem setLresChr_errCmd (r : LresChr) (s : State) : (setLresChr r s).errCmd = s.errCmd := rfl
@[simp] theorem setLresChr_lresIdx (r : LresChr) (s : State) : (setLresChr r s).lresIdx = s.lresIdx := rfl
@[simp] theorem setLresChr_lresChr (r : LresChr) (s : State) : (setLresChr r s).lresChr = r := rfl
@[simp] theorem setLresChr_outOct (r : LresChr) (s : State) : (setLresChr r s).outOct = s.outOct := rfl
@[simp] theorem setLresChr_outSept (r : LresChr) (s : State) : (setLresChr r s).outSept = s.outSept := rfl
@[simp] theorem setLresChr_outChr0 (r : LresChr) (s : State) : (setLresChr r s).outChr0 = s.outChr0 := rfl
@[simp] theorem setLresChr_outChr1 (r : LresChr) (s : State) : (setLresChr r s).outChr1 = s.outChr1 := rfl
@[simp] theorem setLresChr_scount (r : LresChr) (s : State) : (setLresChr r s).scount = s.scount := rfl
@[simp] theorem setLresChr_remain (r : LresChr) (s : State) : (setLresChr r s).remain = s.remain := rfl
@[simp] theorem setLresChr_ocount (r : LresChr) (s : State) : (setLresChr r s).ocount = s.ocount := rfl
@[simp] theorem setLresChr_acc (r : LresChr) (s : State) : (setLresChr r s).acc = s.acc := rfl
@[simp] theorem setLresChr_pending (r : LresChr) (s : State) : (setLresChr r s).pending = s.pending := rfl
@[simp] theorem setLresChr_responses (r : LresChr) (s : State) : (setLresChr r s).responses = s.responses := rfl

@[simp] theorem respond_rom (v : Word) (s : State) : (respond v s).rom = s.rom := rfl
@[simp] theorem respond_mode (v : Word) (s : State) : (respond v s).mode = s.mode := rfl
@[simp] theorem respond_escPending (v : Word) (s : State) : (respond v s).escPending = s.escPending := rfl
@[simp] theorem respond_raw (v : Word) (s : State) : (respond v s).raw = s.raw := rfl
@[simp] theorem respond_errCode (v : Word) (s : State) : (respond v s).errCode = s.errCode := rfl
@[simp] theorem respond_nbits (v : Word) (s : State) : (respond v s).nbits = s.nbits := rfl
@[simp] theorem respond_errCmd (v : Word) (s : State) : (respond v s).errCmd = s.errCmd := rfl
@[simp] theorem respond_lresIdx (v : Word) (s : State) : (respond v s).lresIdx = s.lresIdx := rfl
@[simp] theorem respond_lresChr (v : Word) (s : State) : (respond v s).lresChr = s.lresChr := rfl
@[simp] theorem respond_outOct (v : Word) (s : State) : (respond v s).outOct = s.outOct := rfl
@[simp] theorem respond_outSept (v : Word) (s : State) : (respond v s).outSept = s.outSept := rfl
@[simp] theorem respond_outChr0 (v : Word) (s : State) : (respond v s).outChr0 = s.outChr0 := rfl
@[simp] theorem respond_outChr1 (v : Word) (s : State) : (respond v s).outChr1 = s.outChr1 := rfl
@[simp] theorem respond_scount (v : Word) (s : State) : (respond v s).scount = s.scount := rfl
@[simp] theorem respond_remain (v : Word) (s : State) : (respond v s).remain = s.remain := rfl
@[simp] theorem respond_ocount (v : Word) (s : State) : (respond v s).ocount = s.ocount := rfl
@[simp] theorem respond_acc (v : Word) (s : State) : (respond v s).acc = s.acc := rfl
@[simp] theorem respond_pending (v : Word) (s : State) : (respond v s).pending = s.pending := rfl
@[simp] theorem respond_responses (v : Word) (s : State) : (respond v s).responses = s.responses ++ [v] := rfl

@[simp] theorem dropEvent_rom (rest : List BusEvent) (s : State) : (dropEvent rest s).rom = s.rom := rfl
@[simp] theorem dropEvent_mode (rest : List BusEvent) (s : State) : (dropEvent rest s).mode = s.mode := rfl
@[simp] theorem dropEvent_escPending (rest : List BusEvent) (s : State) : (dropEvent rest s).escPending = s.escPending := rfl
@[simp] theorem dropEvent_raw (rest : List BusEvent) (s : State) : (dropEvent rest s).raw = s.raw := rfl
@[simp] theorem dropEvent_errCode (rest : List BusEvent) (s : State) : (dropEvent rest s).errCode = s.errCode := rfl
@[simp] theorem dropEvent_nbits (rest : List BusEvent) (s : State) : (dropEvent rest s).nbits = s.nbits := rfl
@[simp] theorem dropEvent_errCmd (rest : List BusEvent) (s : State) : (dropEvent rest s).errCmd = s.errCmd := rfl
@[simp] theorem dropEvent_lresIdx (rest : List BusEvent) (s : State) : (dropEvent rest s).lresIdx = s.lresIdx := rfl
@[simp] theorem dropEvent_lresChr (rest : List BusEvent) (s : State) : (dropEvent rest s).lresChr = s.lresChr := rfl
@[simp] theorem dropEvent_outOct (rest : List BusEvent) (s : State) : (dropEvent rest s).outOct = s.outOct := rfl
@[simp] theorem dropEvent_outSept (rest : List BusEvent) (s : State) : (dropEvent rest s).outSept = s.outSept := rfl
@[simp] theorem dropEvent_outChr0 (rest : List BusEvent) (s : State) : (dropEvent rest s).outChr0 = s.outChr0 := rfl
@[simp] theorem dropEvent_outChr1 (rest : List BusEvent) (s : State) : (dropEvent rest s).outChr1 = s.outChr1 := rfl
@[simp] theorem dropEvent_scount (rest : List BusEvent) (s : State) : (dropEvent rest s).scount = s.scount := rfl
@[simp] theorem dropEvent_remain (rest : List BusEvent) (s : State) : (dropEvent rest s).remain = s.remain := rfl
@[simp] theorem dropEvent_ocount (rest : List BusEvent) (s : State) : (dropEvent rest s).ocount = s.ocount := rfl
@[simp] theorem dropEvent_acc (rest : List BusEvent) (s : State) : (dropEvent rest s).acc = s.acc := rfl
@[simp] theorem dropEvent_pending (rest : List BusEvent) (s : State) : (dropEvent rest s).pending = rest := rfl
@[simp] theorem dropEvent_responses (rest : List BusEvent) (s : State) : (dropEvent rest s).responses = s.responses := rfl

end Sys2Proof.Machine
end

