-- ==== Sys2Proof/Laws/Ops.lean ====
section
/-! SUPPORT. What each shared operation can do, said once: the operand checks, the window, the guard of a command, a
write to CMD, one bus event, one step. Later proofs cite these and unfold none of them. -/

namespace Sys2Proof.Machine

/-- An operand below 128 is its low seven bits. -/
theorem septetOperand_of_lt {b : BitVec 8} (h : b.toNat < 128) : septetOperand b = some (b.setWidth 7) := by
  simp [septetOperand, Config.tableSize, h]

/-- An operand of 128 or more is out of range. -/
theorem septetOperand_of_le {b : BitVec 8} (h : 128 ≤ b.toNat) : septetOperand b = none := by
  simp [septetOperand, Config.tableSize, Nat.not_lt.mpr h]

/-- In ERROR mode a guarded command is ignored. -/
theorem runCommand_error {s : State} (h : s.mode = .error) (i : Instr) (body : Except ErrCode State) :
    runCommand i s body = .next s := by
  simp [runCommand, h]

/-- Outside ERROR mode a body that gives a state gives the next state. -/
theorem runCommand_ok {s : State} (h : s.mode ≠ .error) (i : Instr) (t : State) :
    runCommand i s (.ok t) = .next t := by
  simp [runCommand, h]

/-- Outside ERROR mode a body that reports a fault raises it with the command's word. -/
theorem runCommand_fault {s : State} (h : s.mode ≠ .error) (i : Instr) (c : ErrCode) :
    runCommand i s (.error c) = .next (raiseFault c (encode i) s) := by
  simp [runCommand, h]

/-- Everything a guarded command can do. -/
theorem runCommand_cases {i : Instr} {s t : State} {body : Except ErrCode State}
    (h : runCommand i s body = .next t) :
    (s.mode = .error ∧ t = s) ∨ (s.mode ≠ .error ∧ body = .ok t) ∨
      (s.mode ≠ .error ∧ ∃ c, body = .error c ∧ t = raiseFault c (encode i) s) := by
  by_cases hm : s.mode = .error
  · rw [runCommand_error hm] at h
    exact .inl ⟨hm, by simpa using h.symm⟩
  · cases body with
    | ok u =>
      rw [runCommand_ok hm] at h
      exact .inr (.inl ⟨hm, by simpa using h⟩)
    | error c =>
      rw [runCommand_fault hm] at h
      exact .inr (.inr ⟨hm, c, rfl, by simpa using h.symm⟩)

/-- Pushing septets either passes the count limit, which is reported, or commits what `pushAll` leaves. -/
theorem pushSeptets_of_le {ss : List Septet} {s : State} (h : s.scount.toNat + ss.length ≤ 65535) :
    pushSeptets ss s = .ok (commitPush (pushAll s.acc.toNat s.nbits.toNat ss) ss.length s) := by
  simp [pushSeptets, Config.countMax, Nat.not_lt.mpr h]

/-- Past 65535 septets pushing reports COUNT_OVERFLOW. -/
theorem pushSeptets_of_lt {ss : List Septet} {s : State} (h : 65535 < s.scount.toNat + ss.length) :
    pushSeptets ss s = .error .countOverflow := by
  simp [pushSeptets, Config.countMax, h]

/-- A whole 32-bit access carries its value whatever the byte lanes are, so no rule depends on them (R42). -/
@[simp] theorem ofBusOctets_busOctet (v : Word) : ofBusOctets (busOctet v) = v := by
  apply BitVec.eq_of_getLsbD_eq
  intro k hk
  simp only [ofBusOctets, busOctet, Equiv.symm_apply_apply, BitVec.getLsbD_append, BitVec.getLsbD_extractLsb']
  interval_cases k <;> simp

/-- The offsets of the window name its registers. -/
@[simp] theorem ofOffset_offset (r : Reg) : Reg.ofOffset (r.offset : Int) = some r := by
  cases r <;> rfl

/-- A register is found only at its own offset. -/
theorem offset_of_ofOffset {off : Int} {r : Reg} (h : Reg.ofOffset off = some r) : (r.offset : Int) = off := by
  simpa using List.find?_some h

/-- An aligned 32-bit access of a register's offset reaches that register. -/
@[simp] theorem resolve_offset (r : Reg) : resolve (r.offset : Int) 4 = .ok r := by
  have h : (r.offset : Int) % 4 = 0 := by cases r <;> rfl
  simp [resolve, h]

/-- The write address of CMD. -/
@[simp] theorem resolve_zero : resolve 0 4 = .ok .cmd := resolve_offset .cmd

/-- An access reaches a register exactly when it is a 32-bit access of that register's offset. -/
theorem resolve_eq_ok {off : Int} {n : Nat} {r : Reg} :
    resolve off n = .ok r ↔ n = 4 ∧ off = (r.offset : Int) := by
  constructor
  · intro h
    unfold resolve at h
    split at h
    · cases h
    · rename_i hn
      split at h
      · cases h
      · cases hr : Reg.ofOffset off with
        | none => simp [hr] at h
        | some q =>
          simp [hr] at h
          subst h
          exact ⟨not_not.mp hn, (offset_of_ofOffset hr).symm⟩
  · rintro ⟨rfl, rfl⟩
    exact resolve_offset r

/-- The offsets of the window are the multiples of 4 from 0x00 to 0x3C. -/
theorem exists_offset_iff (off : Int) :
    (∃ r : Reg, off = (r.offset : Int)) ↔ 0 ≤ off ∧ off ≤ 0x3C ∧ off % 4 = 0 := by
  constructor
  · rintro ⟨r, rfl⟩
    cases r <;> decide
  · rintro ⟨h0, h1, h2⟩
    obtain ⟨k, rfl⟩ : ∃ k : Nat, off = 4 * (k : Int) := ⟨(off / 4).toNat, by omega⟩
    have hk : k < 16 := by omega
    interval_cases k
    · exact ⟨.cmd, rfl⟩
    · exact ⟨.status, rfl⟩
    · exact ⟨.errCmd, rfl⟩
    · exact ⟨.lresIdx, rfl⟩
    · exact ⟨.lresChr, rfl⟩
    · exact ⟨.outOct, rfl⟩
    · exact ⟨.outSept, rfl⟩
    · exact ⟨.outChr0, rfl⟩
    · exact ⟨.outChr1, rfl⟩
    · exact ⟨.scount, rfl⟩
    · exact ⟨.remain, rfl⟩
    · exact ⟨.ocount, rfl⟩
    · exact ⟨.acc, rfl⟩
    · exact ⟨.reserved34, rfl⟩
    · exact ⟨.reserved38, rfl⟩
    · exact ⟨.reserved3C, rfl⟩

/-- Everything a write to CMD can do: it is ignored, it faults as illegal, or it runs the decoded command. -/
theorem commandWrite_cases {w : Word} {s t : State} (h : commandWrite w s = .next t) :
    (s.mode = .error ∧ w ≠ clearWord ∧ t = s) ∨
      (¬(s.mode = .error ∧ w ≠ clearWord) ∧ decode w = none ∧ t = raiseFault .illegalCommand w s) ∨
      (¬(s.mode = .error ∧ w ≠ clearWord) ∧ ∃ i, decode w = some i ∧ exec i s = .next t) := by
  unfold commandWrite at h
  split at h
  · rename_i hm
    exact .inl ⟨hm.1, hm.2, by simpa using h.symm⟩
  · rename_i hm
    cases hd : decode w with
    | none => simp only [hd] at h; exact .inr (.inl ⟨hm, rfl, by simpa using h.symm⟩)
    | some i => simp only [hd] at h; exact .inr (.inr ⟨hm, i, rfl, h⟩)

/-- Everything a step can do when it answers a next state. -/
theorem step_cases {s t : State} (h : step s = .next t) :
    (s.pending = [] ∧ t = s) ∨
      (∃ rest, s.pending = .reset :: rest ∧ t = clearRegs (dropEvent rest s)) ∨
      (∃ rest r, s.pending = hostRead r :: rest ∧ t = respond (readReg r s) (dropEvent rest s)) ∨
      (∃ rest r v, r ≠ Reg.cmd ∧ s.pending = .write r.offset 4 v :: rest ∧ t = dropEvent rest s) ∨
      (∃ rest w, s.pending = commandWord w :: rest ∧ commandWrite w (dropEvent rest s) = .next t) := by
  unfold step takeNext at h
  cases hp : s.pending with
  | nil => simp only [hp] at h; exact .inl ⟨rfl, by simpa using h.symm⟩
  | cons e rest =>
    simp only [hp] at h
    cases e with
    | reset => exact .inr (.inl ⟨rest, rfl, by simpa [takeEvent] using h.symm⟩)
    | read off n =>
      cases hr : resolve off n with
      | error r => simp [takeEvent, hr] at h
      | ok r =>
        obtain ⟨rfl, rfl⟩ := resolve_eq_ok.mp hr
        refine .inr (.inr (.inl ⟨rest, r, rfl, ?_⟩))
        simp [takeEvent, hr] at h
        rw [← h]
        cases r <;> rfl
    | write off n v =>
      cases hr : resolve off n with
      | error r => simp [takeEvent, hr] at h
      | ok r =>
        obtain ⟨rfl, rfl⟩ := resolve_eq_ok.mp hr
        by_cases hc : r = .cmd
        · subst hc
          refine .inr (.inr (.inr (.inr ⟨rest, v, rfl, ?_⟩)))
          simpa [takeEvent, hr] using h
        · refine .inr (.inr (.inr (.inl ⟨rest, r, v, hc, rfl, ?_⟩)))
          simpa [takeEvent, hr, hc] using h.symm

/-- A step whose next event is a write to CMD. -/
theorem step_commandWord {s : State} {w : Word} {rest : List BusEvent} (h : s.pending = commandWord w :: rest) :
    step s = commandWrite w (dropEvent rest s) := by
  simp [step, takeNext, h, commandWord, takeEvent]

/-- A step whose next event is a host read. -/
theorem step_hostRead {s : State} {r : Reg} {rest : List BusEvent} (h : s.pending = hostRead r :: rest) :
    step s = .next (respond (readReg r (dropEvent rest s)) (dropEvent rest s)) := by
  simp [step, takeNext, h, hostRead, takeEvent]

end Sys2Proof.Machine
end

