-- ==== Sys2Proof/Laws/Exec.lean ====
section
/-! SUPPORT. Everything a command can do, said once for all eleven: `Completes` is the effect of a command that runs
without a fault, and `exec_cases` says that a command is ignored, faults, or completes. -/

namespace Sys2Proof.Machine

/-- The effect of a command that runs without a fault. -/
def Completes (i : Instr) (s t : State) : Prop :=
  match i with
  | .nop => t = s
  | .clear => t = clearRegs s
  | .c2i cp => t = setLresIdx ⟨(charIndex s.rom cp).2, (charIndex s.rom cp).1⟩ s
  | .i2c sel idx =>
    idx.toNat < 128 ∧ t = setLresChr (lresChrOf (septetChar s.rom (escOf sel) (idx.setWidth 7))) s
  | .encBegin => t = openEncode s
  | .encChar cp =>
    s.mode = .enc ∧ ∃ ss, charSeptets s.rom cp = some ss ∧ s.scount.toNat + ss.length ≤ 65535 ∧
      t = commitPush (pushAll s.acc.toNat s.nbits.toNat ss) ss.length s
  | .encSeptet x =>
    s.mode = .enc ∧ x.toNat < 128 ∧ s.scount.toNat + 1 ≤ 65535 ∧
      t = commitPush (pushAll s.acc.toNat s.nbits.toNat [x.setWidth 7]) 1 s
  | .encEnd => s.mode = .enc ∧ t = closeEncode s
  | .decBegin raw n => t = openDecode raw n s
  | .decOctet o =>
    s.mode = .dec ∧ s.remain ≠ 0 ∧ ∃ d,
      decodePulled s (pull s.acc.toNat s.nbits.toNat o s.remain.toNat).seps = some d ∧
        t = commitPull (pull s.acc.toNat s.nbits.toNat o s.remain.toNat) d s
  | .decEnd => s.mode = .dec ∧ s.remain = 0 ∧ s.escPending = false ∧ t = closeDecode s

/-- What a command does outside ERROR mode: the state it leaves, or the first fault that applies. `CLEAR` has no
guard and never faults. -/
def commandBody (i : Instr) (s : State) : Except ErrCode State :=
  match i with
  | .nop => .ok s
  | .clear => .ok (clearRegs s)
  | .c2i cp => .ok (setLresIdx ⟨(charIndex s.rom cp).2, (charIndex s.rom cp).1⟩ s)
  | .i2c sel idx =>
    match septetOperand idx with
    | none => .error .indexRange
    | some x => .ok (setLresChr (lresChrOf (septetChar s.rom (escOf sel) x)) s)
  | .encBegin => .ok (openEncode s)
  | .encChar cp =>
    if s.mode ≠ .enc then .error .sequence
    else
      match charSeptets s.rom cp with
      | none => .error .unsupportedCharacter
      | some ss => pushSeptets ss s
  | .encSeptet x =>
    if s.mode ≠ .enc then .error .sequence
    else
      match septetOperand x with
      | none => .error .indexRange
      | some x => pushSeptets [x] s
  | .encEnd => if s.mode ≠ .enc then .error .sequence else .ok (closeEncode s)
  | .decBegin raw n => .ok (openDecode raw n s)
  | .decOctet o =>
    if s.mode ≠ .dec then .error .sequence
    else if s.remain = 0 then .error .excessOctet
    else
      match decodePulled s (pull s.acc.toNat s.nbits.toNat o s.remain.toNat).seps with
      | none => .error .unusedSlot
      | some d => .ok (commitPull (pull s.acc.toNat s.nbits.toNat o s.remain.toNat) d s)
  | .decEnd =>
    if s.mode ≠ .dec then .error .sequence
    else if s.remain ≠ 0 then .error .truncatedPayload
    else if s.escPending then .error .malformedSeptetStream
    else .ok (closeDecode s)

/-- Every command but `CLEAR` runs its body under the guard of ERROR mode. -/
theorem exec_eq_runCommand {i : Instr} (h : i ≠ .clear) (s : State) :
    exec i s = runCommand i s (commandBody i s) := by
  cases i with
  | clear => exact absurd rfl h
  | nop => rfl
  | c2i _ => rfl
  | i2c _ _ => rfl
  | encBegin => rfl
  | encChar _ => rfl
  | encSeptet _ => rfl
  | encEnd => rfl
  | decBegin _ _ => rfl
  | decOctet _ => rfl
  | decEnd => rfl

/-- A body that gives a state has completed. -/
theorem completes_of_commandBody {i : Instr} {s t : State} (h : commandBody i s = .ok t) : Completes i s t := by
  cases i with
  | nop => cases h; rfl
  | clear => cases h; rfl
  | c2i cp => cases h; rfl
  | encBegin => cases h; rfl
  | decBegin raw n => cases h; rfl
  | i2c sel idx =>
    by_cases hi : idx.toNat < 128
    · simp only [commandBody, septetOperand_of_lt hi] at h
      cases h
      exact ⟨hi, rfl⟩
    · simp [commandBody, septetOperand_of_le (Nat.not_lt.mp hi)] at h
  | encChar cp =>
    simp only [commandBody] at h
    split at h
    · cases h
    · rename_i hm
      cases hs : charSeptets s.rom cp with
      | none => simp [hs] at h
      | some ss =>
        by_cases hc : s.scount.toNat + ss.length ≤ 65535
        · simp only [hs, pushSeptets_of_le hc] at h
          cases h
          exact ⟨not_not.mp hm, ss, hs, hc, rfl⟩
        · simp [hs, pushSeptets_of_lt (Nat.not_le.mp hc)] at h
  | encSeptet x =>
    simp only [commandBody] at h
    split at h
    · cases h
    · rename_i hm
      by_cases hx : x.toNat < 128
      · simp only [septetOperand_of_lt hx] at h
        by_cases hc : s.scount.toNat + 1 ≤ 65535
        · rw [pushSeptets_of_le (ss := [x.setWidth 7]) hc] at h
          cases h
          exact ⟨not_not.mp hm, hx, hc, rfl⟩
        · rw [pushSeptets_of_lt (ss := [x.setWidth 7]) (Nat.not_le.mp hc)] at h
          cases h
      · simp [septetOperand_of_le (Nat.not_lt.mp hx)] at h
  | encEnd =>
    simp only [commandBody] at h
    split at h
    · cases h
    · rename_i hm
      cases h
      exact ⟨not_not.mp hm, rfl⟩
  | decOctet o =>
    simp only [commandBody] at h
    split at h
    · cases h
    · rename_i hm
      split at h
      · cases h
      · rename_i hr
        cases hd : decodePulled s (pull s.acc.toNat s.nbits.toNat o s.remain.toNat).seps with
        | none => simp [hd] at h
        | some d =>
          simp only [hd] at h
          cases h
          exact ⟨not_not.mp hm, hr, d, hd, rfl⟩
  | decEnd =>
    simp only [commandBody] at h
    split at h
    · cases h
    · rename_i hm
      split at h
      · cases h
      · rename_i hr
        split at h
        · cases h
        · rename_i hp
          cases h
          exact ⟨not_not.mp hm, not_not.mp hr, by simpa using hp, rfl⟩

/-- A body that reports a fault reports one of the nine codes. -/
theorem commandBody_ne_none {i : Instr} {s : State} {c : ErrCode} (h : commandBody i s = .error c) :
    c ≠ .none := by
  rintro rfl
  cases i <;> simp only [commandBody, pushSeptets] at h <;> repeat' first | cases h | split at h

/-- Everything a command can do: ERROR mode ignores it, it raises a fault, or it completes. -/
theorem exec_cases {i : Instr} {s t : State} (h : exec i s = .next t) :
    (s.mode = .error ∧ i ≠ .clear ∧ t = s) ∨
      (s.mode ≠ .error ∧ ∃ c, c ≠ ErrCode.none ∧ t = raiseFault c (encode i) s) ∨
      ((s.mode ≠ .error ∨ i = .clear) ∧ Completes i s t) := by
  by_cases hi : i = .clear
  · subst hi
    cases h
    exact .inr (.inr ⟨.inr rfl, rfl⟩)
  · rw [exec_eq_runCommand hi] at h
    rcases runCommand_cases h with ⟨hm, rfl⟩ | ⟨hm, hb⟩ | ⟨hm, c, hb, rfl⟩
    · exact .inl ⟨hm, hi, rfl⟩
    · exact .inr (.inr ⟨.inl hm, completes_of_commandBody hb⟩)
    · exact .inr (.inl ⟨hm, c, commandBody_ne_none hb, rfl⟩)

/-- Every command answers a next state: the spec stops the SPU nowhere. -/
theorem exec_total (i : Instr) (s : State) : ∃ t, exec i s = .next t := by
  by_cases hi : i = .clear
  · subst hi
    exact ⟨_, rfl⟩
  · rw [exec_eq_runCommand hi]
    by_cases hm : s.mode = .error
    · exact ⟨s, runCommand_error hm _ _⟩
    · cases hb : commandBody i s with
      | ok u => exact ⟨u, runCommand_ok hm _ u⟩
      | error c => exact ⟨_, runCommand_fault hm _ c⟩

/-- The result of `C2I` outside ERROR mode (R72). -/
theorem execC2i_next {s : State} (hm : s.mode ≠ .error) (cp : CodePoint) :
    exec (.c2i cp) s = .next (setLresIdx ⟨(charIndex s.rom cp).2, (charIndex s.rom cp).1⟩ s) := by
  rw [exec_eq_runCommand (by simp)]
  exact runCommand_ok hm _ _

/-- The result of `I2C` of an index below 128 outside ERROR mode (R74). -/
theorem execI2c_next {s : State} {idx : BitVec 8} (hm : s.mode ≠ .error) (sel : TableSel) (h : idx.toNat < 128) :
    exec (.i2c sel idx) s =
      .next (setLresChr (lresChrOf (septetChar s.rom (escOf sel) (idx.setWidth 7))) s) := by
  rw [exec_eq_runCommand (by simp)]
  simp only [commandBody, septetOperand_of_lt h]
  exact runCommand_ok hm _ _

/-- The result of `ENC_CHAR` in an open encode session with room for the septets (R84). -/
theorem execEncChar_next {s : State} {cp : CodePoint} {ss : List Septet} (hm : s.mode = .enc)
    (hs : charSeptets s.rom cp = some ss) (hc : s.scount.toNat + ss.length ≤ 65535) :
    exec (.encChar cp) s = .next (commitPush (pushAll s.acc.toNat s.nbits.toNat ss) ss.length s) := by
  rw [exec_eq_runCommand (by simp)]
  simp only [commandBody, hm, hs, ne_eq, not_true_eq_false, if_false, pushSeptets_of_le hc]
  exact runCommand_ok (by simp [hm]) _ _

/-- The result of `ENC_SEPTET` of a septet in an open encode session with room for it (R85). -/
theorem execEncSeptet_next {s : State} {x : BitVec 8} (hm : s.mode = .enc) (hx : x.toNat < 128)
    (hc : s.scount.toNat + 1 ≤ 65535) :
    exec (.encSeptet x) s = .next (commitPush (pushAll s.acc.toNat s.nbits.toNat [x.setWidth 7]) 1 s) := by
  rw [exec_eq_runCommand (by simp)]
  simp only [commandBody, hm, septetOperand_of_lt hx, ne_eq, not_true_eq_false, if_false,
    pushSeptets_of_le (ss := [x.setWidth 7]) hc]
  exact runCommand_ok (by simp [hm]) _ _

/-- The result of `ENC_END` in an open encode session (R86). -/
theorem execEncEnd_next {s : State} (hm : s.mode = .enc) : exec .encEnd s = .next (closeEncode s) := by
  rw [exec_eq_runCommand (by simp)]
  simp only [commandBody, hm, ne_eq, not_true_eq_false, if_false]
  exact runCommand_ok (by simp [hm]) _ _

/-- The result of `DEC_OCTET` in an open decode session with septets owed that all decode (R94). -/
theorem execDecOctet_next {s : State} {o : Octet} {d : Decoded} (hm : s.mode = .dec) (hr : s.remain ≠ 0)
    (hd : decodePulled s (pull s.acc.toNat s.nbits.toNat o s.remain.toNat).seps = some d) :
    exec (.decOctet o) s = .next (commitPull (pull s.acc.toNat s.nbits.toNat o s.remain.toNat) d s) := by
  rw [exec_eq_runCommand (by simp)]
  simp only [commandBody, hm, hr, hd, ne_eq, not_true_eq_false, if_false]
  exact runCommand_ok (by simp [hm]) _ _

/-- `DEC_OCTET` of a septet of an unused slot (R94). -/
theorem execDecOctet_unused {s : State} {o : Octet} (hm : s.mode = .dec) (hr : s.remain ≠ 0)
    (hd : decodePulled s (pull s.acc.toNat s.nbits.toNat o s.remain.toNat).seps = none) :
    exec (.decOctet o) s = .next (raiseFault .unusedSlot (encode (.decOctet o)) s) := by
  rw [exec_eq_runCommand (by simp)]
  simp only [commandBody, hm, hr, hd, ne_eq, not_true_eq_false, if_false]
  exact runCommand_fault (by simp [hm]) _ _

/-- The result of `DEC_END` in a complete decode session (R96). -/
theorem execDecEnd_next {s : State} (hm : s.mode = .dec) (hr : s.remain = 0) (he : s.escPending = false) :
    exec .decEnd s = .next (closeDecode s) := by
  rw [exec_eq_runCommand (by simp)]
  simp only [commandBody, hm, hr, he, ne_eq, not_true_eq_false, if_false, Bool.false_eq_true]
  exact runCommand_ok (by simp [hm]) _ _

end Sys2Proof.Machine
end

