-- ==== Sys2Proof/Laws/Session.lean ====
section
/-! SUPPORT. The register values a session command leaves, as naturals: `commitPush` (R84, R85), `closeEncode` (R86) and
`commitPull` (R94) where nothing exceeds its field. -/

namespace Sys2Proof.Machine

/-- An accumulator of at most 15 valid bits fits `ACC`. -/
theorem acc_fits {acc nb : Nat} (h : acc < 2 ^ nb) (hn : nb ≤ 15) : acc < 2 ^ 15 :=
  lt_of_lt_of_le h (Nat.pow_le_pow_right (by decide) hn)

/-- A count register that is not 0 holds a positive number. -/
theorem toNat_pos_of_ne_zero {n : Count} (h : n ≠ 0) : 0 < n.toNat :=
  Nat.pos_of_ne_zero fun h0 => h (BitVec.eq_of_toNat_eq h0)

/-- What a committed push holds, when nothing exceeds its field. -/
theorem commitPush_toNat {p : Packed} {count : Nat} {s : State} (hacc : p.acc < 2 ^ 15) (hnb : p.nb ≤ 15)
    (hs : s.scount.toNat + count ≤ 65535) (ho : s.ocount.toNat + p.outs.length ≤ 65535) :
    (commitPush p count s).acc.toNat = p.acc ∧ (commitPush p count s).nbits.toNat = p.nb ∧
    (commitPush p count s).scount.toNat = s.scount.toNat + count ∧
    (commitPush p count s).ocount.toNat = s.ocount.toNat + p.outs.length := by
  refine ⟨?_, ?_, ?_, ?_⟩ <;> simp only [commitPush, BitVec.toNat_ofNat, BitVec.toNat_add] <;> omega

/-- What a committed pull holds, when nothing exceeds its field. -/
theorem commitPull_toNat {p : Pulled} {d : Decoded} {s : State} (hacc : p.acc < 2 ^ 15) (hnb : p.nb ≤ 15)
    (hr : p.seps.length ≤ s.remain.toNat) (hs : s.scount.toNat + p.seps.length ≤ 65535)
    (ho : s.ocount.toNat + 1 ≤ 65535) :
    (commitPull p d s).acc.toNat = p.acc ∧ (commitPull p d s).nbits.toNat = p.nb ∧
    (commitPull p d s).remain.toNat = s.remain.toNat - p.seps.length ∧
    (commitPull p d s).scount.toNat = s.scount.toNat + p.seps.length ∧
    (commitPull p d s).ocount.toNat = s.ocount.toNat + 1 := by
  have := s.remain.isLt
  have h1 : (1 : Count).toNat = 1 := rfl
  refine ⟨?_, ?_, ?_, ?_, ?_⟩ <;>
    simp only [commitPull, BitVec.toNat_ofNat, BitVec.toNat_add, BitVec.toNat_sub, h1] <;> omega

/-- The octets an `OUT_OCT` value of at most two octets names are those octets (R26). -/
theorem octets_ofList {os : List Octet} (h : os.length ≤ 2) : (OutOct.ofList os).octets = os := by
  match os, h with
  | [], _ => rfl
  | [_], _ => rfl
  | [_, _], _ => rfl

/-- The septets an `OUT_SEPT` value of at most two septets names are those septets (R27). -/
theorem septets_ofList {ss : List Septet} (h : ss.length ≤ 2) : (OutSept.ofList ss).septets = ss := by
  match ss, h with
  | [], _ => rfl
  | [_], _ => rfl
  | [_, _], _ => rfl

/-- The characters the two `OUT_CHR` values name are the decoded characters, at most two (R28). -/
theorem chars_ofOption {cs : List CodePoint} (h : cs.length ≤ 2) :
    (OutChr.ofOption cs[0]?).chars ++ (OutChr.ofOption cs[1]?).chars = cs := by
  match cs, h with
  | [], _ => rfl
  | [_], _ => rfl
  | [_, _], _ => rfl

/-- One septet decodes to at most one character (R92). -/
theorem decodeStep_length {t : CharTables} {esc : Bool} {x : Septet} {d : Decoded}
    (h : decodeStep t esc x = some d) : d.chars.length ≤ 1 := by
  unfold decodeStep at h
  split at h <;> simp_all
  all_goals (subst h; simp)

/-- Decoding septets gives at most one character for each (R94). -/
theorem decodeSeptets_length {t : CharTables} {esc : Bool} {ss : List Septet} {d : Decoded}
    (h : decodeSeptets t esc ss = some d) : d.chars.length ≤ ss.length := by
  induction ss generalizing esc d with
  | nil => cases h; simp
  | cons x ss ih =>
    simp only [decodeSeptets] at h
    cases hx : decodeStep t esc x with
    | none => simp [hx] at h
    | some a =>
      cases hs : decodeSeptets t a.esc ss with
      | none => simp [hx, hs] at h
      | some b =>
        simp only [hx, hs] at h
        cases h
        have := decodeStep_length hx
        have := ih hs
        simp
        omega

/-- Decoding a concatenation is decoding its parts in order (R94). -/
theorem decodeSeptets_append (t : CharTables) (esc : Bool) (ss us : List Septet) :
    decodeSeptets t esc (ss ++ us) =
      (decodeSeptets t esc ss).bind fun d =>
        (decodeSeptets t d.esc us).map fun e => ⟨e.esc, d.chars ++ e.chars⟩ := by
  induction ss generalizing esc with
  | nil =>
    simp only [List.nil_append, decodeSeptets, Option.bind_some]
    cases decodeSeptets t esc us <;> simp
  | cons x ss ih =>
    simp only [List.cons_append, decodeSeptets]
    cases decodeStep t esc x with
    | none => rfl
    | some a =>
      simp only [ih]
      cases decodeSeptets t a.esc ss with
      | none => rfl
      | some b =>
        simp only [Option.bind_some]
        cases decodeSeptets t b.esc us with
        | none => rfl
        | some c => simp

end Sys2Proof.Machine
end

