-- ==== Sys2Proof/Laws/Host.lean ====
section
/-! SUPPORT. What one access of the host gives, said once: a read, a write of a command, the STATUS check. The host
procedures and the record of a session are proved over these. -/

namespace Sys2Proof.Machine

/-- Issuing an access is the SPU taking it. -/
theorem issue_eq_some {e : BusEvent} {s t : State} : issue e s = some t ↔ takeEvent e s = .next t := by
  unfold issue
  change (match takeEvent e s with
    | .next t => some t
    | .fault _ => none
    | .refused _ => none) = some t ↔ _
  cases takeEvent e s <;> simp

/-- A read of a register of the window is always taken (R45). -/
@[simp] theorem issue_hostRead (r : Reg) (s : State) :
    issue (hostRead r) s = some (respond (readReg r s) s) := by
  rw [issue_eq_some]
  simp [takeEvent, hostRead]

/-- A write of a word that decodes, outside ERROR mode, runs the command (R56). -/
theorem issue_commandWord {s t : State} {w : Word} {i : Instr} (hm : s.mode ≠ .error) (hd : decode w = some i)
    (h : exec i s = .next t) : issue (commandWord w) s = some t := by
  rw [issue_eq_some]
  simp [takeEvent, commandWord, commandWrite, hm, hd, h]

/-- In ERROR mode a write of any word but `CLEAR` is ignored (R115). -/
theorem issue_commandWord_error {s : State} {w : Word} (hm : s.mode = .error) (hw : w ≠ clearWord) :
    issue (commandWord w) s = some s := by
  rw [issue_eq_some]
  simp [takeEvent, commandWord, commandWrite, hm, hw]

/-- `CLEAR` clears every register in every mode (R99). -/
@[simp] theorem issue_clear (s : State) : issue (command .clear) s = some (clearRegs s) := by
  rw [issue_eq_some]
  have he : encode .clear = clearWord := by decide
  have hd : decode clearWord = some .clear := by decide
  simp [takeEvent, command, commandWord, commandWrite, he, hd, exec, execClear]

/-- The host has the value of the register it reads (R45). -/
@[simp] theorem readValue_eq (r : Reg) (s : State) :
    readValue r s = some (readReg r s, respond (readReg r s) s) := by
  simp [readValue]

/-- `STATUS.MODE` is bits [1:0] (R22). -/
theorem statusWord_mode (s : State) : s.statusWord.extractLsb' 0 2 = s.mode.code := by
  apply BitVec.eq_of_getLsbD_eq
  intro k hk
  simp only [State.statusWord, BitVec.getLsbD_extractLsb', BitVec.getLsbD_append]
  interval_cases k <;> simp

/-- `STATUS.ERRCODE` is bits [7:4] (R22). -/
theorem statusWord_errCode (s : State) : s.statusWord.extractLsb' 4 4 = s.errCode.code := by
  apply BitVec.eq_of_getLsbD_eq
  intro k hk
  simp only [State.statusWord, BitVec.getLsbD_extractLsb', BitVec.getLsbD_append]
  interval_cases k <;> simp

/-- The codes of the modes are distinct (R22). -/
theorem modeCode_eq_error {m : Mode} : m.code = Mode.code .error ↔ m = .error := by cases m <;> decide

/-- What the STATUS check does (R103, R107 (e)): outside ERROR mode it only reads; in ERROR mode it has the fault code
and clears the SPU. -/
theorem checkStatus_eq (s : State) :
    checkStatus s =
      if s.mode = .error then
        some (some (.spuFault s.errCode.code), clearRegs (respond s.statusWord s))
      else some (none, respond s.statusWord s) := by
  simp only [checkStatus, readValue_eq, Option.bind_some, readReg, statusWord_mode, statusWord_errCode,
    modeCode_eq_error, issue_clear, Option.map_some]

/-- The octets an `OUT_OCT` value names are those the register holds (R26). -/
theorem octetsOfWord_word (r : OutOct) : octetsOfWord r.word = r.octets := by
  have h0 : r.word.extractLsb' 0 8 = r.oct0 := by
    apply BitVec.eq_of_getLsbD_eq
    intro k hk
    simp only [OutOct.word, BitVec.getLsbD_extractLsb', BitVec.getLsbD_append]
    interval_cases k <;> simp
  have h1 : r.word.extractLsb' 8 8 = r.oct1 := by
    apply BitVec.eq_of_getLsbD_eq
    intro k hk
    simp only [OutOct.word, BitVec.getLsbD_extractLsb', BitVec.getLsbD_append]
    interval_cases k <;> simp
  have hn : r.word.extractLsb' 16 2 = r.octN := by
    apply BitVec.eq_of_getLsbD_eq
    intro k hk
    simp only [OutOct.word, BitVec.getLsbD_extractLsb', BitVec.getLsbD_append]
    interval_cases k <;> simp
  rw [octetsOfWord, h0, h1, hn, OutOct.octets]

/-- The septets an `OUT_SEPT` value names are those the register holds (R27). -/
theorem septetsOfWord_word (r : OutSept) : septetsOfWord r.word = r.septets := by
  have h0 : r.word.extractLsb' 0 7 = r.sept0 := by
    apply BitVec.eq_of_getLsbD_eq
    intro k hk
    simp only [OutSept.word, BitVec.getLsbD_extractLsb', BitVec.getLsbD_append]
    interval_cases k <;> simp
  have h1 : r.word.extractLsb' 8 7 = r.sept1 := by
    apply BitVec.eq_of_getLsbD_eq
    intro k hk
    simp only [OutSept.word, BitVec.getLsbD_extractLsb', BitVec.getLsbD_append]
    interval_cases k <;> simp
  have hn : r.word.extractLsb' 16 2 = r.septN := by
    apply BitVec.eq_of_getLsbD_eq
    intro k hk
    simp only [OutSept.word, BitVec.getLsbD_extractLsb', BitVec.getLsbD_append]
    interval_cases k <;> simp
  rw [septetsOfWord, h0, h1, hn, OutSept.septets]

/-- The character an `OUT_CHR` value names is the one the register holds (R28). -/
theorem charsOfWord_word (r : OutChr) : charsOfWord r.word = r.chars := by
  have h0 : r.word.extractLsb' 0 21 = r.cp := by
    apply BitVec.eq_of_getLsbD_eq
    intro k hk
    simp only [OutChr.word, BitVec.getLsbD_extractLsb', BitVec.getLsbD_append]
    interval_cases k <;> simp
  have hv : r.word.getLsbD 24 = r.valid := by
    simp only [OutChr.word, BitVec.getLsbD_append]
    cases r.valid <;> simp
  rw [charsOfWord, h0, hv, OutChr.chars]

/-- The phase of an ended record: an open one takes the end, an ended one keeps its own (R128). -/
theorem phase_ended (p : SessionPhase) (x : Session) :
    (x.ended p).phase = if x.phase = .isOpen then p else x.phase := by
  unfold Session.ended
  split <;> simp [*]

/-- Ending a record changes neither its kind nor what was read. -/
@[simp] theorem kind_ended (p : SessionPhase) (x : Session) : (x.ended p).kind = x.kind := by
  unfold Session.ended
  split <;> rfl

/-- A read changes neither the kind nor the phase of a record. -/
@[simp] theorem afterRead_kind_phase (r : Reg) (v : Word) (x : Session) :
    (x.afterRead r v).kind = x.kind ∧ (x.afterRead r v).phase = x.phase := by cases r <;> exact ⟨rfl, rfl⟩

/-- After a discard no record is open (R125). -/
theorem discardOpen_not_open {x : Option Session} {y : Session} (h : discardOpen x = some y) : y.phase ≠ .isOpen := by
  simpa using (Option.filter_eq_some_iff.mp h).2

end Sys2Proof.Machine
end

