-- ==== Sys2Proof/Laws/Lookup.lean ====
section
/-! SUPPORT. What the ROM search finds (R70): the least index whose entry is valid and holds the code point. -/

namespace Sys2Proof.Machine

/-- An entry holds a code point when it is valid and its `cp` is that code point. -/
theorem holds_iff (e : RomEntry) (cp : CodePoint) : e.holds cp = true ↔ e.valid = true ∧ e.cp = cp := by
  simp [RomEntry.holds]

/-- The search finds index `i` exactly when its entry holds the code point and no lower one does. -/
theorem romIndex_eq_some {rom : Vector RomEntry 128} {cp : CodePoint} {i : Nat} :
    romIndex rom cp = some i ↔
      ∃ h : i < 128, rom[i].holds cp = true ∧ ∀ j (hj : j < i), rom[j].holds cp = false := by
  unfold romIndex
  rw [List.findIdx?_eq_some_iff_getElem]
  constructor
  · rintro ⟨h, hi, hlow⟩
    have h128 : i < 128 := by simpa using h
    refine ⟨h128, by simpa using hi, fun j hj => ?_⟩
    simpa using hlow j hj
  · rintro ⟨h, hi, hlow⟩
    refine ⟨by simpa using h, by simpa using hi, fun j hj => ?_⟩
    simpa using hlow j hj

/-- The search finds nothing exactly when no entry holds the code point. -/
theorem romIndex_eq_none {rom : Vector RomEntry 128} {cp : CodePoint} :
    romIndex rom cp = none ↔ ∀ j (hj : j < 128), rom[j].holds cp = false := by
  unfold romIndex
  rw [List.findIdx?_eq_none_iff]
  constructor
  · intro h j hj
    exact h _ (by simp)
  · intro h e he
    obtain ⟨j, hj, rfl⟩ := List.getElem_of_mem he
    simpa using h j (by simpa using hj)

/-- An index the search finds fits 7 bits. -/
theorem romIndex_lt {rom : Vector RomEntry 128} {cp : CodePoint} {i : Nat} (h : romIndex rom cp = some i) : i < 128 :=
  (romIndex_eq_some.mp h).1

/-- Which class a lookup answers (R70). -/
theorem charIndex_cases (t : CharTables) (cp : CodePoint) :
    (∃ i, romIndex t.dflt cp = some i ∧ charIndex t cp = (.default, BitVec.ofNat 7 i)) ∨
      (∃ i, romIndex t.dflt cp = none ∧ romIndex t.ext cp = some i ∧
        charIndex t cp = (.extension, BitVec.ofNat 7 i)) ∨
      (romIndex t.dflt cp = none ∧ romIndex t.ext cp = none ∧ charIndex t cp = (.unmapped, 0)) := by
  unfold charIndex
  cases hd : romIndex t.dflt cp with
  | some i => exact .inl ⟨i, rfl, rfl⟩
  | none =>
    cases he : romIndex t.ext cp with
    | some i => exact .inr (.inl ⟨i, rfl, rfl, rfl⟩)
    | none => exact .inr (.inr ⟨rfl, rfl, rfl⟩)

end Sys2Proof.Machine
end

