-- ==== Sys2Proof/Laws/PerInstr.lean ====
section
/-! SUPPORT. What the encoding of each command looks like, one lemma per command: its opcode field is its row's `OPC`
and the reserved bits of its format are 0 (R57, R58). -/

namespace Sys2Proof.Laws

open Sys2Proof

/-- The opcode field and the reserved bits of a command's encoding (R57, R58). -/
def EncodingShape.Statement (i : Instr) : Prop :=
  opcodeField (encode i) = i.opcode.code ∧ encode i &&& i.opcode.format.reservedMask = 0

theorem EncodingShape.nop : EncodingShape.Statement .nop :=
  ⟨opcodeField_encode _, reservedBits_encode _⟩

theorem EncodingShape.clear : EncodingShape.Statement .clear :=
  ⟨opcodeField_encode _, reservedBits_encode _⟩

theorem EncodingShape.c2i (cp : CodePoint) : EncodingShape.Statement (.c2i cp) :=
  ⟨opcodeField_encode _, reservedBits_encode _⟩

theorem EncodingShape.i2c (t : TableSel) (idx : BitVec 8) : EncodingShape.Statement (.i2c t idx) :=
  ⟨opcodeField_encode _, reservedBits_encode _⟩

theorem EncodingShape.encBegin : EncodingShape.Statement .encBegin :=
  ⟨opcodeField_encode _, reservedBits_encode _⟩

theorem EncodingShape.encChar (cp : CodePoint) : EncodingShape.Statement (.encChar cp) :=
  ⟨opcodeField_encode _, reservedBits_encode _⟩

theorem EncodingShape.encSeptet (sept : BitVec 8) : EncodingShape.Statement (.encSeptet sept) :=
  ⟨opcodeField_encode _, reservedBits_encode _⟩

theorem EncodingShape.encEnd : EncodingShape.Statement .encEnd :=
  ⟨opcodeField_encode _, reservedBits_encode _⟩

theorem EncodingShape.decBegin (raw : Bool) (n : Count) : EncodingShape.Statement (.decBegin raw n) :=
  ⟨opcodeField_encode _, reservedBits_encode _⟩

theorem EncodingShape.decOctet (oct : Octet) : EncodingShape.Statement (.decOctet oct) :=
  ⟨opcodeField_encode _, reservedBits_encode _⟩

theorem EncodingShape.decEnd : EncodingShape.Statement .decEnd :=
  ⟨opcodeField_encode _, reservedBits_encode _⟩

end Sys2Proof.Laws
end

