-- ==== Sys2Proof/Machine/Assembler.lean ====
section
/-! DEFINITION. The assembler syntax (R63) and the pseudo-instructions (R64): a line of a host program as the bus
events it stands for. A line is a list of characters. -/

namespace Sys2Proof.Machine

/-- `ENC_TEXT "s"` (R64). -/
def expandEncText (text : List CodePoint) : List BusEvent :=
  command .encBegin :: text.flatMap (fun c => [command (.encChar c), hostRead .outOct]) ++
    [command .encEnd, hostRead .outOct, hostRead .scount]

/-- `ENC_ESC idx` (R64). -/
def expandEncEsc (idx : BitVec 8) : List BusEvent :=
  [command (.encSeptet 27), hostRead .outOct, command (.encSeptet idx), hostRead .outOct]

/-- `DEC_HEX n, o0 o1 ...` (R64). -/
def expandDecHex (n : Count) (os : List Octet) : List BusEvent :=
  command (.decBegin false n) ::
    os.flatMap (fun o => [command (.decOctet o), hostRead .outChr0, hostRead .outChr1]) ++
    [command .decEnd, hostRead .status]

/-- `LOOKUP cp` (R64). -/
def expandLookup (cp : CodePoint) : List BusEvent := [command (.c2i cp), hostRead .lresIdx]

/-- Cut a line at the `;` that starts a comment (R63). DESIGN CHOICE: a `;` inside a quoted character or between a
double quote and the next starts none (assumption log 7). -/
def stripComment (inText : Bool) : List Char → List Char
  | [] => []
  | '"' :: cs => '"' :: stripComment (!inText) cs
  | '\'' :: c :: '\'' :: cs =>
    if inText then '\'' :: stripComment inText (c :: '\'' :: cs) else '\'' :: c :: '\'' :: stripComment inText cs
  | c :: cs => if c = ';' ∧ ¬inText then [] else c :: stripComment inText cs

/-- Blanks around an operand carry nothing. -/
def isBlank (c : Char) : Bool := c = ' ' || c = '\t' || c = '\r'

/-- A list of characters without the blanks at its two ends. -/
def trim (cs : List Char) : List Char := ((cs.dropWhile isBlank).reverse.dropWhile isBlank).reverse

/-- The first word of a line and the rest of it. -/
def splitWord (cs : List Char) : List Char × List Char :=
  (cs.takeWhile (!isBlank ·), trim (cs.dropWhile (!isBlank ·)))

/-- Blank-separated words. -/
def words : List Char → List (List Char)
  | [] => []
  | c :: cs =>
    if isBlank c then [] :: words cs
    else
      match words cs with
      | [] => [[c]]
      | w :: ws => (c :: w) :: ws

/-- Comma-separated operands (R63); a comma inside a quoted character separates nothing (assumption log 7). -/
def splitCommas : List Char → List (List Char)
  | [] => [[]]
  | '\'' :: c :: '\'' :: cs =>
    match splitCommas cs with
    | [] => [['\'', c, '\'']]
    | w :: ws => ('\'' :: c :: '\'' :: w) :: ws
  | c :: cs =>
    if c = ',' then [] :: splitCommas cs
    else
      match splitCommas cs with
      | [] => [[c]]
      | w :: ws => (c :: w) :: ws

/-- The value of a digit in a base of up to 16, either case of letter. -/
def digitValue (base : Nat) (c : Char) : Option Nat :=
  let v := if 48 ≤ c.toNat ∧ c.toNat ≤ 57 then c.toNat - 48
    else if 97 ≤ c.toNat ∧ c.toNat ≤ 102 then c.toNat - 87
    else if 65 ≤ c.toNat ∧ c.toNat ≤ 70 then c.toNat - 55
    else base
  if v < base then some v else none

/-- Digits, most significant first, onto the value so far. -/
def digits (base acc : Nat) : List Char → Option Nat
  | [] => some acc
  | c :: cs => (digitValue base c).bind fun v => digits base (base * acc + v) cs

/-- "numbers are decimal or `0x` hex" (R63). -/
def number : List Char → Option Nat
  | [] => none
  | '0' :: 'x' :: c :: cs => digits 16 0 (c :: cs)
  | cs => digits 10 0 cs

/-- A number that fits a field of `width` bits. -/
def numberField (width : Nat) (cs : List Char) : Option (BitVec width) :=
  (number cs).bind fun n => if n < 2 ^ width then some (BitVec.ofNat width n) else none

/-- "`cp` is a number, a `U+XXXX` literal or a quoted single character" (R63). R63 shows four digits after `U+` and
says no more: DESIGN CHOICE, one or more hex digits of a value below 2^21 are taken (assumption log 7). -/
def cpOperand : List Char → Option CodePoint
  | ['\'', c, '\''] => some (BitVec.ofNat 21 c.toNat)
  | 'U' :: '+' :: c :: cs =>
    (digits 16 0 (c :: cs)).bind fun n => if n < 2 ^ 21 then some (BitVec.ofNat 21 n) else none
  | cs => numberField 21 cs

/-- `DEF` or `EXT` (R63). -/
def tableOperand (cs : List Char) : Option TableSel :=
  if cs = ['D', 'E', 'F'] then some .dflt else if cs = ['E', 'X', 'T'] then some .ext else none

/-- Two hex digits, an octet of `DEC_HEX` (R64). -/
def hexOctet : List Char → Option Octet
  | [a, b] => (digits 16 0 [a, b]).map (BitVec.ofNat 8)
  | _ => none

/-- A list of answers, if every one is there. -/
def allSome {α : Type} : List (Option α) → Option (List α)
  | [] => some []
  | none :: _ => none
  | some a :: rest => (allSome rest).map (a :: ·)

/-- The characters of a text between double quotes (R64). R64 says nothing of a double quote inside the text: DESIGN
CHOICE, everything between the first and the last quote is text, inner quotes included (assumption log 7). -/
def quotedText : List Char → Option (List CodePoint)
  | '"' :: cs =>
    match cs.reverse with
    | '"' :: body => some (body.reverse.map fun c => BitVec.ofNat 21 c.toNat)
    | _ => none
  | _ => none

/-- The register names of R20, for `R NAME` (R63). -/
def regOfName (name : String) : Option Reg :=
  [("CMD", Reg.cmd), ("STATUS", .status), ("ERRCMD", .errCmd), ("LRES_IDX", .lresIdx), ("LRES_CHR", .lresChr),
    ("OUT_OCT", .outOct), ("OUT_SEPT", .outSept), ("OUT_CHR0", .outChr0), ("OUT_CHR1", .outChr1),
    ("SCOUNT", .scount), ("REMAIN", .remain), ("OCOUNT", .ocount), ("ACC", .acc)].lookup name

/-- The operands of a format N command: none at all. -/
def noOperand (i : Instr) (rest : List Char) : Option (List BusEvent) :=
  if rest = [] then some [command i] else none

/-- The bus events a mnemonic with its operand text stands for (R63, R64); `none` when R63 gives the line no form. -/
def assembleCommand (mnemonic : String) (rest : List Char) : Option (List BusEvent) :=
  let ops := (splitCommas rest).map trim
  match mnemonic, ops with
  | "NOP", _ => noOperand .nop rest
  | "CLEAR", _ => noOperand .clear rest
  | "ENC_BEGIN", _ => noOperand .encBegin rest
  | "ENC_END", _ => noOperand .encEnd rest
  | "DEC_END", _ => noOperand .decEnd rest
  | "C2I", [cp] => (cpOperand cp).map fun c => [command (.c2i c)]
  | "ENC_CHAR", [cp] => (cpOperand cp).map fun c => [command (.encChar c)]
  | "I2C", [t, idx] => (tableOperand t).bind fun t => (numberField 8 idx).map fun i => [command (.i2c t i)]
  | "ENC_SEPTET", [x] => (numberField 8 x).map fun v => [command (.encSeptet v)]
  | "DEC_OCTET", [x] => (numberField 8 x).map fun v => [command (.decOctet v)]
  | "DEC_BEGIN", [n] => (numberField 16 n).map fun v => [command (.decBegin false v)]
  | "DEC_BEGIN", [n, r] =>
    if r = ['R', 'A', 'W'] then (numberField 16 n).map fun v => [command (.decBegin true v)] else none
  | "R", _ => (regOfName (String.ofList rest)).map fun r => [hostRead r]
  | "ENC_TEXT", _ => (quotedText rest).map expandEncText
  | "ENC_ESC", [x] => (numberField 8 x).map expandEncEsc
  | "DEC_HEX", [n, os] =>
    (numberField 16 n).bind fun v =>
      (allSome (((words os).filter (· ≠ [])).map hexOctet)).map (expandDecHex v)
  | "LOOKUP", [cp] => (cpOperand cp).map expandLookup
  | _, _ => none

/-- One line of a host program (R63): a command, a host read, a pseudo-instruction, a bare word, or nothing but a
comment. -/
def assembleLine (line : List Char) : Option (List BusEvent) :=
  let body := trim (stripComment false line)
  let w := splitWord body
  if body = [] then some []
  else
    match number body with
    | some n => if n < 2 ^ 32 then some [commandWord (BitVec.ofNat 32 n)] else none
    | none => assembleCommand (String.ofList w.1) w.2

/-- A host program, one command per line (R63); `none` when some line has no form. -/
def assemble (lines : List (List Char)) : Option (List BusEvent) :=
  (allSome (lines.map assembleLine)).map List.flatten

end Sys2Proof.Machine
end

