-- ==== Sys2Proof/Tests/Slice0.lean ====
section
/-! SUPPORT. Tests. Expected values come from the spec: words from the formats of 30_encoding.md, results from the
tables of 95_test_vectors.md (cited by section). Then one witness for every statement that has hypotheses. -/

namespace Sys2Proof.Tests

open Sys2Proof Sys2Proof.Machine

set_option maxRecDepth 100000
set_option Elab.async false

/-! ### Helpers -/

/-- The value of a register after one command. -/
def after (i : Instr) (r : Reg) (s : State) : Option Word :=
  match exec i s with
  | .next t => some (readReg r t)
  | .fault _ => none
  | .refused _ => none

/-- The value of a register after one step. -/
def afterStep (r : Reg) (s : State) : Option Word :=
  match step s with
  | .next t => some (readReg r t)
  | .fault _ => none
  | .refused _ => none

/-- The reset state with a host write of `w` pending. -/
def writing (w : Word) (s : State) : State := { s with pending := [commandWord w] }

/-- An encode session with a given accumulator, fill count and counts. -/
def enc (acc nb sc oc : Nat) : State :=
  { State.reset with
    mode := .enc, acc := BitVec.ofNat 15 acc, nbits := BitVec.ofNat 4 nb, scount := BitVec.ofNat 16 sc,
    ocount := BitVec.ofNat 16 oc }

/-- A decode session with a given accumulator, fill count, septets owed, counts and pending escape. -/
def dec (acc nb rem sc oc : Nat) (esc : Bool) : State :=
  { State.reset with
    mode := .dec, acc := BitVec.ofNat 15 acc, nbits := BitVec.ofNat 4 nb, remain := BitVec.ofNat 16 rem,
    scount := BitVec.ofNat 16 sc, ocount := BitVec.ofNat 16 oc, escPending := esc }

/-- A raw decode session. -/
def rawDec (acc nb rem sc oc : Nat) : State := { dec acc nb rem sc oc false with raw := true }

/-- ERROR mode after the word 0x02000000. -/
def failed : State := { State.reset with mode := .error, errCode := .illegalCommand, errCmd := 0x02000000 }

/-! ### WellFormed: what each check refuses -/

/-- R61: opcodes 0x02, 0x0F, 0x12, 0x1F, 0x24, 0x2F, 0x33 and 0xFF are unlisted. -/
theorem test_wf_refuses_unlisted_opcodes :
    [0x02000000, 0x0F000000, 0x12000000, 0x1F000000, 0x24000000, 0x2F000000, 0x33000000, 0xFF000000].all
      (fun w => !wfWord w && (decode w).isNone) = true := by decide +kernel

/-- R58: the lowest reserved bit of each format, then bit 23. -/
theorem test_wf_refuses_reserved_bits :
    [0x00000001, 0x10200000, 0x11000200, 0x22000100, 0x31000100, 0x30020000, 0x01800000, 0x21800000, 0x11800000,
      0x22800000, 0x31800000, 0x30800000].all (fun w => !wfWord w && (decode w).isNone) = true := by decide +kernel

/-- R69 (a): a character in the escape slot. -/
theorem test_wf_refuses_escape_character :
    ({ CharTables.standard with dflt := CharTables.standard.dflt.set 27 ⟨0x41F, true⟩ } : CharTables).escInvalid
      = false := by decide +kernel

/-- R69 (b): a surrogate, and a value past the last code point. -/
theorem test_wf_refuses_bad_code_points :
    (⟨0xD800, true⟩ : RomEntry).cpInRange = false ∧ (⟨0x110000, true⟩ : RomEntry).cpInRange = false := by decide

/-- R69 (c): a default character repeated in the extension ROM. -/
theorem test_wf_refuses_repeated_code_point :
    ({ CharTables.standard with ext := CharTables.standard.ext.set 0 ⟨0x61, true⟩ } : CharTables).wf = false := by
  decide +kernel

/-- R44: a byte access, a misaligned access, accesses above and below the window. -/
theorem test_wf_refuses_accesses :
    [BusEvent.read 4 1, .read 2 4, .write 0x40 4 0, .read (-4) 4].all (fun e => !e.wf) = true := by decide

theorem test_tables_are_well_formed : CharTables.standard.wf = true := by decide +kernel

/-! ### Decode: one word of each command, written out from R58 -/

theorem test_decode_nop : decode 0b00000000_000_0000_0_0000000_0_00000000 = some .nop := by decide
theorem test_decode_clear : decode 0b00000001_000_0000_0_0000000_0_00000000 = some .clear := by decide
theorem test_decode_c2i : decode 0b00010000_000_1000_1_0000011_0_01111011 = some (.c2i 0x11067B) := by decide
theorem test_decode_i2c : decode 0b00010001_000_0000_0_0000000_1_01100101 = some (.i2c .ext 0x65) := by decide
theorem test_decode_i2c_default : decode 0b00010001_000_0000_0_0000000_0_10000000 = some (.i2c .dflt 128) := by decide
theorem test_decode_encBegin : decode 0b00100000_000_0000_0_0000000_0_00000000 = some .encBegin := by decide
theorem test_decode_encChar : decode 0b00100001_000_0000_0_0010000_0_10101100 = some (.encChar 0x20AC) := by decide
theorem test_decode_encSeptet : decode 0b00100010_000_0000_0_0000000_0_11001000 = some (.encSeptet 200) := by decide
theorem test_decode_encEnd : decode 0b00100011_000_0000_0_0000000_0_00000000 = some .encEnd := by decide
theorem test_decode_decBegin : decode 0b00110000_000_0000_1_1000000_0_00000010 = some (.decBegin true 0x8002) := by
  decide
theorem test_decode_decOctet : decode 0b00110001_000_0000_0_0000000_0_11011001 = some (.decOctet 0xD9) := by decide
theorem test_decode_decEnd : decode 0b00110010_000_0000_0_0000000_0_00000000 = some .decEnd := by decide
theorem test_decodeTableWord : decodeTableWord 32 0x30010002 = some (.decBegin true 2) := by decide

/-! ### Commands, from 95_test_vectors.md sections 4 and 5 -/

theorem test_nop : after .nop .status (enc 1 3 5 4) = some 0x301 := by decide +kernel
theorem test_clear_in_error : after .clear .errCmd failed = some 0 ∧ after .clear .status failed = some 0 := by
  decide +kernel
theorem test_clear_drops_the_partial_octet : after .clear .acc (enc 0x61 7 1 0) = some 0 := by decide +kernel
theorem test_c2i :
    after (.c2i 0x394) .lresIdx State.reset = some 0x10 ∧ after (.c2i 0x20AC) .lresIdx State.reset = some 0x165 := by
  decide +kernel
theorem test_c2i_unmapped :
    after (.c2i 0x1B) .lresIdx State.reset = some 0x200 ∧ after (.c2i 0) .lresIdx State.reset = some 0x200 ∧
      after (.c2i 0x1FFFFF) .lresIdx State.reset = some 0x200 := by decide +kernel
theorem test_i2c :
    after (.i2c .dflt 127) .lresChr State.reset = some 0x010000E0 ∧
      after (.i2c .dflt 27) .lresChr State.reset = some 0x02000000 ∧
      after (.i2c .ext 27) .lresChr State.reset = some 0 := by decide +kernel
theorem test_i2c_range :
    after (.i2c .dflt 128) .status State.reset = some 0x33 ∧
      after (.i2c .dflt 128) .errCmd State.reset = some 0x11000080 := by decide +kernel
theorem test_encBegin_abandons : after .encBegin .status (dec 0 1 2 1 1 true) = some 1 ∧
    after .encBegin .remain (dec 0 1 2 1 1 true) = some 0 := by decide +kernel
theorem test_encChar : after (.encChar 0x62) .outOct (enc 0x61 7 1 0) = some 0x00010061 ∧
    after (.encChar 0x62) .acc (enc 0x61 7 1 0) = some 0x31 ∧
    after (.encChar 0x62) .status (enc 0x61 7 1 0) = some 0x601 := by decide +kernel
theorem test_encChar_extension : after (.encChar 0x7B) .outOct (enc 0 3 5 4) = some 0x0002A0D8 ∧
    after (.encChar 0x7B) .outOct (enc 0 1 7 6) = some 0x00010036 := by decide +kernel
theorem test_encSeptet_overflow : after (.encSeptet 1) .status (enc 0 1 65535 57343) = some 0x153 := by decide +kernel
theorem test_encSeptet_range_after_sequence : after (.encSeptet 200) .status State.reset = some 0x23 ∧
    after (.encSeptet 128) .status (enc 0 0 0 0) = some 0x33 := by decide +kernel
theorem test_encEnd : after .encEnd .outOct (enc 0x31 6 2 1) = some 0x00010031 ∧
    after .encEnd .ocount (enc 0x31 6 2 1) = some 2 ∧ after .encEnd .status (enc 0x31 6 2 1) = some 0 := by
  decide +kernel
theorem test_encEnd_even_group : after .encEnd .outOct (enc 0 0 8 7) = some 0 := by decide +kernel
theorem test_decBegin : after (.decBegin true 2) .status State.reset = some 0xA ∧
    after (.decBegin false 3) .remain (enc 0x61 7 1 0) = some 3 := by decide +kernel
theorem test_decOctet_two_septets : after (.decOctet 0x50) .outSept (dec 0 6 2 6 6 false) = some 0x00022800 ∧
    after (.decOctet 0x10) .outSept (rawDec 7 6 2 6 6) = some 0x00020807 := by decide +kernel
theorem test_decOctet_escape : after (.decOctet 0x32) .outChr0 (dec 1 1 1 1 1 true) = some 0x010020AC ∧
    after (.decOctet 0x0D) .status (dec 1 1 1 1 1 true) = some 0x197 := by decide +kernel
theorem test_decEnd_priority : after .decEnd .status (dec 0 1 1 1 1 true) = some 0x177 ∧
    after .decEnd .status (dec 0 0 0 1 1 true) = some 0x87 := by decide +kernel
theorem test_decEnd : after .decEnd .status (rawDec 0 0 0 2 2) = some 0 ∧
    after .decEnd .scount (rawDec 0 0 0 2 2) = some 2 := by decide +kernel

/-! ### Steps: a fetched word, an illegal word, ERROR mode, reset, an access R44 does not define -/

theorem test_step_runs_the_word : afterStep .status (State.reset.withFetchWord 32 0x20000000) = some 1 := by
  decide +kernel
theorem test_step_illegal : afterStep .status (writing 0x21200061 State.reset) = some 0x13 ∧
    afterStep .errCmd (writing 0x21200061 State.reset) = some 0x21200061 := by decide +kernel
theorem test_step_error_ignores : afterStep .errCmd (writing 0x12000000 failed) = some 0x02000000 ∧
    afterStep .status (writing 0x01000001 failed) = some 0x13 := by decide +kernel
theorem test_step_reset : afterStep .acc { enc 0x61 7 1 0 with pending := [.reset] } = some 0 := by decide +kernel
theorem test_step_refuses_bytes : step { State.reset with pending := [.read 4 1] } = .refused .accessWidth := rfl

/-! ### Streams and host software, from 95_test_vectors.md sections 1 and 2 -/

theorem test_pack : pack [1, 2, 3, 4, 5, 6, 7, 8] = [0x01, 0xC1, 0x80, 0x50, 0x30, 0x1C, 0x10] := by decide +kernel
theorem test_pack_by_groups : packGroups [0x41, 0x42, 0x43, 0x44, 0x45, 0x46, 0x47]
    = [0x41, 0xE1, 0x90, 0x58, 0x34, 0x1E, 0x01] := by decide +kernel
theorem test_unpack_ignores_pad_bits : unpack [0xE1] 1 = [0x61] ∧ unpackGroups [0xFF] 1 = [0x7F] := by decide +kernel
theorem test_hex : hex [0x61, 0x31] = ['6', '1', '3', '1'] ∧ unhex ['6', 'A'] = none := by decide +kernel
theorem test_wide : wideEncode [0xEB] = some [0x00, 0xEB] ∧
    wideEncode [0x1F600] = some [0xD8, 0x3D, 0xDE, 0x00] := by decide +kernel
theorem test_assemble : assembleLine ['C', '2', 'I', ' ', '\'', ';', '\'', ' ', ';', 'x'] = some [command (.c2i 0x3B)] ∧
    assembleLine ['D', 'E', 'C', '_', 'B', 'E', 'G', 'I', 'N', ' ', '2', ',', ' ', 'R', 'A', 'W']
      = some [commandWord 0x30010002] := by decide +kernel

/-! ### Witnesses: a state and operands that meet the hypotheses of each statement, clause by clause -/

/-- Whether one command answers a next state in a given mode. -/
def reaches (i : Instr) (m : Mode) (s : State) : Bool :=
  match exec i s with
  | .next t => decide (t.mode = m)
  | .fault _ => false
  | .refused _ => false

/-- Whether one step answers a next state in a given mode. -/
def stepReaches (m : Mode) (s : State) : Bool :=
  match step s with
  | .next t => decide (t.mode = m)
  | .fault _ => false
  | .refused _ => false

/-- A command that reaches a mode answers a next state in that mode. -/
theorem exists_of_reaches {i : Instr} {m : Mode} {s : State} (h : reaches i m s = true) :
    ∃ t, exec i s = .next t ∧ t.mode = m := by
  obtain ⟨t, ht⟩ := exec_total i s
  exact ⟨t, ht, by simpa [reaches, ht] using h⟩

/-- A step that reaches a mode answers a next state in that mode. -/
theorem exists_of_stepReaches {m : Mode} {s : State} (h : stepReaches m s = true) :
    ∃ t, step s = .next t ∧ t.mode = m := by
  unfold stepReaches at h
  split at h
  · rename_i t ht
    exact ⟨t, ht, by simpa using h⟩
  · cases h
  · cases h

theorem witness_EncodeDecodeAgree : decode 0x1000007B = some (.c2i 0x7B) := by decide +kernel

theorem witness_IllegalWordsFault :
    decode 0x02000000 = none ∧ decode 0xFF000000 = none ∧ decode 0x10200000 = none ∧
    (writing 0x10200000 (enc 0 0 0 0)).pending = [commandWord 0x10200000] ∧
    (writing 0x10200000 (enc 0 0 0 0)).mode ≠ .error := by decide +kernel

theorem witness_OpcodeMapSelectsTheDecodedRow :
    (⟨.encChar, .c, 0x21000000, 0xFFE00000⟩ : OpcodeRow) ∈ opcodeRows ∧
    (0x211FFFFF : Word) &&& 0xFFE00000 = 0x21000000 := by decide +kernel

theorem witness_StepRunsTheDecodedCommand :
    ((writing 0x21000061 (enc 0 0 0 0)).pending = commandWord 0x21000061 :: [] ∧
      decode 0x21000061 = some (.encChar 0x61)) ∧
    ((writing 0x01000001 failed).pending = commandWord 0x01000001 :: [] ∧ failed.mode = .error ∧
      (0x01000001 : Word) ≠ 0x01000000) ∧
    (¬((enc 0 0 0 0).mode = .error ∧ (0x01000001 : Word) ≠ 0x01000000) ∧ decode 0x01000001 = none) := by decide +kernel

theorem witness_OnlyAlignedWindowAccessesAreTaken :
    ({ State.reset with pending := [memRead (Config.regBase + 0x3C) 4] } : State).pending
      = memRead (Config.regBase + 0x3C) 4 :: [] ∧
    (∃ off, Config.regBase + 0x3C = Config.regBase + off ∧ off % 4 = 0 ∧ off ≤ 0x3C) ∧
    (∃ off, Config.regBase = Config.regBase + off ∧ off % 4 = 0 ∧ off ≤ 0x3C) ∧
    ¬(∃ off, Config.regBase + 0x40 = Config.regBase + off ∧ off % 4 = 0 ∧ off ≤ 0x3C) ∧
    ¬(∃ off, Config.regBase + 2 = Config.regBase + off ∧ off % 4 = 0 ∧ off ≤ 0x3C) := by
  refine ⟨rfl, ⟨0x3C, rfl, by decide +kernel, by decide +kernel⟩, ⟨0, rfl, by decide +kernel, by decide +kernel⟩, ?_, ?_⟩ <;>
    (rintro ⟨off, h1, h2, h3⟩; omega)

theorem witness_ReadsAndReadOnlyWritesHaveNoSideEffect :
    ({ failed with pending := [hostRead .cmd, hostRead .acc] } : State).pending = hostRead .cmd :: [hostRead .acc] ∧
    Reg.reserved3C ≠ .cmd ∧
    ({ failed with pending := [.write 0x3C 4 7] } : State).pending = .write Reg.reserved3C.offset 4 7 :: [] := by decide +kernel

theorem witness_ConformingHostIsNeverRefused :
    ({ State.reset with pending := [hostRead .cmd, .write 0x3C 4 7, commandWord 0xFFFFFFFF, .reset] } : State).hostConforms
      = true := by decide +kernel

theorem witness_ResetLeavesEveryRegisterZero :
    ({ failed with pending := [.reset, hostRead .acc] } : State).pending = .reset :: [hostRead .acc] := by decide +kernel

theorem witness_ClearMakesEveryRegisterZero :
    (writing 0x01000001 (enc 0 0 0 0)).pending = commandWord 0x01000001 :: [] ∧ (enc 0 0 0 0).mode ≠ .error ∧
    ((0x01000001 : Word) >>> 24).toNat = 0x01 ∧ (0x01000001 : Word) ≠ 0x01000000 ∧
    (writing 0x20000000 failed).pending = commandWord 0x20000000 :: [] ∧ failed.mode = .error ∧
    (0x20000000 : Word) ≠ 0x01000000 := by decide +kernel

theorem witness_NopChangesNothing :
    (writing 0x00000001 (enc 0 0 0 0)).pending = commandWord 0x00000001 :: [] ∧ (enc 0 0 0 0).mode ≠ .error ∧
    ((0x00000001 : Word) >>> 24).toNat = 0 ∧ (0x00000001 : Word) ≠ 0 := by decide +kernel

theorem witness_C2iWritesTheLookupResult :
    State.reset.mode ≠ .error ∧
    ((State.reset.rom.defAt 127).valid = true ∧ (State.reset.rom.defAt 127).cp = 0xE0 ∧
      ∀ j : Septet, j.toNat < 127 → ¬((State.reset.rom.defAt j).valid = true ∧ (State.reset.rom.defAt j).cp = 0xE0)) ∧
    ((∀ j : Septet, ¬((State.reset.rom.defAt j).valid = true ∧ (State.reset.rom.defAt j).cp = 0x20AC)) ∧
      (State.reset.rom.extAt 0x65).valid = true ∧ (State.reset.rom.extAt 0x65).cp = 0x20AC ∧
      ∀ j : Septet, j.toNat < 0x65 →
        ¬((State.reset.rom.extAt j).valid = true ∧ (State.reset.rom.extAt j).cp = 0x20AC)) ∧
    ((∀ j : Septet, ¬((State.reset.rom.defAt j).valid = true ∧ (State.reset.rom.defAt j).cp = 0)) ∧
      ∀ j : Septet, ¬((State.reset.rom.extAt j).valid = true ∧ (State.reset.rom.extAt j).cp = 0)) := by decide +kernel

theorem witness_I2cWritesTheEntry :
    State.reset.mode ≠ .error ∧ (27 : BitVec 8).toNat < 128 ∧ (127 : BitVec 8).toNat < 128 ∧ (127 : BitVec 8) ≠ 27 ∧
    (State.reset.rom.defAt 127).valid = true ∧ (State.reset.rom.extAt 127).valid = false := by decide +kernel

theorem witness_I2cIndexRangeFaults : State.reset.mode ≠ .error ∧ 128 ≤ (128 : BitVec 8).toNat := by decide +kernel

theorem witness_LookupResultsAreNoFaults :
    ((enc 0 0 0 0).mode ≠ .error ∧ (enc 0 0 0 0).mode = .enc ∧ (charIndex (enc 0 0 0 0).rom 0xEB).1 = .unmapped) ∧
    ((127 : BitVec 8).toNat < 128 ∧ septetChar State.reset.rom (escOf .ext) ((127 : BitVec 8).setWidth 7) = .unused) ∧
    ((dec 0 0 1 1 1 true).mode = .dec ∧ (dec 0 0 1 1 1 true).raw = false ∧ (dec 0 0 1 1 1 true).nbits.toNat ≤ 6 ∧
      0 < (dec 0 0 1 1 1 true).remain.toNat ∧
      septetChar (dec 0 0 1 1 1 true).rom true (BitVec.ofNat 7 (0 ||| ((0x80 : Octet).toNat <<< 0))) = .unused) ∧
    ((dec 27 6 2 6 6 true).nbits.toNat ≤ 6 ∧ 0 < (dec 27 6 2 6 6 true).remain.toNat ∧
      septetChar (dec 27 6 2 6 6 true).rom true (BitVec.ofNat 7 (27 ||| ((0x50 : Octet).toNat <<< 6))) = .unused) := by
  decide +kernel

theorem witness_LookupsRoundTrip :
    CharTables.standard.wf = true ∧ charIndex CharTables.standard 0x40 = (.default, 0) ∧
    charIndex CharTables.standard 0x20AC = (.extension, 0x65) ∧
    septetChar CharTables.standard false 127 = .char 0xE0 ∧ septetChar CharTables.standard true 0x0A = .char 0x0C := by
  decide +kernel

theorem witness_EncBeginOpensASession : (dec 1 1 1 1 1 true).mode ≠ .error := by decide +kernel

theorem witness_EncSeptetPushesOneSeptet :
    ((enc 0 0 0 0).mode = .enc ∧ (127 : BitVec 8).toNat < 128 ∧ (enc 0 0 0 0).scount.toNat < 65535 ∧
      (enc 0 0 0 0).nbits = 0) ∧
    ((enc 1 2 65534 57342).mode = .enc ∧ (enc 1 2 65534 57342).scount.toNat < 65535 ∧
      (enc 1 2 65534 57342).nbits ≠ 0) := by decide +kernel

theorem witness_EncCharPushesItsSeptets :
    ((enc 1 2 65534 57342).mode = .enc ∧ charIndex (enc 1 2 65534 57342).rom 0x61 = (.default, 0x61) ∧
      (enc 1 2 65534 57342).scount.toNat + 1 ≤ 65535) ∧
    ((enc 1 3 65533 57341).mode = .enc ∧ charIndex (enc 1 3 65533 57341).rom 0x7B = (.extension, 0x28) ∧
      (enc 1 3 65533 57341).scount.toNat + 2 ≤ 65535) := by decide +kernel

theorem witness_EncCharEmitsAtMostTwoOctets :
    ((enc 0 7 1 0).mode = .enc ∧ (enc 0 7 1 0).nbits.toNat ≤ 7 ∧
      charIndex (enc 0 7 1 0).rom 0x61 = (.default, 0x61) ∧
      ∃ t, exec (.encChar 0x61) (enc 0 7 1 0) = .next t ∧ t.mode = .enc) ∧
    ((enc 0 1 7 6).nbits.toNat ≤ 7 ∧ charIndex (enc 0 1 7 6).rom 0x7B = (.extension, 0x28) ∧
      ∃ t, exec (.encChar 0x7B) (enc 0 1 7 6) = .next t ∧ t.mode = .enc) ∧
    ((enc 0 2 6 5).nbits.toNat ≤ 7 ∧ ∃ t, exec (.encChar 0x7B) (enc 0 2 6 5) = .next t ∧ t.mode = .enc) :=
  ⟨⟨by decide +kernel, by decide +kernel, by decide +kernel, exists_of_reaches (by decide +kernel)⟩,
    ⟨by decide +kernel, by decide +kernel, exists_of_reaches (by decide +kernel)⟩,
    ⟨by decide +kernel, exists_of_reaches (by decide +kernel)⟩⟩

theorem witness_PushingCommandsFault :
    (enc 0 1 65535 57343).mode = .enc ∧ (charIndex (enc 0 1 65535 57343).rom 0xEB).1 = .unmapped ∧
    (charIndex (enc 0 1 65535 57343).rom 0x61).1 = .default ∧ (enc 0 1 65535 57343).scount.toNat = 65535 ∧
    (charIndex (enc 0 2 65534 57342).rom 0x7B).1 = .extension ∧ 65534 ≤ (enc 0 2 65534 57342).scount.toNat ∧
    128 ≤ (128 : BitVec 8).toNat ∧ (127 : BitVec 8).toNat < 128 := by decide +kernel

theorem witness_EncEndFlushesAndCloses :
    ((enc 0 0 8 7).mode = .enc ∧ (enc 0 0 8 7).nbits = 0) ∧ ((enc 1 1 7 6).mode = .enc ∧ (enc 1 1 7 6).nbits ≠ 0) := by
  decide +kernel

theorem witness_GroupPackingIsPack :
    ([0, 1, 2, 3, 4, 5, 6, 7] : List Septet).length = 8 ∧ 1 ≤ ([27] : List Septet).length ∧
    ([0, 1, 2, 3, 4, 5, 6] : List Septet).length < 8 := by decide +kernel

theorem witness_PackingIsNotSelfDescribing :
    (7 ≠ 8 ∧ payloadLength 7 = payloadLength 8) ∧ (1 ≤ 1 ∧ ([0, 1, 2, 3, 4, 5, 6] : List Septet).length = 8 * 1 - 1) := by
  decide +kernel

theorem witness_EncodeSessionComputesPack :
    State.reset.mode ≠ .error ∧
    pushedSeptets State.reset.rom [.encChar 0x7B, .encSeptet 127] = some [27, 0x28, 127] ∧
    pushedSeptets State.reset.rom [] = some [] ∧ ([27, 0x28, 127] : List Septet).length ≤ 65535 := by decide +kernel

theorem witness_DecBeginOpensASession : (enc 1 1 7 6).mode ≠ .error := by decide +kernel

theorem witness_DecOctetUnpacksRaw :
    ((rawDec 0 5 2 3 3).mode = .dec ∧ (rawDec 0 5 2 3 3).raw = true ∧ (rawDec 0 5 2 3 3).nbits.toNat ≤ 6 ∧
      0 < (rawDec 0 5 2 3 3).remain.toNat ∧ (rawDec 0 5 2 3 3).nbits.toNat < 6) ∧
    ((rawDec 0 6 1 2 2).nbits.toNat ≤ 6 ∧ (rawDec 0 6 1 2 2).remain.toNat = 1) ∧
    ((rawDec 0 6 2 2 2).nbits.toNat = 6 ∧ 2 ≤ (rawDec 0 6 2 2 2).remain.toNat) := by decide +kernel

theorem witness_DecOctetDecodesOneSeptet :
    ((dec 0 0 1 0 0 false).mode = .dec ∧ (dec 0 0 1 0 0 false).raw = false ∧ (dec 0 0 1 0 0 false).nbits.toNat ≤ 6 ∧
      0 < (dec 0 0 1 0 0 false).remain.toNat ∧
      ((dec 0 0 1 0 0 false).nbits.toNat < 6 ∨ (dec 0 0 1 0 0 false).remain.toNat = 1)) ∧
    septetChar (dec 0 0 1 0 0 false).rom false (BitVec.ofNat 7 (0 ||| ((0x1B : Octet).toNat <<< 0))) = .escapeSignal ∧
    septetChar (dec 0 0 1 0 0 false).rom false (BitVec.ofNat 7 (0 ||| ((0x61 : Octet).toNat <<< 0))) = .char 0x61 ∧
    septetChar (dec 0 6 1 2 2 true).rom true (BitVec.ofNat 7 (0 ||| ((0x00 : Octet).toNat <<< 6))) = .unused := by
  decide +kernel

theorem witness_DecOctetDecodesTwoSeptets :
    ((dec 27 6 2 2 2 false).mode = .dec ∧ (dec 27 6 2 2 2 false).raw = false ∧
      (dec 27 6 2 2 2 false).nbits.toNat = 6 ∧ 2 ≤ (dec 27 6 2 2 2 false).remain.toNat) ∧
    decodeStep (dec 27 6 2 2 2 true).rom true (BitVec.ofNat 7 (27 ||| ((0x50 : Octet).toNat <<< 6))) = none ∧
    decodeStep (dec 27 6 2 2 2 false).rom false (BitVec.ofNat 7 (27 ||| ((0x50 : Octet).toNat <<< 6)))
      = some ⟨true, []⟩ ∧
    decodeStep (dec 27 6 2 2 2 false).rom true (BitVec.ofNat 7 ((27 ||| ((0x00 : Octet).toNat <<< 6)) >>> 7)) = none ∧
    decodeStep (dec 27 6 2 2 2 false).rom true (BitVec.ofNat 7 ((27 ||| ((0x50 : Octet).toNat <<< 6)) >>> 7))
      = some ⟨false, [0x7B]⟩ := by decide +kernel

theorem witness_ExtraOctetFaults : (dec 0 0 0 1 1 false).mode = .dec ∧ (dec 0 0 0 1 1 false).remain = 0 := by decide +kernel

theorem witness_DecEndChecksAndCloses :
    (dec 0 1 1 1 1 true).mode = .dec ∧ 0 < (dec 0 1 1 1 1 true).remain.toNat ∧
    ((dec 0 0 0 1 1 true).remain.toNat = 0 ∧ (dec 0 0 0 1 1 true).escPending = true) ∧
    ((dec 0 0 0 1 1 false).remain.toNat = 0 ∧ (dec 0 0 0 1 1 false).escPending = false) := by decide +kernel

theorem witness_StreamingUnpackerComputesUnpack :
    (([0x61, 0x31] : List Octet).length = payloadLength 2 ∧ 1 < ([0x61, 0x31] : List Octet).length) ∧
    ([] : List Octet).length = payloadLength 0 := by decide +kernel

theorem witness_UnpackInvertsPack :
    octetStream [0x61] % 2 ^ (7 * 1) = octetStream [0xE1] % 2 ^ (7 * 1) := by decide +kernel

theorem witness_GroupUnpackingIsUnpack :
    ([1, 2, 3, 4, 5, 6, 7] : List Octet).length = payloadLength 8 ∧ ([0xFF] : List Octet).length = payloadLength 1 := by
  decide +kernel

theorem witness_DecodeSessionComputesUnpack :
    State.reset.mode ≠ .error ∧ ([0x9B, 0x0D] : List Octet).length = payloadLength (2 : Count).toNat ∧
    (runSession extractedSeptets (.decBegin false 1 :: ([0x61].map .decOctet ++ [.decEnd])) State.reset).isSome
      = true ∧
    ([0x9B, 0x32] : List Octet).length = payloadLength (2 : Count).toNat ∧
    decodeSeptets State.reset.rom false (unpack [0x9B, 0x32] (2 : Count).toNat) = some ⟨false, [0x20AC]⟩ ∧
    (runSession decodedChars (.decBegin false 2 :: ([0x9B, 0x32].map .decOctet ++ [.decEnd])) State.reset).map (·.2)
      = some [0x20AC] := by decide +kernel

theorem witness_DecodeSessionRecoversTheText :
    State.reset.mode ≠ .error ∧ State.reset.rom.wf = true ∧
    textSeptets State.reset.rom [0x7B, 0x61, 0x7D] = some [27, 0x28, 0x61, 27, 0x29] ∧
    ([27, 0x28, 0x61, 27, 0x29] : List Septet).length ≤ 65535 := by decide +kernel

theorem witness_FaultsArePrecise :
    (dec 0 0 0 1 1 true).mode ≠ .error ∧ ∃ t, exec .decEnd (dec 0 0 0 1 1 true) = .next t ∧ t.mode = .error :=
  ⟨by decide +kernel, exists_of_reaches (by decide +kernel)⟩

theorem witness_SessionCommandsOutsideTheirSessionFault :
    (State.reset.mode ≠ .error ∧ State.reset.mode ≠ .enc ∧ ∃ x, Instr.encSeptet 200 = .encSeptet x) ∧
    ((enc 0 0 0 0).mode ≠ .error ∧ (enc 0 0 0 0).mode ≠ .dec) := by
  exact ⟨⟨by decide +kernel, by decide +kernel, 200, rfl⟩, by decide +kernel, by decide +kernel⟩

theorem witness_ErrorModeIgnoresEveryWordButClear :
    (failed.mode = .error ∧ (0x01000001 : Word) ≠ 0x01000000 ∧
      (writing 0x01000001 failed).pending = commandWord 0x01000001 :: []) ∧
    ({ failed with pending := [hostRead .errCmd] } : State).pending = hostRead .errCmd :: [] := by decide +kernel

theorem witness_SessionsEndWellOrBadly :
    ((∃ t, step (writing 0x23000000 (enc 1 1 7 6)) = .next t ∧ EndsWell 0x23000000 (writing 0x23000000 (enc 1 1 7 6)) t) ∧
      (writing 0x23000000 (enc 1 1 7 6)).EncInv ∧ (writing 0x23000000 (enc 1 1 7 6)).mode = .enc) ∧
    (∃ t, step (writing 0x32000000 (dec 0 0 0 1 1 false)) = .next t ∧
      EndsWell 0x32000000 (writing 0x32000000 (dec 0 0 0 1 1 false)) t) ∧
    (∃ t, step (writing 0x02000000 (enc 1 1 7 6)) = .next t ∧ EndsBadly (writing 0x02000000 (enc 1 1 7 6)) t) ∧
    (0x20000000 : Word) ≠ 0x01000000 := by
  refine ⟨⟨?_, by decide +kernel, rfl⟩, ?_, ?_, by decide +kernel⟩
  · obtain ⟨t, ht, hm⟩ :=
      exists_of_stepReaches (m := .idle) (s := writing 0x23000000 (enc 1 1 7 6)) (by decide +kernel)
    exact ⟨t, ht, .inl ⟨by decide +kernel, rfl⟩, by simp [hm]⟩
  · obtain ⟨t, ht, hm⟩ :=
      exists_of_stepReaches (m := .idle) (s := writing 0x32000000 (dec 0 0 0 1 1 false)) (by decide +kernel)
    exact ⟨t, ht, .inr ⟨by decide +kernel, rfl⟩, by simp [hm]⟩
  · obtain ⟨t, ht, hm⟩ :=
      exists_of_stepReaches (m := .error) (s := writing 0x02000000 (enc 1 1 7 6)) (by decide +kernel)
    exact ⟨t, ht, .inl rfl, hm⟩

theorem witness_SessionRecordFollowsTheMode :
    SessionAgrees (some (.opened .encode)) (enc 1 1 7 6) ∧
    issue (hostRead .outOct) (enc 1 1 7 6) = some (respond (readReg .outOct (enc 1 1 7 6)) (enc 1 1 7 6)) := by
  refine ⟨⟨⟨fun _ => ⟨_, rfl, rfl, rfl⟩, fun _ => rfl⟩, ⟨fun h => (nomatch h), ?_⟩, fun h => (nomatch h)⟩,
    issue_hostRead _ _⟩
  rintro ⟨y, hy, -, hk⟩
  cases hy
  exact absurd rfl hk

theorem witness_ObservedEncodeSessionGivesPack :
    State.reset.mode ≠ .error ∧
    pushedSeptets State.reset.rom [.encSeptet 127, .encChar 0x7B] = some [127, 27, 0x28] ∧
    ([127, 27, 0x28] : List Septet).length ≤ 65535 := by decide +kernel

theorem witness_ObservedDecodeSessionGivesItsOutput :
    State.reset.mode ≠ .error ∧ ([0x9B, 0x0D] : List Octet).length = payloadLength (2 : Count).toNat ∧
    ([] : List Octet).length = payloadLength (0 : Count).toNat ∧ State.reset.rom.wf = true ∧
    textSeptets State.reset.rom [0x61, 0x20AC] = some [0x61, 27, 0x65] ∧
    ([0x61, 27, 0x65] : List Septet).length ≤ 65535 := by decide +kernel

theorem witness_OnlyClearOrResetLeavesError :
    ((writing 0x01000000 failed).mode = .error ∧ (writing 0x01000000 failed).FaultRecordInv ∧
      ∃ t, step (writing 0x01000000 failed) = .next t ∧ t.mode = .idle) ∧
    (∃ t, step { failed with pending := [.reset] } = .next t ∧ t.mode = .idle) ∧
    ∃ t, step (writing 0x12000000 failed) = .next t ∧ t.mode = .error :=
  ⟨⟨by decide +kernel, by decide +kernel, exists_of_stepReaches (by decide +kernel)⟩, exists_of_stepReaches (by decide +kernel),
    exists_of_stepReaches (by decide +kernel)⟩

theorem witness_StepKeepsTheMachineInvariant :
    (writing 0x2100007B (enc 0 2 6 5)).Inv ∧ ∃ t, step (writing 0x2100007B (enc 0 2 6 5)) = .next t ∧ t.mode = .enc :=
  ⟨⟨by decide +kernel, by decide +kernel, by decide +kernel, by decide +kernel, by decide +kernel, by decide +kernel,
      by decide +kernel, by decide +kernel⟩, exists_of_stepReaches (by decide +kernel)⟩

theorem witness_StepKeepsTheEncodeInvariant :
    (writing 0x2100007B (enc 0 2 6 5)).EncInv ∧ ∃ t, step (writing 0x2100007B (enc 0 2 6 5)) = .next t ∧ t.mode = .enc :=
  ⟨by decide +kernel, exists_of_stepReaches (by decide +kernel)⟩

theorem witness_StepKeepsTheDecodeInvariant :
    ((writing 0x31000031 (dec 0 1 1 1 1 false)).DecInv ∧
      ∃ t, step (writing 0x31000031 (dec 0 1 1 1 1 false)) = .next t ∧ t.mode = .dec) ∧
    (State.reset.mode ≠ .error ∧ ∃ t, exec (.decBegin true 65535) State.reset = .next t ∧ t.mode = .dec) ∧
    ((dec 0 1 1 1 1 false).DecInv ∧ (dec 0 1 1 1 1 false).mode = .dec ∧
      (∀ raw n, Instr.decOctet 0x31 ≠ .decBegin raw n) ∧
      ∃ t, exec (.decOctet 0x31) (dec 0 1 1 1 1 false) = .next t ∧ t.mode = .dec) :=
  ⟨⟨by decide +kernel, exists_of_stepReaches (by decide +kernel)⟩, ⟨by decide +kernel, exists_of_reaches (by decide +kernel)⟩,
    by decide +kernel, by decide +kernel, by simp, exists_of_reaches (by decide +kernel)⟩

theorem witness_StepKeepsTheRoms : ∃ t, step (writing 0x01000000 failed) = .next t ∧ t.mode = .idle :=
  exists_of_stepReaches (by decide +kernel)

theorem witness_LookupsAndSessionsDoNotMix :
    (∃ t, exec (.c2i 0x61) (enc 1 1 7 6) = .next t ∧ t.mode = .enc) ∧
    (∃ t, exec (.i2c .ext 127) (enc 1 1 7 6) = .next t ∧ t.mode = .enc) ∧ (127 : BitVec 8).toNat < 128 ∧
    (∃ t, exec (.i2c .dflt 128) (enc 1 1 7 6) = .next t ∧ t.mode = .error) ∧
    (∃ t, exec .encEnd (enc 1 1 7 6) = .next t ∧ t.mode = .idle) ∧ Instr.encEnd ≠ .clear :=
  ⟨exists_of_reaches (by decide +kernel), exists_of_reaches (by decide +kernel), by decide +kernel,
    exists_of_reaches (by decide +kernel), exists_of_reaches (by decide +kernel), by decide +kernel⟩

theorem witness_OutputsLastUntilTheNextCommandOfTheirKind :
    (∃ t, exec (.c2i 0x61) (enc 1 1 7 6) = .next t ∧ t.mode = .enc) ∧
    (Instr.c2i 0x61).opcode ∉ [Opcode.encChar, .encSeptet, .encEnd, .encBegin, .decBegin, .clear] ∧
    (Instr.c2i 0x61).opcode ∉ [Opcode.decOctet, .encBegin, .decBegin, .clear] :=
  ⟨exists_of_reaches (by decide +kernel), by decide +kernel, by decide +kernel⟩

theorem witness_HexAndUnhexAreInverse :
    unhex ['6', '1', 'f', 'f'] = some [0x61, 0xFF] ∧ (['6'] : List Char).length % 2 = 1 ∧
    'A' ∈ ['6', 'A'] ∧
    'A' ∉ ['0', '1', '2', '3', '4', '5', '6', '7', '8', '9', 'a', 'b', 'c', 'd', 'e', 'f'] := by decide +kernel

theorem witness_WideCodecRoundTrips :
    ([0x61, 0xFFFF, 0x10000, 0x10FFFF] : List CodePoint).all isScalar = true ∧ ([0x00] : List Octet).length % 2 = 1 := by
  decide +kernel

theorem witness_RestrictedTextRoundTrips :
    State.reset.mode ≠ .error ∧ State.reset.rom.wf = true ∧
    textSeptets State.reset.rom [0x5A, 0x20AC] = some [0x5A, 27, 0x65] ∧ textSeptets State.reset.rom [] = some [] ∧
    ([0x5A, 27, 0x65] : List Septet).length ≤ 65535 := by decide +kernel

theorem witness_UnmappedTextFallsBackToWide :
    State.reset.mode ≠ .error ∧ textSeptets State.reset.rom [0x61, 0xEB] = none ∧
    ([0x61, 0xEB] : List CodePoint).all isScalar = true := by decide +kernel

/-- A text of `n` letters `a` is `n` septets. -/
theorem textSeptets_replicate (n : Nat) :
    textSeptets State.reset.rom (List.replicate n 0x61) = some (List.replicate n 0x61) := by
  have ha : charSeptets State.reset.rom 0x61 = some [0x61] := by decide +kernel
  induction n with
  | zero => rfl
  | succ n ih =>
    rw [List.replicate_succ, textSeptets, ha, ih]
    rfl

/-- Whether a host call answers, and with a report of an SPU fault. -/
def reportsFault {α : Type} (r : Option (Except HostError α × State)) (c : BitVec 4) : Bool :=
  match r with
  | some (.error (.spuFault d), _) => d == c
  | some (.error _, _) => false
  | some (.ok _, _) => false
  | none => false

theorem witness_HostReportsAndClearsFaults :
    (State.reset.mode ≠ .error ∧
      textSeptets State.reset.rom (List.replicate 65536 0x61) = some (List.replicate 65536 0x61) ∧
      65535 < (List.replicate 65536 (0x61 : Septet)).length) ∧
    (textToPayload [0x61] State.reset).isSome = true ∧
    reportsFault (payloadToText ['6', '1'] .restricted (some 2) State.reset) (ErrCode.code .truncatedPayload) = true ∧
    unhex ['6', '1'] = some [0x61] ∧
    (runSession decodedChars (.decBegin false 1 :: ([0x61].map .decOctet ++ [.decEnd])) State.reset).map (·.2)
      = some [0x61] ∧
    (Instr.decBegin false 2 :: ([0x61].map .decOctet ++ [.decEnd]) =
        [.decBegin false 2, .decOctet 0x61] ++ .decEnd :: [] ∧
      ∃ u cs v, runSession decodedChars [.decBegin false 2, .decOctet 0x61] State.reset = some (u, cs) ∧
        exec .decEnd u = .next v ∧ v.mode = .error) := by
  refine ⟨⟨by decide +kernel, textSeptets_replicate _, by rw [List.length_replicate]; decide⟩, by decide +kernel,
    by decide +kernel, by decide +kernel, by decide +kernel, rfl, ?_⟩
  have h : ((runSession decodedChars [.decBegin false 2, .decOctet 0x61] State.reset).map
      fun q => reaches .decEnd .error q.1) = some true := by decide +kernel
  obtain ⟨⟨u, cs⟩, hu, hr⟩ := Option.map_eq_some_iff.mp h
  obtain ⟨v, hv, hm⟩ := exists_of_reaches hr
  exact ⟨u, cs, v, hu, hv, hm⟩

/-- 95_test_vectors.md S1 with R128: the output of the session `a`, its last octet read after ENC_END. -/
theorem test_session_output :
    ((issueRecorded [command .encBegin, command (.encChar 0x61), hostRead .outOct, command (.c2i 0x62),
      command .encEnd, hostRead .outOct] State.reset none).bind fun q => q.2.bind Session.output)
      = some (.encode [0x61] 1) := by decide +kernel

/-- R128: an illegal word ends an open session badly, and it then has no output. -/
theorem test_illegal_word_ends_badly :
    ((issueRecorded [command .encBegin, commandWord 0x02000000] State.reset none).bind fun q => q.2.map (·.phase))
      = some (.endedBadly .illegalCommand) := by decide +kernel

end Sys2Proof.Tests
end

/-! Proofs of what every step keeps in an open session (R37, R38) and of reset (R39, R120). -/

namespace Sys2Proof.Machine

/-! ### What a step keeps -/

/-- A property that dropping an event, answering a read, taking a fault and completing a command keep is kept by
every step. Reset is covered because it leaves what a completed `CLEAR` leaves
(R120). -/
theorem step_keeps {P : State → Prop} (hdrop : ∀ rest s, P s → P (dropEvent rest s))
    (hrespond : ∀ v s, P s → P (respond v s))
    (hfault : ∀ c w s, c ≠ .none → s.mode ≠ .error → P s → P (raiseFault c w s))
    (hrun : ∀ i s t, (s.mode ≠ .error ∨ i = .clear) → Completes i s t → P s → P t)
    {s t : State} (hs : P s) (h : step s = .next t) : P t := by
  rcases step_cases h with ⟨-, rfl⟩ | ⟨rest, -, rfl⟩ | ⟨rest, r, -, rfl⟩ | ⟨rest, r, v, -, -, rfl⟩ |
    ⟨rest, w, -, hw⟩
  · exact hs
  · exact hrun .clear _ _ (.inr rfl) rfl (hdrop rest s hs)
  · exact hrespond _ _ (hdrop rest s hs)
  · exact hdrop rest s hs
  · have hd := hdrop rest s hs
    rcases commandWrite_cases hw with ⟨-, -, rfl⟩ | ⟨hg, hn, rfl⟩ | ⟨-, i, -, he⟩
    · exact hd
    · have hm : (dropEvent rest s).mode ≠ .error := by
        intro hm
        obtain rfl : w = clearWord := not_not.mp fun hw => hg ⟨hm, hw⟩
        exact absurd hn (by decide)
      exact hfault _ _ _ (by decide) hm hd
    · rcases exec_cases he with ⟨-, -, rfl⟩ | ⟨hm, c, hc, rfl⟩ | ⟨hm, hc⟩
      · exact hd
      · exact hfault _ _ _ hc hm hd
      · exact hrun _ _ _ hm hc hd

/-- The six ways a command that completes can touch the registers of a session. -/
inductive SessionEffect (i : Instr) (s : State) : State → Prop
  /-- `CLEAR`, `ENC_END` and `DEC_END` leave no session open. -/
  | ends {t : State} (ht : t.mode = .idle) : SessionEffect i s t
  /-- `NOP`, `C2I` and `I2C` write no register of the session. -/
  | lookup (x : LresIdx) (c : LresChr) : SessionEffect i s (setLresChr c (setLresIdx x s))
  /-- `ENC_BEGIN`. -/
  | opensEncode : SessionEffect i s (openEncode s)
  /-- `DEC_BEGIN`. -/
  | opensDecode {raw : Bool} {n : Count} (hi : i = .decBegin raw n) : SessionEffect i s (openDecode raw n s)
  /-- `ENC_CHAR` and `ENC_SEPTET`. -/
  | pushes {ss : List Septet} (hm : s.mode = .enc) (hc : s.scount.toNat + ss.length ≤ 65535) :
    SessionEffect i s (commitPush (pushAll s.acc.toNat s.nbits.toNat ss) ss.length s)
  /-- `DEC_OCTET`. -/
  | pulls {o : Octet} {d : Decoded} (hm : s.mode = .dec) (hr : s.remain ≠ 0)
    (hd : decodePulled s (pull s.acc.toNat s.nbits.toNat o s.remain.toNat).seps = some d) :
    SessionEffect i s (commitPull (pull s.acc.toNat s.nbits.toNat o s.remain.toNat) d s)

/-- Every command that completes does one of these. -/
theorem sessionEffect_of_completes {i : Instr} {s t : State} (h : Completes i s t) : SessionEffect i s t := by
  cases i with
  | nop => obtain rfl := h; exact .lookup t.lresIdx t.lresChr
  | clear => obtain rfl := h; exact .ends rfl
  | c2i cp => obtain rfl := h; exact .lookup ⟨(charIndex s.rom cp).2, (charIndex s.rom cp).1⟩ s.lresChr
  | i2c sel idx => obtain ⟨-, rfl⟩ := h; exact .lookup s.lresIdx _
  | encBegin => obtain rfl := h; exact .opensEncode
  | encChar cp => obtain ⟨hm, ss, -, hc, rfl⟩ := h; exact .pushes hm hc
  | encSeptet x => obtain ⟨hm, -, hc, rfl⟩ := h; exact .pushes (ss := [x.setWidth 7]) hm hc
  | encEnd => obtain ⟨-, rfl⟩ := h; exact .ends rfl
  | decBegin raw n => obtain rfl := h; exact .opensDecode rfl
  | decOctet o => obtain ⟨hm, hr, d, hd, rfl⟩ := h; exact .pulls hm hr hd
  | decEnd => obtain ⟨-, -, -, rfl⟩ := h; exact .ends rfl

/-! ### ENC mode (R37) -/

/-- A push that stays within 65535 septets keeps the invariants of ENC mode. -/
theorem commitPush_encInv {s : State} {ss : List Septet} (hm : s.mode = .enc) (hs : s.EncInv)
    (hc : s.scount.toNat + ss.length ≤ 65535) :
    (commitPush (pushAll s.acc.toNat s.nbits.toNat ss) ss.length s).EncInv := by
  obtain ⟨hnb, hoc, hacc⟩ := hs hm
  obtain ⟨pnb, ple, plt, -⟩ := pushAll_spec ss hacc (by omega)
  obtain ⟨tacc, tnb, tsc, toc⟩ :=
    commitPush_toNat (s := s) (acc_fits plt (by omega)) (by omega) hc (by omega)
  intro _
  rw [tacc, tnb, tsc, toc]
  exact ⟨by omega, by omega, plt⟩

/-- A command that completes keeps the invariants of ENC mode. -/
theorem completes_encInv {i : Instr} {s t : State} (h : Completes i s t) (hs : s.EncInv) : t.EncInv := by
  cases sessionEffect_of_completes h with
  | ends ht => simp [State.EncInv, ht]
  | lookup x c => exact hs
  | opensEncode => simp [State.EncInv]
  | opensDecode hi => simp [State.EncInv]
  | pushes hm hc => exact commitPush_encInv hm hs hc
  | pulls hm hr hd => simp [State.EncInv, hm]

/-- Settles O51: `EncInv` reads no field of the host's, a fault leaves ENC mode, and a completed command keeps it. -/
theorem stepKeepsTheEncodeInvariant : Obligations.StepKeepsTheEncodeInvariant := by
  intro s t hs h
  exact step_keeps (P := State.EncInv) (fun _ _ hs => hs) (fun _ _ hs => hs)
    (fun _ _ _ _ _ _ => by simp [State.EncInv]) (fun _ _ _ _ hc hs => completes_encInv hc hs) hs h

/-! ### DEC mode (R38) -/

/-- What `DEC_OCTET` leaves in the session registers, from a session that meets R38 with septets owed: nothing
exceeds its field. -/
theorem commitPull_pull_toNat {s : State} {p : Pulled} {o : Octet} {d : Decoded} (hm : s.mode = .dec) (hs : s.DecInv)
    (hr : s.remain ≠ 0) (hp : p = pull s.acc.toNat s.nbits.toNat o s.remain.toNat) :
    p.seps.length ≤ s.remain.toNat ∧
    (commitPull p d s).acc.toNat = p.acc ∧ (commitPull p d s).nbits.toNat = p.nb ∧
    (commitPull p d s).remain.toNat = s.remain.toNat - p.seps.length ∧
    (commitPull p d s).scount.toNat = s.scount.toNat + p.seps.length ∧
    (commitPull p d s).ocount.toNat = s.ocount.toNat + 1 := by
  obtain ⟨hsum, hrun, -, hacc, -⟩ := hs hm
  have hpos := toNat_pos_of_ne_zero hr
  obtain ⟨hoc, hnb⟩ := hrun hpos
  obtain ⟨hlen, -, -, -, ple, plt⟩ := pull_spec o hacc hnb hpos
  rw [← hp] at hlen ple plt
  have hle : p.seps.length ≤ s.remain.toNat := by
    rw [hlen]
    split <;> omega
  simp only [Config.countMax] at hsum
  exact ⟨hle, commitPull_toNat (acc_fits plt (by omega)) (by omega) hle (by omega) (by omega)⟩

/-- `DEC_OCTET` moves the septets it extracts from REMAIN to SCOUNT. -/
theorem commitPull_count {s : State} {p : Pulled} {o : Octet} {d : Decoded} (hm : s.mode = .dec) (hs : s.DecInv)
    (hr : s.remain ≠ 0) (hp : p = pull s.acc.toNat s.nbits.toNat o s.remain.toNat) :
    (commitPull p d s).scount.toNat + (commitPull p d s).remain.toNat = s.scount.toNat + s.remain.toNat := by
  obtain ⟨hle, -, -, trem, tsc, -⟩ := commitPull_pull_toNat (d := d) hm hs hr hp
  rw [tsc, trem]
  omega

/-- In a raw session the pending escape is left as it was (R94). -/
theorem decodePulled_raw {s : State} {seps : List Septet} {d : Decoded} (hraw : s.raw = true)
    (h : decodePulled s seps = some d) : d.esc = s.escPending := by
  rw [decodePulled, if_pos hraw] at h
  cases h
  rfl

/-- `DEC_OCTET` keeps the invariants of DEC mode, both while septets are still owed and when the octet gives the last
of them. -/
theorem commitPull_decInv {s : State} {p : Pulled} {o : Octet} {d : Decoded} (hm : s.mode = .dec) (hs : s.DecInv)
    (hr : s.remain ≠ 0) (hp : p = pull s.acc.toNat s.nbits.toNat o s.remain.toNat)
    (hd : decodePulled s p.seps = some d) : (commitPull p d s).DecInv := by
  obtain ⟨hsum, hrun, -, hacc, hesc⟩ := hs hm
  have hpos := toNat_pos_of_ne_zero hr
  obtain ⟨hoc, hnb⟩ := hrun hpos
  obtain ⟨hlen, -, hlast, hmore, ple, plt⟩ := pull_spec o hacc hnb hpos
  rw [← hp] at hlen hlast hmore ple plt
  have hcount := commitPull_count (d := d) hm hs hr hp
  obtain ⟨hle, tacc, tnb, trem, tsc, toc⟩ := commitPull_pull_toNat (d := d) hm hs hr hp
  have hseps : p.seps.length = 1 ∨ p.seps.length = 2 ∧ s.nbits.toNat = 6 := by
    split at hlen <;> omega
  intro _
  refine ⟨hcount ▸ hsum, fun hrem => ?_, fun hrem => ?_, by rwa [tacc, tnb], fun hraw => ?_⟩
  · obtain ⟨hkeep, -⟩ := hmore (by omega)
    rw [toc, tsc, tnb]
    exact ⟨by omega, ple⟩
  · obtain ⟨hacc0, hnb0⟩ := hlast (by omega)
    rw [tnb, tacc, toc, hcount]
    refine ⟨hnb0, hacc0, ?_⟩
    simp only [payloadLength, Config.septetBits]
    omega
  · rw [commitPull_raw] at hraw
    rw [commitPull_escPending, decodePulled_raw hraw hd]
    exact hesc hraw

/-- What `DEC_BEGIN N` opens meets the invariants of DEC mode, for every `N`. -/
theorem openDecode_decInv (raw : Bool) (n : Count) (s : State) : (openDecode raw n s).DecInv := by
  have hn := n.isLt
  intro _
  simp [payloadLength, Config.countMax, Config.septetBits]
  omega

/-- A command that completes keeps the invariants of DEC mode. -/
theorem completes_decInv {i : Instr} {s t : State} (h : Completes i s t) (hs : s.DecInv) : t.DecInv := by
  cases sessionEffect_of_completes h with
  | ends ht => simp [State.DecInv, ht]
  | lookup x c => exact hs
  | opensEncode => simp [State.DecInv]
  | opensDecode hi => exact openDecode_decInv _ _ s
  | pushes hm hc => simp [State.DecInv, hm]
  | pulls hm hr hd => exact commitPull_decInv hm hs hr rfl hd

/-- A command other than `DEC_BEGIN` that completes and leaves the decode session open keeps SCOUNT + REMAIN. -/
theorem completes_count {i : Instr} {s t : State} (h : Completes i s t) (hs : s.DecInv) (hm : s.mode = .dec)
    (hi : ∀ raw n, i ≠ .decBegin raw n) (ht : t.mode = .dec) :
    t.scount.toNat + t.remain.toNat = s.scount.toNat + s.remain.toNat := by
  cases sessionEffect_of_completes h with
  | ends hidle => simp [hidle] at ht
  | lookup x c => rfl
  | opensEncode => simp at ht
  | opensDecode hb => exact absurd hb (hi _ _)
  | pushes henc hc => simp [hm] at henc
  | pulls _ hr hd => exact commitPull_count hm hs hr rfl

/-- `DEC_BEGIN N` outside ERROR mode opens a decode session with SCOUNT + REMAIN = `N` (R93). -/
theorem execDecBegin_count {s t : State} {raw : Bool} {n : Count} (hm : s.mode ≠ .error)
    (h : exec (.decBegin raw n) s = .next t) : t.mode = .dec ∧ t.scount.toNat + t.remain.toNat = n.toNat := by
  rw [exec_eq_runCommand (by simp)] at h
  cases (runCommand_ok hm _ _).symm.trans h
  simp

/-- Settles O52: `DecInv` reads no field of the host's, a fault leaves DEC mode, and a completed command keeps it and,
but for `DEC_BEGIN`, the sum of the counts. -/
theorem stepKeepsTheDecodeInvariant : Obligations.StepKeepsTheDecodeInvariant := by
  refine ⟨fun s t hs h => ?_, fun s t raw n hm h => execDecBegin_count hm h, fun s t i hs hm hi h ht => ?_⟩
  · exact step_keeps (P := State.DecInv) (fun _ _ hs => hs) (fun _ _ hs => hs)
      (fun _ _ _ _ _ _ => by simp [State.DecInv]) (fun _ _ _ _ hc hs => completes_decInv hc hs) hs h
  · rcases exec_cases h with ⟨-, -, rfl⟩ | ⟨-, c, -, rfl⟩ | ⟨-, hc⟩
    · rfl
    · simp at ht
    · exact completes_count hc hs hm hi ht

/-! ### Reset (R39, R120) -/

/-- A step whose next event is reset clears every register. -/
theorem step_reset {s : State} {rest : List BusEvent} (h : s.pending = .reset :: rest) :
    step s = .next (clearRegs (dropEvent rest s)) := by
  simp [step, takeNext, h, takeEvent]

/-- Every register of the window reads 0 after reset (R39). -/
@[simp] theorem readReg_reset (r : Reg) : readReg r State.reset = 0 := by
  cases r <;> decide

/-- Once the registers are cleared, each reads 0, as after reset (R99, R120). -/
@[simp] theorem readReg_clearRegs (r : Reg) (s : State) : readReg r (clearRegs s) = 0 := by
  have h : readReg r (clearRegs s) = readReg r State.reset := by cases r <;> rfl
  rw [h, readReg_reset]

/-- Settles O11: a reset step leaves `clearRegs` of the state, as `CLEAR` does. -/
theorem resetLeavesEveryRegisterZero : Obligations.ResetLeavesEveryRegisterZero := by
  refine ⟨fun s rest h => ⟨clearRegs (dropEvent rest s), step_reset h, fun r => readReg_clearRegs r _, ?_⟩,
    readReg_reset, rfl⟩
  exact ⟨rfl, rfl, rfl, rfl, rfl, rfl, rfl, rfl, rfl⟩

end Sys2Proof.Machine

/-! Proofs of which bus accesses the SPU takes and which it refuses (R44). -/

namespace Sys2Proof.Machine

/-- Every write to CMD answers a next state, whatever the word (R56). -/
theorem commandWrite_total (w : Word) (s : State) : ∃ t, commandWrite w s = .next t := by
  by_cases hg : s.mode = .error ∧ w ≠ clearWord
  · exact ⟨s, by rw [commandWrite, if_pos hg]⟩
  · rw [commandWrite, if_neg hg]
    cases decode w with
    | none => exact ⟨_, rfl⟩
    | some i => exact exec_total i s

/-- A step with an event pending takes the oldest (R50). -/
theorem step_of_pending {s : State} {e : BusEvent} {rest : List BusEvent} (h : s.pending = e :: rest) :
    step s = takeEvent e (dropEvent rest s) := by
  simp [step, takeNext, h]

/-- An access that reaches a register is taken, whether it reads or writes. -/
theorem takeEvent_of_resolve_ok {e : BusEvent} {off : Int} {n : Nat} {v : Word} {r : Reg}
    (he : e = .read off n ∨ e = .write off n v) (hr : resolve off n = .ok r) (s : State) :
    ∃ t, takeEvent e s = .next t := by
  rcases he with rfl | rfl
  · exact ⟨respond (readReg r s) s, by simp [takeEvent, hr]⟩
  · by_cases hc : r = .cmd
    · obtain ⟨t, ht⟩ := commandWrite_total v s
      exact ⟨t, by simp [takeEvent, hr, hc, ht]⟩
    · exact ⟨s, by simp [takeEvent, hr, hc]⟩

/-- An access that reaches no register is refused, for the reason `resolve` gives. -/
theorem takeEvent_of_resolve_error {e : BusEvent} {off : Int} {n : Nat} {v : Word} {why : Refusal}
    (he : e = .read off n ∨ e = .write off n v) (hr : resolve off n = .error why) (s : State) :
    takeEvent e s = .refused why := by
  rcases he with rfl | rfl <;> simp [takeEvent, hr]

/-- The bus addresses that reach a register are REG_BASE plus a multiple of 4 in 0x00 to 0x3C, 32 bits wide (R20,
R44). -/
theorem exists_resolve_busAddr_iff (addr n : Nat) :
    (∃ r, resolve ((addr : Int) - (Config.regBase : Int)) n = .ok r) ↔
      (∃ off, addr = Config.regBase + off ∧ off % 4 = 0 ∧ off ≤ 0x3C) ∧ n = 4 := by
  simp only [resolve_eq_ok, exists_and_left, exists_offset_iff]
  constructor
  · rintro ⟨hn, h0, h1, h2⟩
    exact ⟨⟨addr - Config.regBase, by omega, by omega, by omega⟩, hn⟩
  · rintro ⟨⟨off, rfl, h1, h2⟩, hn⟩
    exact ⟨hn, by omega, by omega, by omega⟩

/-- Settles O7: an access of the window reaches a register and is taken; any other reaches none and is refused. -/
theorem onlyAlignedWindowAccessesAreTaken : Obligations.OnlyAlignedWindowAccessesAreTaken := by
  intro s addr n v rest e he hp
  rw [step_of_pending hp, ← exists_resolve_busAddr_iff]
  refine ⟨fun ⟨r, hr⟩ => takeEvent_of_resolve_ok he hr _, fun hno => ?_⟩
  cases hr : resolve ((addr : Int) - (Config.regBase : Int)) n with
  | ok r => exact absurd ⟨r, hr⟩ hno
  | error why => exact ⟨why, takeEvent_of_resolve_error he hr _⟩

end Sys2Proof.Machine

/-! Proofs of which words are illegal (R60, R61) and of what a write to CMD does with its word (R56). -/

namespace Sys2Proof

/-! ### Illegal words (R61) -/

/-- No row of R60 is found for an `OPC` exactly when no row has it. -/
theorem ofCode_eq_none {c : BitVec 8} : Opcode.ofCode c = none ↔ ∀ op : Opcode, op.code ≠ c := by
  constructor
  · rintro h op rfl
    simp at h
  · intro h
    cases ho : Opcode.ofCode c with
    | none => rfl
    | some op => exact absurd (code_of_ofCode ho) (h op)

/-- The `OPC` values no row has are the 245 of R61. -/
theorem forall_code_ne_iff {c : BitVec 8} :
    (∀ op : Opcode, op.code ≠ c) ↔
      (0x02 ≤ c.toNat ∧ c.toNat ≤ 0x0F) ∨ (0x12 ≤ c.toNat ∧ c.toNat ≤ 0x1F) ∨
        (0x24 ≤ c.toNat ∧ c.toNat ≤ 0x2F) ∨ (0x33 ≤ c.toNat ∧ c.toNat ≤ 0xFF) := by
  constructor
  · intro h
    have hne : ∀ op ∈ Opcode.all, op.code.toNat ≠ c.toNat := fun op _ he => h op (BitVec.eq_of_toNat_eq he)
    simp only [Opcode.all, Opcode.code, List.forall_mem_cons, BitVec.reduceToNat] at hne
    omega
  · rintro h op rfl
    revert h
    cases op <;> decide

/-- The opcode field is what is left of the word above its 24 operand bits (R57). -/
theorem toNat_opcodeField (w : Word) : (opcodeField w).toNat = (w >>> 24).toNat := by
  simp only [opcodeField, BitVec.extractLsb'_toNat, BitVec.toNat_ushiftRight, Nat.shiftRight_eq_div_pow]
  omega

/-- A row has a word's opcode field when its `OPC` is the word's top byte. -/
theorem code_eq_opcodeField_iff {op : Opcode} {w : Word} :
    op.code = opcodeField w ↔ (w >>> 24).toNat = op.code.toNat := by
  rw [← toNat_opcodeField, eq_comm, BitVec.toNat_inj]

/-- Decoding fails exactly when no row has the opcode, or the row that has it finds a reserved bit set (R61, R62). -/
theorem decode_eq_none {w : Word} :
    decode w = none ↔
      (∀ op : Opcode, op.code ≠ opcodeField w) ∨
        ∃ op : Opcode, op.code = opcodeField w ∧ w &&& op.format.reservedMask ≠ 0 := by
  unfold decode
  rw [← ofCode_eq_none]
  cases ho : Opcode.ofCode (opcodeField w) with
  | none => simp
  | some op =>
    have hop : ∀ op' : Opcode, op'.code = opcodeField w ↔ op' = op := fun op' =>
      ⟨fun h => by simpa [← h] using ho, fun h => h ▸ code_of_ofCode ho⟩
    simp [hop]

/-! ### The word of CLEAR (R99) -/

/-- `CLEAR` has one word: its opcode with all 24 operand bits reserved (R58, R99). -/
theorem eq_clearWord_of_decode {w : Word} (h : decode w = some .clear) : w = clearWord := by
  obtain ⟨op, hcode, hres, hi⟩ := decode_eq_some.mp h
  obtain rfl : .clear = op := (congrArg Instr.opcode hi).trans (opcode_withOperands op w)
  have hhigh : w.toNat / 2 ^ 24 = 1 := by
    have := code_eq_opcodeField_iff.mp hcode
    rwa [BitVec.toNat_ushiftRight, Nat.shiftRight_eq_div_pow] at this
  have hlow : w.toNat % 2 ^ 24 = 0 := by
    rw [← Nat.and_two_pow_sub_one_eq_mod]
    exact congrArg BitVec.toNat hres
  apply BitVec.eq_of_toNat_eq
  change w.toNat = 0x01000000
  omega

namespace Machine

/-! ### A write to CMD (R56) -/

/-- In ERROR mode every word but `CLEAR` is ignored (R56 step 1, R115). -/
theorem commandWrite_ignored {s : State} {w : Word} (hm : s.mode = .error) (hw : w ≠ clearWord) :
    commandWrite w s = .next s := by
  rw [commandWrite, if_pos ⟨hm, hw⟩]

/-- A word that is not ignored and does not decode raises ILLEGAL_COMMAND (R56 step 2, R61). -/
theorem commandWrite_illegal {s : State} {w : Word} (hg : ¬(s.mode = .error ∧ w ≠ clearWord))
    (hd : decode w = none) : commandWrite w s = .next (raiseFault .illegalCommand w s) := by
  rw [commandWrite, if_neg hg, hd]

/-- A word that decodes does what its command does, ERROR mode included: there a word other than `CLEAR` decodes to a
command other than `CLEAR`, which its own guard ignores (R56 steps 1 and 3, R115). -/
theorem commandWrite_decoded {w : Word} {i : Instr} (hd : decode w = some i) (s : State) :
    commandWrite w s = exec i s := by
  by_cases hg : s.mode = .error ∧ w ≠ clearWord
  · obtain ⟨hm, hw⟩ := hg
    have hi : i ≠ .clear := by
      rintro rfl
      exact hw (eq_clearWord_of_decode hd)
    rw [commandWrite_ignored hm hw, exec_eq_runCommand hi, runCommand_error hm]
  · rw [commandWrite, if_neg hg, hd]

/-- Settles O3: the illegal words are those no row of R60 accepts, and a write of one outside ERROR mode is a fault. -/
theorem illegalWordsFault : Obligations.IllegalWordsFault := by
  intro w
  refine ⟨?_, fun hd s rest hp hm => ?_⟩
  · rw [decode_eq_none, forall_code_ne_iff, toNat_opcodeField]
    simp only [code_eq_opcodeField_iff]
  · rw [step_commandWord hp]
    exact commandWrite_illegal (fun hg => hm hg.1) hd

/-- Settles O6: the step is the write to CMD on the state without the access, by R56's three cases. -/
theorem stepRunsTheDecodedCommand : Obligations.StepRunsTheDecodedCommand := by
  intro s w rest hp
  rw [step_commandWord hp]
  refine ⟨fun hm hw => ?ignored, fun hg hd => ?illegal, fun i hd => ?decoded⟩
  case ignored => exact commandWrite_ignored hm hw
  case illegal => exact commandWrite_illegal hg hd
  case decoded => exact commandWrite_decoded hd _

end Machine

end Sys2Proof

/-! Proofs of the round-trip laws of the two lookup functions (R73). -/

namespace Sys2Proof.Machine

/-! ### Well-formed ROM contents (R69) -/

/-- Two entries are not both valid with one code point, as R69 (c) asks of every two entries. -/
def RomEntry.DistinctFrom (e f : RomEntry) : Prop := e.valid = true → f.valid = true → e.cp ≠ f.cp

/-- Distinct entries do not both hold one code point. -/
theorem RomEntry.DistinctFrom.not_both_hold {e f : RomEntry} {cp : CodePoint} (h : e.DistinctFrom f)
    (he : e.holds cp = true) (hf : f.holds cp = true) : False := by
  obtain ⟨hev, hec⟩ := (holds_iff _ _).mp he
  obtain ⟨hfv, hfc⟩ := (holds_iff _ _).mp hf
  exact h hev hfv (hec.trans hfc.symm)

/-- R69 (c) by pairs of entries. -/
theorem cpsDistinct_iff (t : CharTables) : t.cpsDistinct = true ↔ t.entries.Pairwise RomEntry.DistinctFrom := by
  rw [CharTables.cpsDistinct, CharTables.validCps, decide_eq_true_eq, List.Nodup, List.pairwise_map,
    List.pairwise_filter]
  rfl

/-- R69 (c) by tables: distinct code points within each ROM and across both. -/
theorem distinctFrom_of_wf {t : CharTables} (h : t.wf = true) :
    t.dflt.toList.Pairwise RomEntry.DistinctFrom ∧ t.ext.toList.Pairwise RomEntry.DistinctFrom ∧
      ∀ i j : Septet, (t.defAt i).DistinctFrom (t.extAt j) := by
  simp only [CharTables.wf, Bool.and_eq_true, cpsDistinct_iff, CharTables.entries, List.pairwise_append] at h
  obtain ⟨-, hd, he, hx⟩ := h
  exact ⟨hd, he, fun i j => hx _ (by simp [CharTables.defAt]) _ (by simp [CharTables.extAt])⟩

/-- R69 (a): the escape slot of the default ROM holds no code point. -/
theorem ne_esc_of_defAt_holds {t : CharTables} {cp : CodePoint} {i : Septet} (h : t.wf = true)
    (hi : (t.defAt i).holds cp = true) : i ≠ Config.esc := by
  rintro rfl
  simp only [CharTables.wf, CharTables.escInvalid, Bool.and_eq_true, Bool.not_eq_true'] at h
  obtain ⟨⟨hesc, -⟩, -⟩ := h
  obtain ⟨hvalid, -⟩ := (holds_iff _ _).mp hi
  exact absurd (hvalid.symm.trans hesc) (by decide)

/-! ### `septetChar` (R71) -/

/-- An entry answers a character exactly when it holds it. -/
theorem toSeptetChar_eq_char {e : RomEntry} {cp : CodePoint} : e.toSeptetChar = .char cp ↔ e.holds cp = true := by
  rw [holds_iff, RomEntry.toSeptetChar]
  split <;> simp [*]

/-- `septetChar` of the extension table answers the characters its entries hold. -/
theorem septetChar_ext_eq_char {t : CharTables} {cp : CodePoint} {i : Septet} :
    septetChar t true i = .char cp ↔ (t.extAt i).holds cp = true := by
  simp [septetChar, toSeptetChar_eq_char]

/-- `septetChar` of the default table answers the characters its entries hold, but for the escape slot. -/
theorem septetChar_dflt_eq_char {t : CharTables} {cp : CodePoint} {i : Septet} :
    septetChar t false i = .char cp ↔ i ≠ Config.esc ∧ (t.defAt i).holds cp = true := by
  rw [septetChar, if_neg Bool.false_ne_true]
  split
  next hi => exact ⟨nofun, fun ⟨hne, _⟩ => absurd hi hne⟩
  next hi => rw [toSeptetChar_eq_char, and_iff_right hi]

/-! ### `charIndex` (R70) -/

/-- In a ROM without a repeated code point the search finds every index that holds the code point, not only the
least. -/
theorem romIndex_eq_some_of_pairwise {rom : Vector RomEntry 128} {cp : CodePoint}
    (h : rom.toList.Pairwise RomEntry.DistinctFrom) (i : Septet) :
    romIndex rom cp = some i.toNat ↔ (rom[i.toNat]'i.isLt).holds cp = true := by
  rw [romIndex_eq_some]
  refine ⟨fun ⟨_, hi, _⟩ => hi, fun hi => ⟨i.isLt, hi, fun j hj => ?_⟩⟩
  have hdistinct : (rom[j]'(hj.trans i.isLt)).DistinctFrom (rom[i.toNat]'i.isLt) := by
    have := List.pairwise_iff_getElem.mp h j i.toNat (by simp; omega) (by simp [i.isLt]) hj
    rwa [Vector.getElem_toList, Vector.getElem_toList] at this
  exact Bool.eq_false_iff.mpr fun hholds => hdistinct.not_both_hold hholds hi

/-- The index a search finds is the septet it is written as. -/
theorem ofNat_eq_iff_of_romIndex {rom : Vector RomEntry 128} {cp : CodePoint} {n : Nat} {i : Septet}
    (h : romIndex rom cp = some n) : BitVec.ofNat 7 n = i ↔ romIndex rom cp = some i.toNat := by
  have hn : (BitVec.ofNat 7 n).toNat = n := by
    simpa using Nat.mod_eq_of_lt (romIndex_lt h)
  rw [h, Option.some_inj, ← BitVec.toNat_inj, hn]

/-- `charIndex` answers class DEFAULT with what the search of the default ROM finds. -/
theorem charIndex_eq_default {t : CharTables} {cp : CodePoint} {i : Septet} :
    charIndex t cp = (.default, i) ↔ romIndex t.dflt cp = some i.toNat := by
  rcases charIndex_cases t cp with ⟨n, hd, hc⟩ | ⟨n, hd, -, hc⟩ | ⟨hd, -, hc⟩
  · simp [hc, ofNat_eq_iff_of_romIndex hd]
  · simp [hc, hd]
  · simp [hc, hd]

/-- `charIndex` answers class EXTENSION with what the search of the extension ROM finds, when the default ROM has
nothing. -/
theorem charIndex_eq_extension {t : CharTables} {cp : CodePoint} {i : Septet} :
    charIndex t cp = (.extension, i) ↔ romIndex t.dflt cp = none ∧ romIndex t.ext cp = some i.toNat := by
  rcases charIndex_cases t cp with ⟨n, hd, hc⟩ | ⟨n, hd, he, hc⟩ | ⟨hd, he, hc⟩
  · simp [hc, hd]
  · simp [hc, hd, ofNat_eq_iff_of_romIndex he]
  · simp [hc, he]

/-! ### The laws (R73) -/

/-- With ROM contents that meet R69, the default index of a code point is the one whose entry holds it. -/
theorem charIndex_eq_default_iff_holds {t : CharTables} {cp : CodePoint} {i : Septet} (h : t.wf = true) :
    charIndex t cp = (.default, i) ↔ (t.defAt i).holds cp = true := by
  obtain ⟨hdflt, -, -⟩ := distinctFrom_of_wf h
  rw [charIndex_eq_default, romIndex_eq_some_of_pairwise hdflt]
  rfl

/-- With ROM contents that meet R69, the extension index of a code point is the one whose entry holds it: then no
default entry does. -/
theorem charIndex_eq_extension_iff_holds {t : CharTables} {cp : CodePoint} {i : Septet} (h : t.wf = true) :
    charIndex t cp = (.extension, i) ↔ (t.extAt i).holds cp = true := by
  obtain ⟨-, hext, hcross⟩ := distinctFrom_of_wf h
  rw [charIndex_eq_extension, romIndex_eq_some_of_pairwise hext]
  refine ⟨fun ⟨_, hi⟩ => hi, fun hi => ⟨romIndex_eq_none.mpr fun j hj => ?_, hi⟩⟩
  have hdistinct := hcross (BitVec.ofNat 7 j) i
  simp only [CharTables.defAt, BitVec.toNat_ofNat, Nat.mod_eq_of_lt hj] at hdistinct
  exact Bool.eq_false_iff.mpr fun hholds => hdistinct.not_both_hold hholds hi

/-- Settles O18: with ROM contents that meet R69 both functions say which entry holds the code point, and the escape
slot holds none. -/
theorem lookupsRoundTrip : Obligations.LookupsRoundTrip := by
  intro t cp i h
  rw [charIndex_eq_default_iff_holds h, charIndex_eq_extension_iff_holds h, septetChar_dflt_eq_char,
    septetChar_ext_eq_char]
  refine ⟨fun hi => ?_, id, fun ⟨_, hi⟩ => hi, id⟩
  have hne := ne_esc_of_defAt_holds h hi
  exact ⟨hne, hne, hi⟩

end Sys2Proof.Machine

/-! Proofs that the streaming packer, the per-group formulas and an encode session compute `pack` (R76, R80, R87). -/

namespace Sys2Proof.Machine

/-! ### The streaming packer (R80) -/

/-- The octets of a payload, written out (R77). -/
theorem payloadLength_eq (n : Nat) : payloadLength n = (7 * n + 7) / 8 := rfl

/-- Octets that are as many as the payload's and carry its stream are the payload (R75). -/
theorem eq_pack_of_octetStream {os : List Octet} {ss : List Septet} (hlen : os.length = payloadLength ss.length)
    (hstream : octetStream os = septetStream ss) : os = pack ss :=
  octetStream_inj (by rw [hlen, pack_length]) (by rw [hstream, octetStream_pack])

/-- After pushing a sequence from an empty accumulator, `7 j mod 8` bits are held and `7 j div 8` octets are out: the
fill count stays below 8. -/
theorem pushAll_empty_counts (ss : List Septet) :
    (pushAll 0 0 ss).nb = 7 * ss.length % 8 ∧ (pushAll 0 0 ss).outs.length = 7 * ss.length / 8 := by
  obtain ⟨hbits, hle, -, -⟩ := pushAll_spec ss (acc := 0) (nb := 0) (by decide) (by decide)
  omega

/-- After pushing a sequence from an empty accumulator, the accumulator is the stream above the octets emitted. -/
theorem pushAll_empty_acc (ss : List Septet) :
    (pushAll 0 0 ss).acc = septetStream ss >>> (8 * (pushAll 0 0 ss).outs.length) := by
  obtain ⟨-, -, -, hstream⟩ := pushAll_spec ss (acc := 0) (nb := 0) (by decide) (by decide)
  have hlt := octetStream_lt (pushAll 0 0 ss).outs
  rw [Nat.zero_add, Nat.pow_zero, Nat.one_mul] at hstream
  rw [← hstream, Nat.shiftRight_eq_div_pow, Nat.add_mul_div_left _ _ (Nat.two_pow_pos _), Nat.div_eq_of_lt hlt,
    Nat.zero_add]

/-- Pushing a sequence from an empty accumulator and flushing emits its payload: the flushed octet is what the
accumulator still holds of the stream. -/
theorem pushAll_empty_flush (ss : List Septet) :
    (pushAll 0 0 ss).outs ++ flush (pushAll 0 0 ss).acc (pushAll 0 0 ss).nb = pack ss := by
  obtain ⟨hbits, hle, hlt, hstream⟩ := pushAll_spec ss (acc := 0) (nb := 0) (by decide) (by decide)
  obtain ⟨hflush, hrest⟩ := flush_spec hlt hle
  apply eq_pack_of_octetStream
  · rw [List.length_append, hflush, payloadLength_eq]
    split <;> omega
  · rw [octetStream_append, hrest, hstream]
    simp

/-- Settles O26: the packer keeps the stream and holds fewer than 8 bits back, which `flush` emits. -/
theorem streamingPackerComputesPack : Obligations.StreamingPackerComputesPack := by
  intro ss
  obtain ⟨hnb, houts⟩ := pushAll_empty_counts ss
  exact ⟨pushAll_empty_flush ss, hnb, houts, houts ▸ pushAll_empty_acc ss⟩

/-! ### Packing by groups (R76) -/

/-- Octet `i` of a group by the source's formula (R76), with the septet past the end of the group read as 0. -/
def groupOctet (g : List Septet) (i : Nat) : Octet :=
  BitVec.ofNat 8 ((groupAt g i >>> i) ||| ((groupAt g (i + 1) <<< (7 - i)) &&& 0xFF))

/-- Past its end a group is read as 0. -/
theorem groupAt_of_length_le {g : List Septet} {i : Nat} (h : g.length ≤ i) : groupAt g i = 0 := by
  rw [groupAt, List.getD_eq_default _ _ h]
  rfl

/-- Element `i` of a group is a septet. -/
theorem groupAt_lt (g : List Septet) (i : Nat) : groupAt g i < 2 ^ 7 := (g.getD i 0).isLt

/-- The stream from septet `i` on is septet `i` and the stream of the septets after it. -/
theorem septetStream_drop (g : List Septet) (i : Nat) :
    septetStream (g.drop i) = groupAt g i + 2 ^ 7 * septetStream (g.drop (i + 1)) := by
  by_cases hi : i < g.length
  · rw [List.drop_eq_getElem_cons hi, septetStream_cons, groupAt, List.getD_eq_getElem _ _ hi]
  · have hle : g.length ≤ i := Nat.not_lt.mp hi
    simp [groupAt_of_length_le hle, List.drop_eq_nil_of_le, hle, Nat.le_succ_of_le hle]

/-- The stream without its low `7 i` bits is the stream from septet `i` on. -/
theorem septetStream_shiftRight (g : List Septet) (i : Nat) :
    septetStream g >>> (7 * i) = septetStream (g.drop i) := by
  induction i with
  | zero => simp
  | succ i ih =>
    have hlt := groupAt_lt g i
    rw [Nat.mul_succ, Nat.shiftRight_add, ih, septetStream_drop, Nat.shiftRight_eq_div_pow]
    omega

/-- Of the stream from septet `i` on, without its low `i` bits, two septets reach the low 8 bits. -/
theorem septetStream_drop_shiftRight (g : List Septet) {i : Nat} (hi : i ≤ 6) :
    septetStream (g.drop i) >>> i = groupAt g i >>> i + 2 ^ (7 - i) * groupAt g (i + 1) +
      2 ^ 8 * (2 ^ (6 - i) * septetStream (g.drop (i + 2))) := by
  have h7 : 2 ^ 7 = 2 ^ i * 2 ^ (7 - i) := by rw [← Nat.pow_add]; congr 1; omega
  have h14 : 2 ^ 7 * 2 ^ 7 = 2 ^ i * (2 ^ 8 * 2 ^ (6 - i)) := by simp only [← Nat.pow_add]; congr 1; omega
  have hsum : septetStream (g.drop i) = groupAt g i +
      2 ^ i * (2 ^ (7 - i) * groupAt g (i + 1) + 2 ^ 8 * (2 ^ (6 - i) * septetStream (g.drop (i + 2)))) := by
    rw [septetStream_drop, septetStream_drop g (i + 1)]
    linear_combination (groupAt g (i + 1)) * h7 + septetStream (g.drop (i + 2)) * h14
  rw [hsum, Nat.shiftRight_eq_div_pow, Nat.add_mul_div_left _ _ (Nat.two_pow_pos i), ← Nat.shiftRight_eq_div_pow,
    Nat.add_assoc]

/-- What is left of septet `i` without its low `i` bits stays below the bits the next septet is moved to. -/
theorem groupAt_shiftRight_lt (g : List Septet) {i : Nat} (hi : i ≤ 6) : groupAt g i >>> i < 2 ^ (7 - i) := by
  rw [Nat.shiftRight_eq_div_pow, Nat.div_lt_iff_lt_mul (Nat.two_pow_pos _), ← Nat.pow_add]
  exact lt_of_lt_of_eq (groupAt_lt g i) (by congr 1; omega)

/-- The source's formula gives octet `i` of the stream (R75, R76). -/
theorem groupOctet_eq_slice (g : List Septet) {i : Nat} (hi : i ≤ 6) :
    groupOctet g i = BitVec.ofNat 8 ((septetStream g >>> (8 * i)) &&& 0xFF) := by
  have hshift : septetStream g >>> (8 * i) = septetStream (g.drop i) >>> i := by
    rw [← septetStream_shiftRight, ← Nat.shiftRight_add]
    congr 1
    omega
  apply BitVec.eq_of_toNat_eq
  simp only [groupOctet, BitVec.toNat_ofNat, and_255, Nat.mod_mod, Nat.or_mod_two_pow]
  rw [← Nat.or_mod_two_pow, or_shift_eq_add (groupAt_shiftRight_lt g hi), hshift, septetStream_drop_shiftRight g hi,
    Nat.add_mul_mod_self_left]

/-- A full group is 7 octets (R76). -/
theorem payloadLength_eight : payloadLength 8 = 7 := rfl

/-- A group that is not full is as many octets as septets (R76). -/
theorem payloadLength_of_lt_eight {k : Nat} (h : k < 8) : payloadLength k = k := by
  rw [payloadLength_eq]
  omega

/-- The formula of R76 for the last octet of a group that is not full is the formula for every octet: the septet past
the end is 0. -/
theorem packGroup_eq_map {g : List Septet} (h : g.length ≤ 8) :
    packGroup g = (List.range (payloadLength g.length)).map (groupOctet g) := by
  rcases Nat.eq_or_lt_of_le h with hfull | hlt
  · simp [packGroup, groupOctet, hfull, payloadLength_eight]
  · rw [payloadLength_of_lt_eight hlt]
    cases hk : g.length with
    | zero => simp [packGroup, hk]
    | succ k =>
      have hpart : 7 * (k + 1) % 8 ≠ 0 := by omega
      have hend : groupAt g (k + 1) = 0 := groupAt_of_length_le (by omega)
      simp [packGroup, groupOctet, hk, hpart, hend, List.range_succ]

/-- One group of at most 8 septets by the source's formulas is its payload (R76). -/
theorem packGroup_eq_pack {g : List Septet} (h : g.length ≤ 8) : packGroup g = pack g := by
  rw [packGroup_eq_map h, pack]
  refine List.map_congr_left fun i hi => groupOctet_eq_slice g ?_
  have hlt := List.mem_range.mp hi
  rw [payloadLength_eq] at hlt
  omega

/-- A full group takes whole octets, so the payload of what follows it starts a new octet. -/
theorem pack_append_of_length_eight {g : List Septet} (hg : g.length = 8) (ss : List Septet) :
    pack (g ++ ss) = pack g ++ pack ss := by
  symm
  apply eq_pack_of_octetStream
  · simp only [List.length_append, pack_length, payloadLength_eq, hg]
    omega
  · simp [octetStream_append, octetStream_pack, septetStream_append, payloadLength_eq, hg]

/-- A list of at least 8 elements starts with 8 elements. -/
theorem exists_group_of_le {α : Type} {xs : List α} (h : 8 ≤ xs.length) :
    ∃ a b c d e f g i rest, xs = a :: b :: c :: d :: e :: f :: g :: i :: rest := by
  match xs, h with
  | a :: b :: c :: d :: e :: f :: g :: i :: rest, _ => exact ⟨a, b, c, d, e, f, g, i, rest, rfl⟩

/-- Packing by groups is `pack`, for every sequence. -/
theorem packGroups_eq_pack (ss : List Septet) : packGroups ss = pack ss := by
  induction ss using packGroups.induct with
  | case1 => rfl
  | case2 a b c d e f g h rest ih =>
    rw [packGroups, packGroup_eq_pack (by simp), ih, ← pack_append_of_length_eight rfl]
    rfl
  | case3 last hne hshort =>
    have hlt : last.length < 8 := Nat.not_le.mp fun hle => by
      obtain ⟨a, b, c, d, e, f, g, h, rest, hlast⟩ := exists_group_of_le hle
      exact hshort a b c d e f g h rest hlast
    rw [packGroups.eq_3 _ hne hshort, packGroup_eq_pack (by omega)]

/-- Settles O27: group by group the formulas cut the same octets out of the stream. -/
theorem groupPackingIsPack : Obligations.GroupPackingIsPack := by
  refine ⟨packGroups_eq_pack, fun g hg => ?_, fun g _ hlt => ?_⟩
  · rw [packGroup_eq_pack (by omega), pack_length, hg, payloadLength_eight]
  · rw [packGroup_eq_pack (by omega), pack_length, payloadLength_of_lt_eight hlt]

/-! ### A whole encode session (R87) -/

/-- The commands that push: `ENC_CHAR` of a character in the tables and `ENC_SEPTET` of a septet (R82, R85). -/
theorem commandSeptets_cases {rom : CharTables} {i : Instr} {ss : List Septet} (h : commandSeptets rom i = some ss) :
    (∃ cp, i = .encChar cp ∧ charSeptets rom cp = some ss) ∨
      (∃ x, i = .encSeptet x ∧ x.toNat < 128 ∧ ss = [x.setWidth 7]) := by
  cases i with
  | encChar cp => exact .inl ⟨cp, rfl, h⟩
  | encSeptet x =>
    by_cases hx : x.toNat < 128
    · simp only [commandSeptets, septetOperand_of_lt hx, Option.map_some, Option.some.injEq] at h
      exact .inr ⟨x, rfl, hx, h.symm⟩
    · simp [commandSeptets, septetOperand_of_le (Nat.not_lt.mp hx)] at h
  | _ => simp [commandSeptets] at h

/-- A character is one septet, or ESC and one septet (R82). -/
theorem charSeptets_length_le {rom : CharTables} {cp : CodePoint} {ss : List Septet}
    (h : charSeptets rom cp = some ss) : ss.length ≤ 2 := by
  simp only [charSeptets] at h
  split at h <;> cases h <;> simp

/-- No command pushes more than two septets. -/
theorem commandSeptets_length_le {rom : CharTables} {i : Instr} {ss : List Septet}
    (h : commandSeptets rom i = some ss) : ss.length ≤ 2 := by
  rcases commandSeptets_cases h with ⟨cp, -, hcp⟩ | ⟨x, -, -, rfl⟩
  · exact charSeptets_length_le hcp
  · simp

/-- A pushing command in an open encode session with room for its septets pushes them (R84, R85). -/
theorem exec_of_commandSeptets {i : Instr} {s : State} {ss : List Septet} (hm : s.mode = .enc)
    (hi : commandSeptets s.rom i = some ss) (hc : s.scount.toNat + ss.length ≤ 65535) :
    exec i s = .next (commitPush (pushAll s.acc.toNat s.nbits.toNat ss) ss.length s) := by
  rcases commandSeptets_cases hi with ⟨cp, rfl, hcp⟩ | ⟨x, rfl, hx, rfl⟩
  · exact execEncChar_next hm hcp hc
  · exact execEncSeptet_next hm hx hc

/-- After a pushing command the octets it emitted are those OUT_OCT holds. -/
theorem emittedOctets_of_commandSeptets {rom : CharTables} {i : Instr} {ss : List Septet}
    (h : commandSeptets rom i = some ss) (t : State) : emittedOctets i t = t.outOct.octets := by
  rcases commandSeptets_cases h with ⟨cp, rfl, -⟩ | ⟨x, rfl, -, -⟩ <;> rfl

/-- The septets of a list of pushing commands are those of the first and those of the rest. -/
theorem pushedSeptets_cons {rom : CharTables} {i : Instr} {is : List Instr} {ss : List Septet}
    (h : pushedSeptets rom (i :: is) = some ss) :
    ∃ us vs, commandSeptets rom i = some us ∧ pushedSeptets rom is = some vs ∧ ss = us ++ vs := by
  simp only [pushedSeptets] at h
  split at h
  · rename_i us vs hus hvs
    exact ⟨us, vs, hus, hvs, by simpa using h.symm⟩
  · cases h

/-- A session goes on after a command that leaves a mode other than ERROR. -/
theorem runSession_cons {β : Type} {out : Instr → State → List β} {i : Instr} {s t : State} (is : List Instr)
    (h : exec i s = .next t) (hm : t.mode ≠ .error) :
    runSession out (i :: is) s = (runSession out is t).map fun q => (q.1, out i t ++ q.2) := by
  simp [runSession, h, hm]

/-- A session of two parts runs the second from what the first leaves. -/
theorem runSession_append {β : Type} {out : Instr → State → List β} {is js : List Instr} {s t u : State}
    {xs ys : List β} (hi : runSession out is s = some (t, xs)) (hj : runSession out js t = some (u, ys)) :
    runSession out (is ++ js) s = some (u, xs ++ ys) := by
  induction is generalizing s xs with
  | nil =>
    cases hi
    exact hj
  | cons i is ih =>
    obtain ⟨v, hv⟩ := exec_total i s
    simp only [runSession, hv] at hi
    split at hi
    · cases hi
    · rename_i hm
      obtain ⟨⟨w, zs⟩, hw, heq⟩ := Option.map_eq_some_iff.mp hi
      cases heq
      rw [List.cons_append, runSession_cons _ hv hm, ih hw]
      simp

/-- Where an encode session stands after pushing `ss` from the state `s`: still open with R37 kept, the registers as
`pushAll` leaves them and SCOUNT advanced. -/
structure Pushed (ss : List Septet) (s t : State) : Prop where
  mode : t.mode = .enc
  rom : t.rom = s.rom
  inv : t.EncInv
  acc : t.acc.toNat = (pushAll s.acc.toNat s.nbits.toNat ss).acc
  nbits : t.nbits.toNat = (pushAll s.acc.toNat s.nbits.toNat ss).nb
  scount : t.scount.toNat = s.scount.toNat + ss.length

/-- Pushing nothing leaves the session where it stands. -/
theorem pushed_nil {s : State} (hm : s.mode = .enc) (hs : s.EncInv) : Pushed [] s s :=
  ⟨hm, rfl, hs, rfl, rfl, rfl⟩

/-- Pushing one list after another is pushing their concatenation. -/
theorem Pushed.append {us vs : List Septet} {s t u : State} (h : Pushed us s t) (h' : Pushed vs t u) :
    Pushed (us ++ vs) s u := by
  refine ⟨h'.mode, h'.rom.trans h.rom, h'.inv, ?_, ?_, ?_⟩
  · rw [h'.acc, h.acc, h.nbits, pushAll_append]
  · rw [h'.nbits, h.acc, h.nbits, pushAll_append]
  · rw [h'.scount, h.scount, List.length_append, Nat.add_assoc]

/-- A committed push loses nothing in the registers' widths. -/
theorem commitPush_pushed {s : State} {ss : List Septet} (hm : s.mode = .enc) (hs : s.EncInv)
    (hc : s.scount.toNat + ss.length ≤ 65535) :
    Pushed ss s (commitPush (pushAll s.acc.toNat s.nbits.toNat ss) ss.length s) := by
  obtain ⟨hnb, hoc, hacc⟩ := hs hm
  obtain ⟨pnb, ple, plt, -⟩ := pushAll_spec ss hacc (by omega)
  obtain ⟨tacc, tnb, tsc, -⟩ := commitPush_toNat (s := s) (acc_fits plt (by omega)) (by omega) hc (by omega)
  exact ⟨hm, rfl, commitPush_encInv hm hs hc, tacc, tnb, tsc⟩

/-- At most two septets push at most two octets out (R81). -/
theorem pushAll_outs_length_le {acc nb : Nat} {ss : List Septet} (h : acc < 2 ^ nb) (hn : nb ≤ 7)
    (hss : ss.length ≤ 2) : (pushAll acc nb ss).outs.length ≤ 2 := by
  obtain ⟨hbits, -, -, -⟩ := pushAll_spec ss h hn
  omega

/-- Pushing commands in an open encode session with room for their septets run without a fault and emit what
`pushAll` does, each command its own part (R84, R85). -/
theorem runSession_pushes {is : List Instr} {s : State} {ss : List Septet} (hm : s.mode = .enc) (hs : s.EncInv)
    (his : pushedSeptets s.rom is = some ss) (hc : s.scount.toNat + ss.length ≤ 65535) :
    ∃ t, runSession emittedOctets is s = some (t, (pushAll s.acc.toNat s.nbits.toNat ss).outs) ∧ Pushed ss s t := by
  induction is generalizing s ss with
  | nil =>
    cases his
    exact ⟨s, rfl, pushed_nil hm hs⟩
  | cons i is ih =>
    obtain ⟨us, vs, hus, hvs, rfl⟩ := pushedSeptets_cons his
    rw [List.length_append] at hc
    obtain ⟨hnb, -, hacc⟩ := hs hm
    have hexec := exec_of_commandSeptets hm hus (by omega)
    have hpush := commitPush_pushed (ss := us) hm hs (by omega)
    have houts := octets_ofList (pushAll_outs_length_le hacc (by omega) (commandSeptets_length_le hus))
    set t := commitPush (pushAll s.acc.toNat s.nbits.toNat us) us.length s with ht
    obtain ⟨u, hrun, hrest⟩ := ih hpush.mode hpush.inv (by rw [hpush.rom]; exact hvs) (by rw [hpush.scount]; omega)
    refine ⟨u, ?_, hpush.append hrest⟩
    rw [runSession_cons _ hexec (by simp [hpush.mode]), hrun, emittedOctets_of_commandSeptets hus, pushAll_append,
      ← hpush.acc, ← hpush.nbits, ht, commitPush_outOct, houts]
    rfl

/-- `ENC_END` of an open session with R37 kept brings OCOUNT to the payload's length (R77, R86). -/
theorem closeEncode_ocount_toNat {s : State} (hm : s.mode = .enc) (hs : s.EncInv) :
    (closeEncode s).ocount.toNat = payloadLength s.scount.toNat := by
  obtain ⟨hnb, hoc, hacc⟩ := hs hm
  obtain ⟨hflush, -⟩ := flush_spec hacc (by omega)
  have hsc := s.scount.isLt
  have htotal : payloadLength s.scount.toNat = s.ocount.toNat + if s.nbits.toNat = 0 then 0 else 1 := by
    rw [payloadLength_eq, hnb, hoc]
    split <;> omega
  have hfits : payloadLength s.scount.toNat < 2 ^ 16 := by
    rw [payloadLength_eq]
    omega
  rw [closeEncode_ocount, hflush, BitVec.toNat_add, BitVec.toNat_ofNat, Nat.add_mod_mod, ← htotal,
    Nat.mod_eq_of_lt hfits]

/-- `ENC_END` of an open session with R37 kept emits what `flush` does. -/
theorem emittedOctets_closeEncode {s : State} (hm : s.mode = .enc) (hs : s.EncInv) :
    emittedOctets .encEnd (closeEncode s) = flush s.acc.toNat s.nbits.toNat := by
  obtain ⟨hnb, -, hacc⟩ := hs hm
  obtain ⟨hflush, -⟩ := flush_spec hacc (by omega)
  exact octets_ofList (by rw [hflush]; split <;> omega)

/-- Settles O29: the commands of a session do to the registers what the streaming packer does to an empty
accumulator, and `ENC_END` is its flush. -/
theorem encodeSessionComputesPack : Obligations.EncodeSessionComputesPack := by
  intro s cs ss hm hcs hlen
  have hbegin : exec .encBegin s = .next (openEncode s) := runCommand_ok hm .encBegin _
  obtain ⟨t, hrun, ht⟩ := runSession_pushes (s := openEncode s) (is := cs) rfl (by simp [State.EncInv]) hcs
    (by simpa using hlen)
  have hend : runSession emittedOctets [.encEnd] t = some (closeEncode t, flush t.acc.toNat t.nbits.toNat) := by
    rw [runSession_cons _ (execEncEnd_next ht.mode) (by simp), emittedOctets_closeEncode ht.mode ht.inv]
    simp [runSession]
  have hscount : t.scount.toNat = ss.length := by simpa using ht.scount
  refine ⟨closeEncode t, ?_, rfl, hscount, ?_⟩
  · rw [runSession_cons _ hbegin (by simp), runSession_append hrun hend, ht.acc, ht.nbits]
    exact congrArg (fun os => some (closeEncode t, os)) (pushAll_empty_flush ss)
  · rw [closeEncode_ocount_toNat ht.mode ht.inv, hscount]

end Sys2Proof.Machine

/-! Proofs that the streaming unpacker and the per-group formulas compute `unpack`, that `unpack` inverts `pack`, and
what an octet past the payload does (R88, R89, R91, R95). -/

namespace Sys2Proof.Machine

/-! ### An octet past the payload (R95) -/

/-- `DEC_OCTET` in a decode session with no septets owed (R95). -/
theorem execDecOctet_excess {s : State} (hm : s.mode = .dec) (hr : s.remain = 0) (o : Octet) :
    exec (.decOctet o) s = .next (raiseFault .excessOctet (encode (.decOctet o)) s) := by
  rw [exec_eq_runCommand (by simp)]
  simp only [commandBody, hm, hr, ne_eq, not_true_eq_false, if_false, if_true]
  exact runCommand_fault (by simp [hm]) _ _

/-- Settles O34: the check of REMAIN comes before the pull, so nothing but the fault record is written. -/
theorem extraOctetFaults : Obligations.ExtraOctetFaults := fun _ oct hm hr => execDecOctet_excess hm hr oct

/-! ### `unpack` and the stream (R88) -/

/-- Septets that are `N` in number and carry the low `7N` bits of the stream are what `unpack` gives. -/
theorem eq_unpack_of_septetStream {ss : List Septet} {os : List Octet} {n : Nat} (hlen : ss.length = n)
    (hstream : septetStream ss = octetStream os % 2 ^ (7 * n)) : ss = unpack os n :=
  septetStream_inj (by rw [hlen, unpack_length]) (by rw [hstream, septetStream_unpack])

/-- `unpack` reads only the low `7N` bits of the stream. -/
theorem unpack_congr {os os' : List Octet} {n : Nat}
    (h : octetStream os % 2 ^ (7 * n) = octetStream os' % 2 ^ (7 * n)) : unpack os n = unpack os' n :=
  eq_unpack_of_septetStream (unpack_length os n) (by rw [septetStream_unpack, h])

/-- `unpack` of a payload with its count gives the septets packed: `pack` keeps the stream, which fits `7N` bits. -/
theorem unpack_pack (ss : List Septet) : unpack (pack ss) ss.length = ss := by
  symm
  apply eq_unpack_of_septetStream rfl
  rw [octetStream_pack, Nat.mod_eq_of_lt (septetStream_lt ss)]

/-- Settles O37: both functions keep the stream, and `unpack` keeps its low `7N` bits only. -/
theorem unpackInvertsPack : Obligations.UnpackInvertsPack := ⟨unpack_pack, fun _ _ _ => unpack_congr⟩

/-! ### The streaming unpacker (R91) -/

/-- With no septets owed `pull` discards the octet (R90). -/
@[simp] theorem pull_zero (acc nb : Nat) (o : Octet) : pull acc nb o 0 = ⟨0, 0, []⟩ := rfl

/-- What one `pull` counts, whether or not septets are owed (R90): it extracts the whole septets of the bits held and
the octet, as many as are owed at the most, and holds the rest while septets are still owed. -/
theorem pull_counts {acc nb : Nat} (rem : Nat) (o : Octet) (h : acc < 2 ^ nb) (hn : nb ≤ 6) :
    (pull acc nb o rem).seps.length = min rem ((nb + 8) / 7) ∧
    ((pull acc nb o rem).seps.length < rem →
      (pull acc nb o rem).nb + 7 * (pull acc nb o rem).seps.length = nb + 8) ∧
    (pull acc nb o rem).nb ≤ 6 ∧ (pull acc nb o rem).acc < 2 ^ (pull acc nb o rem).nb := by
  rcases Nat.eq_zero_or_pos rem with rfl | hpos
  · simp
  · obtain ⟨hlen, -, -, hmore, hle, hlt⟩ := pull_spec o h hn hpos
    refine ⟨?_, fun hr => (hmore hr).1, hle, hlt⟩
    rw [hlen]
    split <;> omega

/-- Of the bits held, the octet taken in and a stream `b` yet to come, one `pull` extracts the low bits and, while
septets are still owed, holds what is above them. -/
theorem pull_stream {acc nb : Nat} (rem b : Nat) (o : Octet) (h : acc < 2 ^ nb) (hn : nb ≤ 6) :
    septetStream (pull acc nb o rem).seps =
      (acc + 2 ^ nb * (o.toNat + 2 ^ 8 * b)) % 2 ^ (7 * (pull acc nb o rem).seps.length) ∧
    ((pull acc nb o rem).seps.length < rem →
      (pull acc nb o rem).acc + 2 ^ (pull acc nb o rem).nb * b =
        (acc + 2 ^ nb * (o.toNat + 2 ^ 8 * b)) / 2 ^ (7 * (pull acc nb o rem).seps.length)) := by
  rcases Nat.eq_zero_or_pos rem with rfl | hpos
  · simp [Nat.mod_one]
  obtain ⟨-, hst, -, hmore, -, -⟩ := pull_spec o h hn hpos
  obtain ⟨hlen, -, -, -⟩ := pull_counts rem o h hn
  set p := pull acc nb o rem
  have hpow : 2 ^ nb * 2 ^ 8 = 2 ^ (7 * p.seps.length) * 2 ^ (nb + 8 - 7 * p.seps.length) := by
    rw [← Nat.pow_add, ← Nat.pow_add]
    congr 1
    omega
  have hsplit : acc + 2 ^ nb * (o.toNat + 2 ^ 8 * b) =
      (acc + 2 ^ nb * o.toNat) + 2 ^ (7 * p.seps.length) * (2 ^ (nb + 8 - 7 * p.seps.length) * b) := by
    linear_combination b * hpow
  refine ⟨by rw [hst, hsplit, Nat.add_mul_mod_self_left], fun hlt => ?_⟩
  obtain ⟨hnb, hacc⟩ := hmore hlt
  rw [hsplit, Nat.add_mul_div_left _ _ (Nat.two_pow_pos _), hacc, ← hnb, Nat.add_sub_cancel]

/-- What pulling a list of octets extracts (R90): as many septets as are owed and whole, cut from the low end of the
bits held and the octets' stream. -/
theorem pullAll_spec (os : List Octet) {acc nb : Nat} (rem : Nat) (h : acc < 2 ^ nb) (hn : nb ≤ 6) :
    (pullAll acc nb rem os).seps.length = min rem ((nb + 8 * os.length) / 7) ∧
    septetStream (pullAll acc nb rem os).seps =
      (acc + 2 ^ nb * octetStream os) % 2 ^ (7 * (pullAll acc nb rem os).seps.length) := by
  induction os generalizing acc nb rem with
  | nil =>
    refine ⟨?_, by simp [pullAll, Nat.mod_one]⟩
    simp only [pullAll, List.length_nil]
    omega
  | cons o os ih =>
    obtain ⟨hst, hheld⟩ := pull_stream rem (octetStream os) o h hn
    obtain ⟨hk, hnb, hle, hlt⟩ := pull_counts rem o h hn
    simp only [pullAll, List.length_append, List.length_cons, septetStream_append, octetStream_cons]
    set p := pull acc nb o rem
    obtain ⟨qlen, qst⟩ := ih (rem - p.seps.length) hlt hle
    set q := pullAll p.acc p.nb (rem - p.seps.length) os
    refine ⟨by omega, ?_⟩
    rw [Nat.mul_add 7, Nat.pow_add, Nat.mod_mul, ← hst]
    congr 2
    by_cases hr : p.seps.length < rem
    · rw [qst, hheld hr]
    · have hq : q.seps = [] := List.length_eq_zero_iff.mp (by omega)
      simp [hq, Nat.mod_one]

/-- From an empty accumulator with `N` septets owed, `k` octets give the `8 k / 7` septets that are whole, `N` at the
most, each a slice of the stream (R91). -/
theorem pullAll_empty (os : List Octet) (n : Nat) :
    (pullAll 0 0 n os).seps.length = min n (8 * os.length / 7) ∧
    (pullAll 0 0 n os).seps = unpack os (pullAll 0 0 n os).seps.length := by
  obtain ⟨hlen, hst⟩ := pullAll_spec os n (acc := 0) (nb := 0) (by decide) (by decide)
  exact ⟨by simpa using hlen, eq_unpack_of_septetStream rfl (by simpa using hst)⟩

/-- Settles O36: `ceil(7N/8)` octets are the fewest with `7N` bits, so the last of them completes the count. -/
theorem streamingUnpackerComputesUnpack : Obligations.StreamingUnpackerComputesUnpack := by
  intro os n hos
  rw [payloadLength_eq] at hos
  refine ⟨?_, fun k hk => ?_⟩
  · obtain ⟨hlen, hseps⟩ := pullAll_empty os n
    have hall : (pullAll 0 0 n os).seps.length = n := by omega
    rwa [hall] at hseps
  · obtain ⟨hlen, -⟩ := pullAll_empty (os.take k) n
    rw [List.length_take] at hlen
    omega

/-! ### Unpacking by groups (R89) -/

/-- The stream of a list of octets is that of its first `k` and, above it, that of the rest. -/
theorem octetStream_take_add_drop (os : List Octet) (k : Nat) :
    octetStream os = octetStream (os.take k) + 2 ^ (8 * k) * octetStream (os.drop k) := by
  rcases Nat.le_total k os.length with hk | hk
  · conv_lhs => rw [← List.take_append_drop k os, octetStream_append, List.length_take_of_le hk]
  · simp [List.take_of_length_le hk, List.drop_eq_nil_of_le hk]

/-- The first `k` octets carry the low `8 k` bits. -/
theorem octetStream_take_lt (os : List Octet) (k : Nat) : octetStream (os.take k) < 2 ^ (8 * k) :=
  lt_of_lt_of_le (octetStream_lt _)
    (Nat.pow_le_pow_right (by decide) (Nat.mul_le_mul_left 8 (List.length_take_le k os)))

theorem octetStream_take (os : List Octet) (k : Nat) : octetStream (os.take k) = octetStream os % 2 ^ (8 * k) := by
  rw [octetStream_take_add_drop os k, Nat.add_mul_mod_self_left, Nat.mod_eq_of_lt (octetStream_take_lt os k)]

theorem octetStream_drop (os : List Octet) (k : Nat) : octetStream (os.drop k) = octetStream os / 2 ^ (8 * k) := by
  rw [octetStream_take_add_drop os k, Nat.add_mul_div_left _ _ (Nat.two_pow_pos _),
    Nat.div_eq_of_lt (octetStream_take_lt os k), Nat.zero_add]

/-- Octet `i` of a group is its slice of the stream, also past the end, where both are 0. -/
theorem groupAt_eq_slice (os : List Octet) (i : Nat) : groupAt os i = (octetStream os >>> (8 * i)) % 2 ^ 8 := by
  rw [Nat.shiftRight_eq_div_pow, ← octetStream_drop]
  rcases Nat.lt_or_ge i os.length with hi | hi
  · rw [List.drop_eq_getElem_cons hi, octetStream_cons, Nat.add_mul_mod_self_left, Nat.mod_eq_of_lt os[i].isLt,
      groupAt, List.getD_eq_getElem _ _ hi]
  · rw [List.drop_eq_nil_of_le hi, groupAt, List.getD_eq_default _ _ hi]
    rfl

/-- Bits `7 i` to `7 i + 6` of a stream lie in its octets `i` and `i - 1`: the low `7 - i` bits of the one above the
high `i` bits of the other. -/
theorem join_octet_slices (b : Nat) {i : Nat} (hi : 0 < i) (hi7 : i ≤ 7) :
    ((((b >>> (8 * i)) % 2 ^ 8) <<< i) ||| (((b >>> (8 * (i - 1))) % 2 ^ 8) >>> (8 - i))) % 2 ^ 7 =
      (b >>> (7 * i)) % 2 ^ 7 := by
  apply Nat.eq_of_testBit_eq
  intro j
  simp only [Nat.testBit_mod_two_pow, Nat.testBit_or, Nat.testBit_shiftLeft, Nat.testBit_shiftRight]
  by_cases hj : j < 7
  · rcases Nat.lt_or_ge j i with hji | hij
    · have hlow : 8 - i + j < 8 := by omega
      have hpos : 8 * (i - 1) + (8 - i + j) = 7 * i + j := by omega
      simp [hj, hlow, hpos, Nat.not_le.mpr hji]
    · have hhigh : ¬8 - i + j < 8 := by omega
      have hfit : j - i < 8 := by omega
      have hpos : 8 * i + (j - i) = 7 * i + j := by omega
      simp [hj, hhigh, hfit, hpos, hij]
  · simp [hj]

/-- One group of at most 8 septets by the source's formulas is `unpack` of its octets (R89). -/
theorem unpackGroup_eq_unpack (p : List Octet) {k : Nat} (hk : k ≤ 8) : unpackGroup p k = unpack p k := by
  refine List.map_congr_left fun i hi => ?_
  have hi8 := List.mem_range.mp hi
  rw [and_127]
  split
  case isTrue h0 =>
    subst h0
    rw [and_127, groupAt_eq_slice]
    congr 1
    exact Nat.mod_mod_of_dvd _ (by decide)
  case isFalse h0 =>
    rw [and_127, groupAt_eq_slice, groupAt_eq_slice, join_octet_slices _ (Nat.pos_of_ne_zero h0) (by omega), and_127]

/-- Octets past the `7N` bits read make no difference to `unpack`. -/
theorem unpack_take (os : List Octet) {k n : Nat} (h : 7 * n ≤ 8 * k) : unpack (os.take k) n = unpack os n := by
  apply unpack_congr
  rw [octetStream_take, Nat.mod_mod_of_dvd _ (Nat.pow_dvd_pow 2 h)]

/-- Eight septets take 7 whole octets, so the septets after them start a new octet. -/
theorem unpack_add_eight (os : List Octet) (n : Nat) : unpack os (n + 8) = unpack os 8 ++ unpack (os.drop 7) n := by
  symm
  apply eq_unpack_of_septetStream
  · simp [Nat.add_comm]
  · rw [septetStream_append, unpack_length, septetStream_unpack, septetStream_unpack, octetStream_drop, Nat.mul_add,
      Nat.add_comm (7 * n), Nat.pow_add, Nat.mod_mul]

/-- Unpacking by groups is `unpack`, whatever the octets. -/
theorem unpackGroups_eq_unpack (os : List Octet) (n : Nat) : unpackGroups os n = unpack os n := by
  induction os, n using unpackGroups.induct with
  | case1 os => rfl
  | case2 os n ih =>
    rw [unpackGroups, unpackGroup_eq_unpack _ (by decide), ih, unpack_take os (by decide)]
    exact (unpack_add_eight os n).symm
  | case3 os k hzero hshort =>
    have hk : k < 8 := Nat.not_le.mp fun hle => hshort (k - 8) (by omega)
    rw [unpackGroups.eq_3 _ _ hzero hshort, unpackGroup_eq_unpack _ (by omega), unpack_take os (by omega)]

/-- Settles O38: each group's formulas cut the stream where `unpack` does, and a full group ends with its octet. -/
theorem groupUnpackingIsUnpack : Obligations.GroupUnpackingIsUnpack := fun os n _ => unpackGroups_eq_unpack os n

end Sys2Proof.Machine

/-! Proofs of what the two control commands do, and of which words carry their opcodes (R98, R99). -/

namespace Sys2Proof

/-! ### The words of the commands without operands (R58) -/

/-- A word of format N is its opcode alone: all 24 bits below the opcode field are reserved. -/
theorem eq_code_append_zero {op : Opcode} {w : Word} (hf : op.format = .n) (hcode : op.code = opcodeField w)
    (hres : w &&& op.format.reservedMask = 0) : w = op.code ++ 0#24 := by
  have hhigh : w.toNat / 2 ^ 24 = op.code.toNat := by
    rw [hcode, toNat_opcodeField, BitVec.toNat_ushiftRight, Nat.shiftRight_eq_div_pow]
  have hlow : w.toNat % 2 ^ 24 = 0 := by
    rw [hf] at hres
    rw [← Nat.and_two_pow_sub_one_eq_mod]
    exact congrArg BitVec.toNat hres
  apply BitVec.eq_of_toNat_eq
  rw [BitVec.toNat_append, BitVec.toNat_ofNat, Nat.zero_mod, Nat.or_zero, Nat.shiftLeft_eq, ← hhigh]
  omega

/-- Every other word with the opcode of a command of format N is illegal (R61). -/
theorem decode_eq_none_of_formatN {op : Opcode} {w : Word} (hf : op.format = .n)
    (hcode : (w >>> 24).toNat = op.code.toNat) (hw : w ≠ op.code ++ 0#24) : decode w = none := by
  have hop : op.code = opcodeField w := code_eq_opcodeField_iff.mpr hcode
  exact decode_eq_none.mpr (.inr ⟨op, hop, fun hres => hw (eq_code_append_zero hf hop hres)⟩)

namespace Machine

/-! ### CLEAR and NOP (R98, R99) -/

/-- `CLEAR` runs without the guard of ERROR mode, so it clears every register in every mode (R99). -/
theorem execClear_next (s : State) : exec .clear s = .next (clearRegs s) := rfl

/-- `NOP` changes no state in any mode: ERROR mode ignores it, and elsewhere it writes nothing (R98). -/
theorem execNop_next (s : State) : exec .nop s = .next s := by
  rw [exec_eq_runCommand (by simp)]
  by_cases hm : s.mode = .error
  · exact runCommand_error hm _ _
  · exact runCommand_ok hm _ _

/-- Settles O12: `CLEAR` has format N, so a second word with its opcode is illegal, and it leaves `clearRegs` of the
state; ERROR mode ignores any other word. -/
theorem clearMakesEveryRegisterZero : Obligations.ClearMakesEveryRegisterZero := by
  refine ⟨by decide, fun s w rest hp hm hcode hw => ?illegal, fun s => ?effect, fun s w rest hp hm hw => ?ignored⟩
  case illegal =>
    have hd : decode w = none := decode_eq_none_of_formatN (op := .clear) rfl hcode hw
    exact (illegalWordsFault w).2 hd s rest hp hm
  case effect => exact ⟨clearRegs s, execClear_next s, fun r => readReg_clearRegs r s, rfl⟩
  case ignored => exact (stepRunsTheDecodedCommand s w rest hp).1 hm hw

/-- Settles O13: `NOP` has format N, so a second word with its opcode is illegal, and its body writes nothing. -/
theorem nopChangesNothing : Obligations.NopChangesNothing := by
  refine ⟨by decide, fun s w rest hp hm hcode hw => ?illegal, execNop_next⟩
  have hd : decode w = none := decode_eq_none_of_formatN (op := .nop) rfl hcode hw
  exact (illegalWordsFault w).2 hd s rest hp hm

end Machine

end Sys2Proof

/-! Proofs of the rendering of octets as hex and of its parsing (R106). -/

namespace Sys2Proof.Machine

/-! ### One digit -/

/-- The sixteen characters R106 allows, in the order of their values. -/
def hexDigits : List Char := ['0', '1', '2', '3', '4', '5', '6', '7', '8', '9', 'a', 'b', 'c', 'd', 'e', 'f']

theorem getElem?_hexDigits {n : Nat} (hn : n < 16) : hexDigits[n]? = some (hexDigit n) := by
  have hall : ∀ k : Fin 16, hexDigits[k.val]? = some (hexDigit k) := by decide
  exact hall ⟨n, hn⟩

theorem hexDigit_mem_hexDigits {n : Nat} (hn : n < 16) : hexDigit n ∈ hexDigits :=
  List.mem_of_getElem? (getElem?_hexDigits hn)

/-- `hexValue` and `hexDigit` are inverse on the nibbles: a character has a value only as the digit of that value. -/
theorem hexValue_eq_some_iff {c : Char} {n : Nat} : hexValue c = some n ↔ n < 16 ∧ hexDigit n = c := by
  constructor
  · intro h
    unfold hexValue at h
    split at h
    case isTrue hdecimal =>
      obtain rfl := Option.some.inj h
      refine ⟨by omega, ?_⟩
      rw [hexDigit, if_pos (by omega), Nat.add_sub_cancel' hdecimal.1, Char.ofNat_toNat]
    case isFalse =>
      split at h
      case isTrue hletter =>
        obtain rfl := Option.some.inj h
        refine ⟨by omega, ?_⟩
        rw [hexDigit, if_neg (by omega), Nat.add_sub_cancel' (by omega), Char.ofNat_toNat]
      case isFalse => exact nomatch h
  · rintro ⟨hn, rfl⟩
    have hall : ∀ k : Fin 16, hexValue (hexDigit k) = some k.val := by decide
    exact hall ⟨n, hn⟩

/-! ### The string of a payload -/

/-- The high nibble of an octet. -/
theorem toNat_div_sixteen_lt (o : Octet) : o.toNat / 16 < 16 := by omega

/-- The low nibble of an octet. -/
theorem toNat_mod_sixteen_lt (o : Octet) : o.toNat % 16 < 16 := by omega

@[simp] theorem hex_nil : hex [] = [] := rfl

@[simp] theorem hex_cons (o : Octet) (os : List Octet) :
    hex (o :: os) = hexDigit (o.toNat / 16) :: hexDigit (o.toNat % 16) :: hex os := rfl

theorem length_hex (os : List Octet) : (hex os).length = 2 * os.length := by
  induction os with
  | nil => rfl
  | cons o os ih => rw [hex_cons, List.length_cons, List.length_cons, ih, List.length_cons]; omega

theorem mem_hexDigits_of_mem_hex {c : Char} {os : List Octet} (hc : c ∈ hex os) : c ∈ hexDigits := by
  obtain ⟨o, -, hdigit⟩ := List.mem_flatMap.mp hc
  rcases List.mem_pair.mp hdigit with rfl | rfl
  · exact hexDigit_mem_hexDigits (toNat_div_sixteen_lt o)
  · exact hexDigit_mem_hexDigits (toNat_mod_sixteen_lt o)

/-! ### Parsing -/

/-- What `unhex` does with two characters: their values are the high and the low nibble of the first octet. -/
theorem unhex_cons_cons_eq_some_iff {a b : Char} {h : List Char} {os : List Octet} :
    unhex (a :: b :: h) = some os ↔ ∃ o os', os = o :: os' ∧
      hexValue a = some (o.toNat / 16) ∧ hexValue b = some (o.toNat % 16) ∧ unhex h = some os' := by
  constructor
  · intro hos
    unfold unhex at hos
    split at hos
    case h_1 x y os' ha hb hrest =>
      have hx : x < 16 := (hexValue_eq_some_iff.mp ha).1
      have hy : y < 16 := (hexValue_eq_some_iff.mp hb).1
      have hoctet : (BitVec.ofNat 8 (16 * x + y)).toNat = 16 * x + y := by
        rw [BitVec.toNat_ofNat, Nat.mod_eq_of_lt (by omega)]
      refine ⟨_, os', (Option.some.inj hos).symm, ?_, ?_, hrest⟩
      · rw [ha, hoctet]; congr 1; omega
      · rw [hb, hoctet]; congr 1; omega
    case h_2 => exact nomatch hos
  · rintro ⟨o, os', rfl, ha, hb, hrest⟩
    rw [unhex, ha, hb, hrest]
    simp only [Nat.div_add_mod, BitVec.ofNat_toNat, BitVec.setWidth_eq]

/-- `unhex` accepts the strings `hex` writes and no others, and returns the octets written. -/
theorem unhex_eq_some_iff {h : List Char} {os : List Octet} : unhex h = some os ↔ hex os = h := by
  induction h using List.twoStepInduction generalizing os with
  | nil => cases os <;> simp [unhex]
  | singleton c => cases os <;> simp [unhex]
  | cons_cons a b h ih _ =>
    rw [unhex_cons_cons_eq_some_iff]
    constructor
    · rintro ⟨o, os', rfl, ha, hb, hrest⟩
      rw [hex_cons, (hexValue_eq_some_iff.mp ha).2, (hexValue_eq_some_iff.mp hb).2, ih.mp hrest]
    · intro hos
      cases os with
      | nil => exact nomatch hos
      | cons o os =>
        simp only [hex_cons, List.cons.injEq] at hos
        obtain ⟨ha, hb, hrest⟩ := hos
        exact ⟨o, os, rfl, hexValue_eq_some_iff.mpr ⟨toNat_div_sixteen_lt o, ha⟩,
          hexValue_eq_some_iff.mpr ⟨toNat_mod_sixteen_lt o, hb⟩, ih.mpr hrest⟩

/-- A string that is not `hex` of any payload is refused. -/
theorem unhex_eq_none {h : List Char} (hne : ∀ os, hex os ≠ h) : unhex h = none :=
  Option.eq_none_iff_forall_ne_some.mpr fun os hos => hne os (unhex_eq_some_iff.mp hos)

/-- Settles O56: `unhex` accepts just the strings `hex` writes, and those have even length and no other characters. -/
theorem hexAndUnhexAreInverse : Obligations.HexAndUnhexAreInverse := by
  refine ⟨fun o os => ?digits, fun os => ?parsed, fun h os => ?rendered, fun h hodd => ?oddLength,
    fun h c hc hbad => ?badCharacter, rfl, rfl⟩
  case digits =>
    exact ⟨_, _, hex_cons o os, getElem?_hexDigits (toNat_div_sixteen_lt o), getElem?_hexDigits (toNat_mod_sixteen_lt o)⟩
  case parsed => exact unhex_eq_some_iff.mpr rfl
  case rendered => exact unhex_eq_some_iff.mp
  case oddLength =>
    refine unhex_eq_none fun os hos => ?_
    have heven : h.length = 2 * os.length := hos ▸ length_hex os
    omega
  case badCharacter => exact unhex_eq_none fun os hos => hbad (mem_hexDigits_of_mem_hex (hos ▸ hc))

end Sys2Proof.Machine

/-! Proofs of how faults are raised, recorded and left: which lookups fault (R112), what a fault writes (R110), and
what ERROR mode ignores and what leaves it (R115, R116). -/

namespace Sys2Proof.Machine

/-! ### What a command does to the fault record (R110) -/

/-- A command that completes clears every register, or it is not `CLEAR`, keeps the fault record and does not enter
ERROR mode. -/
theorem completes_faultRecord {i : Instr} {s t : State} (h : Completes i s t) :
    t = clearRegs s ∨
      (i ≠ .clear ∧ t.errCode = s.errCode ∧ t.errCmd = s.errCmd ∧ (t.mode = .error → s.mode = .error)) := by
  cases i with
  | clear => exact .inl h
  | nop => obtain rfl := h; exact .inr ⟨nofun, rfl, rfl, id⟩
  | c2i cp => obtain rfl := h; exact .inr ⟨nofun, rfl, rfl, id⟩
  | i2c sel idx => obtain ⟨-, rfl⟩ := h; exact .inr ⟨nofun, rfl, rfl, id⟩
  | encBegin => obtain rfl := h; exact .inr ⟨nofun, rfl, rfl, nofun⟩
  | encChar cp => obtain ⟨-, ss, -, -, rfl⟩ := h; exact .inr ⟨nofun, rfl, rfl, id⟩
  | encSeptet x => obtain ⟨-, -, -, rfl⟩ := h; exact .inr ⟨nofun, rfl, rfl, id⟩
  | encEnd => obtain ⟨-, rfl⟩ := h; exact .inr ⟨nofun, rfl, rfl, nofun⟩
  | decBegin raw n => obtain rfl := h; exact .inr ⟨nofun, rfl, rfl, nofun⟩
  | decOctet o => obtain ⟨-, -, d, -, rfl⟩ := h; exact .inr ⟨nofun, rfl, rfl, id⟩
  | decEnd => obtain ⟨-, -, -, rfl⟩ := h; exact .inr ⟨nofun, rfl, rfl, nofun⟩

/-- A command that completes outside ERROR mode stays outside it. -/
theorem completes_mode_ne_error {i : Instr} {s t : State} (h : Completes i s t) (hm : s.mode ≠ .error) :
    t.mode ≠ .error := by
  rcases completes_faultRecord h with rfl | ⟨-, -, -, hmode⟩
  · simp
  · exact fun ht => hm (hmode ht)

/-- Settles O41: only a raised fault enters ERROR mode, and `raiseFault` writes the three fields of the record. -/
theorem faultsArePrecise : Obligations.FaultsArePrecise := by
  intro i s t hm h ht
  rcases exec_cases h with ⟨herr, -, -⟩ | ⟨-, c, hc, rfl⟩ | ⟨-, hdone⟩
  · exact absurd herr hm
  · exact ⟨c, hc, rfl⟩
  · exact absurd ht (completes_mode_ne_error hdone hm)

/-! ### Lookups that find nothing (R112) -/

/-- A character in neither ROM is answered with index 0 (R70). -/
theorem charIndex_of_unmapped {t : CharTables} {cp : CodePoint} (h : (charIndex t cp).1 = .unmapped) :
    charIndex t cp = (.unmapped, 0) := by
  rcases charIndex_cases t cp with ⟨i, -, hc⟩ | ⟨i, -, -, hc⟩ | ⟨-, -, hc⟩
  · simp [hc] at h
  · simp [hc] at h
  · exact hc

/-- `ENC_CHAR` of a character without septets in an encode session (R84). -/
theorem execEncChar_unsupported {s : State} {cp : CodePoint} (hm : s.mode = .enc)
    (hcp : charSeptets s.rom cp = none) :
    exec (.encChar cp) s = .next (raiseFault .unsupportedCharacter (encode (.encChar cp)) s) := by
  rw [exec_eq_runCommand (by simp)]
  simp only [commandBody, hm, hcp, ne_eq, not_true_eq_false, if_false]
  exact runCommand_fault (by simp [hm]) _ _

/-- While septets are owed, an octet always completes one, the low 7 bits of what is held with the octet above it
(R90). -/
theorem pull_seps_eq_cons (acc nb : Nat) (o : Octet) {rem : Nat} (hr : 0 < rem) :
    ∃ ss, (pull acc nb o rem).seps = BitVec.ofNat 7 (acc ||| (o.toNat <<< nb)) :: ss := by
  obtain ⟨k, rfl⟩ := Nat.exists_eq_succ_of_ne_zero hr.ne'
  have hfirst (a : Nat) : BitVec.ofNat 7 (a &&& 0x7F) = BitVec.ofNat 7 a :=
    BitVec.eq_of_toNat_eq (by simp [and_127])
  have hseps : (pull acc nb o (k + 1)).seps =
      (pullLoop (acc ||| (o.toNat <<< nb)) (nb + 8) (k + 1)).seps := by
    simp only [pull, Config.octetBits]
    split <;> rfl
  have henough : Config.septetBits ≤ nb + 8 := by simp only [Config.septetBits]; omega
  exact ⟨_, by rw [hseps, pullLoop, if_pos henough, hfirst]⟩

/-- Outside a raw session an unused slot under the first septet ends the decoding (R92, R94). -/
theorem decodePulled_cons_unused {s : State} {x : Septet} (ss : List Septet) (hraw : s.raw = false)
    (hx : septetChar s.rom s.escPending x = .unused) : decodePulled s (x :: ss) = none := by
  simp [decodePulled, hraw, decodeSeptets, decodeStep, hx]

/-- Settles O17: the lookup commands write what the lookup answers, while `ENC_CHAR` and `DEC_OCTET` have no septet and
no character to go on with. -/
theorem lookupResultsAreNoFaults : Obligations.LookupResultsAreNoFaults := by
  refine ⟨fun s cp hm hcp => ⟨?c2i, fun henc => ?encChar⟩, fun s sel idx hm hidx hslot => ?i2c,
    fun s oct hm hraw _ hr hslot => ?decOctet⟩
  case c2i => exact ⟨_, execC2i_next hm cp, rfl, rfl, by simp [charIndex_of_unmapped hcp]⟩
  case encChar =>
    have hnone : charSeptets s.rom cp = none := by simp [charSeptets, charIndex_of_unmapped hcp]
    exact ⟨_, execEncChar_unsupported henc hnone, rfl⟩
  case i2c => exact ⟨_, execI2c_next hm sel hidx, rfl, rfl, by simp [hslot, lresChrOf]⟩
  case decOctet =>
    obtain ⟨ss, hss⟩ := pull_seps_eq_cons s.acc.toNat s.nbits.toNat oct hr
    have hrem : s.remain ≠ 0 := fun h0 => by simp [h0] at hr
    exact ⟨_, execDecOctet_unused hm hrem (hss ▸ decodePulled_cons_unused ss hraw hslot), rfl⟩

/-! ### ERROR mode (R115, R116) -/

/-- The value a register reads does not depend on the events still to come. -/
@[simp] theorem readReg_dropEvent (r : Reg) (rest : List BusEvent) (s : State) :
    readReg r (dropEvent rest s) = readReg r s := by
  cases r <;> rfl

/-- Settles O43: ERROR mode ignores the word, and a read has no guard. -/
theorem errorModeIgnoresEveryWordButClear : Obligations.ErrorModeIgnoresEveryWordButClear := by
  refine fun s rest hm => ⟨fun w hw hp => (stepRunsTheDecodedCommand s w rest hp).1 hm hw, fun r hp => ?_⟩
  rw [step_hostRead hp, readReg_dropEvent]
  rfl

/-- A write of the word of `CLEAR` clears every register in every mode (R99). -/
theorem commandWrite_clearWord (s : State) : commandWrite clearWord s = .next (clearRegs s) := by
  rw [commandWrite_decoded (i := .clear) (by decide), execClear_next]

/-- Everything a step from ERROR mode can do: it takes a reset or `CLEAR` and clears every register, or it stays in
ERROR mode with the fault record kept (R115, R116). -/
theorem step_cases_of_error {s t : State} (hm : s.mode = .error) (h : step s = .next t) :
    (∃ rest, (s.pending = .reset :: rest ∨ s.pending = commandWord clearWord :: rest) ∧
        t = clearRegs (dropEvent rest s)) ∨
      (t.mode = .error ∧ t.errCode = s.errCode ∧ t.errCmd = s.errCmd) := by
  rcases step_cases h with ⟨-, rfl⟩ | ⟨rest, hp, rfl⟩ | ⟨rest, r, -, rfl⟩ | ⟨rest, r, v, -, -, rfl⟩ |
    ⟨rest, w, hp, hw⟩
  · exact .inr ⟨hm, rfl, rfl⟩
  · exact .inl ⟨rest, .inl hp, rfl⟩
  · exact .inr ⟨hm, rfl, rfl⟩
  · exact .inr ⟨hm, rfl, rfl⟩
  · by_cases hclear : w = clearWord
    · subst hclear
      cases (commandWrite_clearWord _).symm.trans hw
      exact .inl ⟨rest, .inr hp, rfl⟩
    · cases (commandWrite_ignored (s := dropEvent rest s) hm hclear).symm.trans hw
      exact .inr ⟨hm, rfl, rfl⟩

/-- A command that completes keeps the invariant of the fault record. -/
theorem completes_faultRecordInv {i : Instr} {s t : State} (hg : s.mode ≠ .error ∨ i = .clear)
    (h : Completes i s t) (hs : s.FaultRecordInv) : t.FaultRecordInv := by
  rcases completes_faultRecord h with rfl | ⟨hi, hcode, hcmd, hmode⟩
  · simp [State.FaultRecordInv]
  · have hm : s.mode ≠ .error := hg.resolve_right hi
    have hnone : s.errCode = .none := not_not.mp fun hne => hm (hs.1.mpr hne)
    have ht : t.mode ≠ .error := fun ht => hm (hmode ht)
    exact ⟨by simp [ht, hcode, hnone], fun _ => hcmd.trans (hs.2 hnone)⟩

/-- Settles O44: a step from ERROR mode clears every register or keeps the fault record, and elsewhere only a fault
writes the record. -/
theorem onlyClearOrResetLeavesError : Obligations.OnlyClearOrResetLeavesError := by
  refine ⟨fun s t hm h ht => ?leaves, fun s t hm h ht => ?stays, fun s t hs h => ?record⟩
  case leaves =>
    rcases step_cases_of_error hm h with ⟨rest, hnext, rfl⟩ | ⟨herr, -⟩
    · exact ⟨⟨rest, hnext⟩, fun r => readReg_clearRegs r _⟩
    · exact absurd herr ht
  case stays =>
    rcases step_cases_of_error hm h with ⟨rest, -, rfl⟩ | ⟨-, hrecord⟩
    · simp at ht
    · exact hrecord
  case record =>
    exact step_keeps (P := State.FaultRecordInv) (fun _ _ hs => hs) (fun _ _ hs => hs)
      (fun _ _ _ hc _ _ => by simp [State.FaultRecordInv, hc]) (fun _ _ _ hg hc hs => completes_faultRecordInv hg hc hs)
      hs h

end Sys2Proof.Machine

/-! Proofs that the encoder and the decoder are inverse and agree with the opcode map (R57 to R62). -/

namespace Sys2Proof

/-! ### Words as naturals (R57 to R59) -/

/-- A concatenation as a natural number: the high part counts in units of the low part's range. -/
theorem toNat_append_add {m n : Nat} (x : BitVec m) (y : BitVec n) :
    (x ++ y).toNat = x.toNat * 2 ^ n + y.toNat := by
  rw [BitVec.toNat_append, ← Nat.shiftLeft_add_eq_or_of_lt y.isLt, Nat.shiftLeft_eq]

/-- A bit of a word is the parity of the word without the bits below it. -/
theorem getLsbD_eq_decide {m : Nat} (w : BitVec m) (k : Nat) : w.getLsbD k = decide (w.toNat / 2 ^ k % 2 = 1) := by
  rw [BitVec.getLsbD, Nat.testBit_eq_decide_div_mod_eq]

theorem toNat_getLsbD {m : Nat} (w : BitVec m) (k : Nat) : (w.getLsbD k).toNat = w.toNat / 2 ^ k % 2 := by
  rw [getLsbD_eq_decide]
  rcases Nat.mod_two_eq_zero_or_one (w.toNat / 2 ^ k) with h | h <;> simp [h]

theorem toNat_cpField (w : Word) : (cpField w).toNat = w.toNat % 2 ^ 21 := by simp [cpField]

theorem toNat_byteField (w : Word) : (byteField w).toNat = w.toNat % 2 ^ 8 := by simp [byteField]

theorem toNat_countField (w : Word) : (countField w).toNat = w.toNat % 2 ^ 16 := by simp [countField]

/-- `T` is written as the bit it is read from (R59). -/
theorem toNat_bit_ofBit (b : Bool) : (TableSel.ofBit b).bit.toNat = b.toNat := by cases b <;> rfl

theorem toNat_bit_le (sel : TableSel) : sel.bit.toNat ≤ 1 := by cases sel <;> decide

/-- `T` is read back from the bit it is written as (R59). -/
theorem ofBit_decide_bit (sel : TableSel) : TableSel.ofBit (decide (sel.bit.toNat = 1)) = sel := by cases sel <;> rfl

theorem toNat_ofBool_eq (b : Bool) : (BitVec.ofBool b).toNat = b.toNat := by cases b <;> rfl

/-- The operand bits of a command as a natural number (R59). -/
def Instr.operandNat : Instr → Nat
  | .c2i cp => cp.toNat
  | .encChar cp => cp.toNat
  | .i2c sel idx => sel.bit.toNat * 2 ^ 8 + idx.toNat
  | .encSeptet x => x.toNat
  | .decBegin raw n => raw.toNat * 2 ^ 16 + n.toNat
  | .decOctet o => o.toNat
  | .nop => 0
  | .clear => 0
  | .encBegin => 0
  | .encEnd => 0
  | .decEnd => 0

theorem toNat_operandBits (i : Instr) : i.operandBits.toNat = i.operandNat := by
  cases i with
  | nop => rfl
  | clear => rfl
  | encBegin => rfl
  | encEnd => rfl
  | decEnd => rfl
  | c2i cp => exact (toNat_append_add 0#3 cp).trans (Nat.zero_add _)
  | encChar cp => exact (toNat_append_add 0#3 cp).trans (Nat.zero_add _)
  | encSeptet x => exact (toNat_append_add 0#16 x).trans (Nat.zero_add _)
  | decOctet o => exact (toNat_append_add 0#16 o).trans (Nat.zero_add _)
  | i2c sel idx =>
    rw [Instr.operandBits, toNat_append_add, toNat_append_add, BitVec.toNat_ofNat, Nat.zero_mod, Nat.zero_mul,
      Nat.zero_add, Instr.operandNat]
  | decBegin raw n =>
    rw [Instr.operandBits, toNat_append_add, toNat_append_add, BitVec.toNat_ofNat, Nat.zero_mod, Nat.zero_mul,
      Nat.zero_add, Instr.operandNat, toNat_ofBool_eq]

/-- An encoding is its `OPC` above its operand bits (R57). -/
theorem toNat_encode (i : Instr) : (encode i).toNat = i.opcode.code.toNat * 2 ^ 24 + i.operandNat := by
  rw [encode, toNat_append_add, toNat_operandBits]

/-! ### Decoding an encoding (R62) -/

/-- The operands of an encoding are read back from their fields, whatever the command. -/
theorem withOperands_encode (i : Instr) : i.opcode.withOperands (encode i) = i := by
  have hw := toNat_encode i
  cases i with
  | nop => rfl
  | clear => rfl
  | encBegin => rfl
  | encEnd => rfl
  | decEnd => rfl
  | c2i cp =>
    refine congrArg Instr.c2i (BitVec.eq_of_toNat_eq ?_)
    rw [toNat_cpField, hw, Instr.operandNat]
    omega
  | encChar cp =>
    refine congrArg Instr.encChar (BitVec.eq_of_toNat_eq ?_)
    rw [toNat_cpField, hw, Instr.operandNat]
    omega
  | encSeptet x =>
    refine congrArg Instr.encSeptet (BitVec.eq_of_toNat_eq ?_)
    rw [toNat_byteField, hw, Instr.operandNat]
    omega
  | decOctet o =>
    refine congrArg Instr.decOctet (BitVec.eq_of_toNat_eq ?_)
    rw [toNat_byteField, hw, Instr.operandNat]
    omega
  | i2c sel idx =>
    have hbit : (encode (.i2c sel idx)).toNat / 2 ^ 8 % 2 = sel.bit.toNat := by
      have := toNat_bit_le sel
      rw [hw, Instr.operandNat]
      omega
    have hidx : byteField (encode (.i2c sel idx)) = idx := by
      apply BitVec.eq_of_toNat_eq
      rw [toNat_byteField, hw, Instr.operandNat]
      omega
    rw [Instr.opcode, Opcode.withOperands, getLsbD_eq_decide, hbit, ofBit_decide_bit, hidx]
  | decBegin raw n =>
    have hraw : (encode (.decBegin raw n)).toNat / 2 ^ 16 % 2 = raw.toNat := by
      have := Bool.toNat_lt raw
      rw [hw, Instr.operandNat]
      omega
    have hn : countField (encode (.decBegin raw n)) = n := by
      apply BitVec.eq_of_toNat_eq
      rw [toNat_countField, hw, Instr.operandNat]
      omega
    rw [Instr.opcode, Opcode.withOperands, getLsbD_eq_decide, hraw, hn]
    cases raw <;> rfl

@[simp] theorem decode_encode (i : Instr) : decode (encode i) = some i :=
  decode_eq_some.mpr
    ⟨i.opcode, (opcodeField_encode i).symm, reservedBits_encode i, (withOperands_encode i).symm⟩

/-- Settles O1: an encoding has its row's `OPC`, no reserved bit and the operands in their fields. -/
theorem decodeEncodeAgree : Obligations.DecodeEncodeAgree := decode_encode

theorem encode_injective : Function.Injective encode := fun i j h =>
  Option.some.inj (by rw [← decode_encode i, h, decode_encode])

/-! ### Encoding a decoded command (R61, R62) -/

/-- How many low bits of the operand field a format does not reserve (R58). -/
def Format.operandWidth : Format → Nat
  | .n => 0
  | .c => 21
  | .i => 9
  | .s => 8
  | .o => 8
  | .b => 17

/-- The reserved bits of a format are the bits of the operand field above its operands (R58). -/
theorem reservedMask_eq (f : Format) : f.reservedMask.toNat = (2 ^ (24 - f.operandWidth) - 1) <<< f.operandWidth := by
  cases f <;> rfl

/-- No reserved bit is set exactly when the operand field is a number of the operands' width. -/
theorem reserved_eq_zero_iff (w : Word) (f : Format) :
    w &&& f.reservedMask = 0 ↔ w.toNat % 2 ^ 24 / 2 ^ f.operandWidth = 0 := by
  have hle : f.operandWidth ≤ 24 := by cases f <;> decide
  have hpow : 2 ^ 24 = 2 ^ f.operandWidth * 2 ^ (24 - f.operandWidth) := by
    rw [← Nat.pow_add, Nat.add_sub_cancel' hle]
  have hand : (w &&& f.reservedMask).toNat = 2 ^ f.operandWidth * (w.toNat % 2 ^ 24 / 2 ^ f.operandWidth) := by
    rw [BitVec.toNat_and, reservedMask_eq, hpow, Nat.mod_mul_right_div_self, ← Nat.and_two_pow_sub_one_eq_mod,
      ← Nat.shiftRight_eq_div_pow, Nat.mul_comm, ← Nat.shiftLeft_eq]
    apply Nat.eq_of_testBit_eq
    intro k
    simp only [Nat.testBit_and, Nat.testBit_shiftLeft, Nat.testBit_shiftRight]
    by_cases hk : f.operandWidth ≤ k
    · simp [hk, Nat.add_sub_cancel' hk]
    · simp [hk]
  rw [← BitVec.toNat_inj, hand]
  simp

/-- A word without reserved bits set is the encoding of its row's operand fields. -/
theorem encode_withOperands {w : Word} {op : Opcode} (hcode : op.code = opcodeField w)
    (hres : w &&& op.format.reservedMask = 0) : encode (op.withOperands w) = w := by
  have hhigh : w.toNat / 2 ^ 24 = op.code.toNat := by
    rw [hcode, toNat_opcodeField, BitVec.toNat_ushiftRight, Nat.shiftRight_eq_div_pow]
  have hlow := (reserved_eq_zero_iff w op.format).mp hres
  apply BitVec.eq_of_toNat_eq
  rw [toNat_encode, opcode_withOperands, ← hhigh]
  suffices (op.withOperands w).operandNat = w.toNat % 2 ^ 24 by omega
  cases op <;>
  simp only [Opcode.withOperands, Instr.operandNat, toNat_cpField, toNat_byteField, toNat_countField, toNat_bit_ofBit,
    toNat_getLsbD, Opcode.format, Format.operandWidth] at hlow ⊢ <;>
  omega

theorem encode_of_decode {w : Word} {i : Instr} (h : decode w = some i) : encode i = w := by
  obtain ⟨op, hcode, hres, rfl⟩ := decode_eq_some.mp h
  exact encode_withOperands hcode hres

/-- Settles O2: the word has its row's `OPC`, no reserved bit set, and the operands read from it. -/
theorem encodeDecodeAgree : Obligations.EncodeDecodeAgree := fun _ _ => encode_of_decode

/-! ### The opcode map (R60) -/

/-- Each row's mask is the opcode field and the reserved bits of its format, and its match is its `OPC` alone (R60). -/
theorem opcodeRows_shape {r : OpcodeRow} (h : r ∈ opcodeRows) :
    r.mask = 0xFF000000#32 ||| r.op.format.reservedMask ∧ r.matchBits = r.op.code ++ 0#24 := by
  revert r
  decide

/-- The opcode field and the reserved bits of a format have no bit in common, and an `OPC` has none outside the opcode
field (R57, R58). -/
theorem opcode_disjoint_reserved (op : Opcode) :
    (0xFF000000#32 ||| op.format.reservedMask) &&& 0xFF000000#32 = 0xFF000000#32 ∧
    (0xFF000000#32 ||| op.format.reservedMask) &&& op.format.reservedMask = op.format.reservedMask ∧
    (op.code ++ 0#24) &&& 0xFF000000#32 = op.code ++ 0#24 ∧ (op.code ++ 0#24) &&& op.format.reservedMask = 0 := by
  cases op <;> decide

/-- The opcode bits of a word are an `OPC` exactly when its opcode field is. -/
theorem and_opcodeBits_eq_iff (w : Word) (c : BitVec 8) : w &&& 0xFF000000#32 = c ++ 0#24 ↔ c = opcodeField w := by
  have hand : w &&& 0xFF000000#32 = opcodeField w ++ 0#24 := by
    apply BitVec.eq_of_getLsbD_eq
    intro k hk
    simp only [opcodeField, BitVec.getLsbD_and, BitVec.getLsbD_append, BitVec.getLsbD_extractLsb']
    interval_cases k <;> simp
  rw [hand, ← BitVec.toNat_inj, ← BitVec.toNat_inj, toNat_append_add, toNat_append_add]
  omega

/-- A word selects a row exactly when it has the row's `OPC` and no reserved bit of its format. -/
theorem selects_iff {r : OpcodeRow} (h : r ∈ opcodeRows) (w : Word) :
    w &&& r.mask = r.matchBits ↔ r.op.code = opcodeField w ∧ w &&& r.op.format.reservedMask = 0 := by
  obtain ⟨hmask, hmatch⟩ := opcodeRows_shape h
  obtain ⟨hopc, hres, hopc', hres'⟩ := opcode_disjoint_reserved r.op
  rw [hmask, hmatch, ← and_opcodeBits_eq_iff]
  constructor
  · intro hw
    constructor
    · rw [← hopc, ← BitVec.and_assoc, hw, hopc']
    · rw [← hres, ← BitVec.and_assoc, hw, hres']
  · rintro ⟨hhigh, hlow⟩
    rw [BitVec.and_or_distrib_left, hhigh, hlow]
    exact BitVec.or_zero

/-- Each opcode has one row. -/
theorem opcodeRows_inj {r r' : OpcodeRow} (h : r ∈ opcodeRows) (h' : r' ∈ opcodeRows) (hop : r.op = r'.op) :
    r = r' := by
  have hall : ∀ q ∈ opcodeRows, ∀ q' ∈ opcodeRows, q.op = q'.op → q = q' := by decide
  exact hall r h r' h' hop

/-- Settles O4: a row's match and mask ask for its `OPC` and no reserved bit, which is what decoding asks for. -/
theorem opcodeMapSelectsTheDecodedRow : Obligations.OpcodeMapSelectsTheDecodedRow := by
  refine ⟨fun w r hr => ?_, fun w r r' hr hr' hw hw' => ?_⟩
  · rw [selects_iff hr]
    constructor
    · rintro ⟨hcode, hres⟩
      exact ⟨_, decode_eq_some.mpr ⟨r.op, hcode, hres, rfl⟩, opcode_withOperands _ _⟩
    · rintro ⟨i, hi, hop⟩
      obtain ⟨op, hcode, hres, rfl⟩ := decode_eq_some.mp hi
      rw [opcode_withOperands] at hop
      exact hop ▸ ⟨hcode, hres⟩
  · obtain ⟨hcode, -⟩ := (selects_iff hr w).mp hw
    obtain ⟨hcode', -⟩ := (selects_iff hr' w).mp hw'
    have hop : some r.op = some r'.op := by rw [← ofCode_code, ← ofCode_code, hcode, hcode']
    exact opcodeRows_inj hr hr' (Option.some.inj hop)

/-- Settles O5: one word of each family and format, decoded. -/
theorem writtenWordsDecode : Obligations.WrittenWordsDecode := by
  refine ⟨?_, ?_, ?_, ?_, ?_, ?_⟩ <;> decide

end Sys2Proof

/-! Proofs of what the registers show (R20 to R32), of what a read, a lookup and every other command leave as it was
(R17, R45, R46, R123, R124), and that a conforming host is never refused (R44). -/

namespace Sys2Proof.Machine

/-! ### The register window (R20 to R32, R46) -/

/-- A write of a register other than CMD has no effect (R46). -/
theorem step_writeReadOnly {s : State} {r : Reg} {v : Word} {rest : List BusEvent} (hr : r ≠ .cmd)
    (h : s.pending = .write r.offset 4 v :: rest) : step s = .next (dropEvent rest s) := by
  simp [step_of_pending h, takeEvent, hr]

/-- Settles O8: a read only adds a response, and a write reaches nothing but CMD. -/
theorem readsAndReadOnlyWritesHaveNoSideEffect : Obligations.ReadsAndReadOnlyWritesHaveNoSideEffect := by
  refine fun s r rest => ⟨fun hp => ?_, fun v hr hp => step_writeReadOnly hr hp⟩
  rw [step_hostRead hp, readReg_dropEvent]
  rfl

theorem toNat_statusWord (s : State) :
    s.statusWord.toNat = s.mode.code.toNat + 2 ^ 2 * s.escPending.toNat + 2 ^ 3 * s.raw.toNat +
      2 ^ 4 * s.errCode.code.toNat + 2 ^ 8 * s.nbits.toNat := by
  rw [State.statusWord]
  simp only [toNat_append_add, toNat_ofBool_eq, BitVec.toNat_ofNat]
  omega

theorem toNat_lresIdxWord (r : LresIdx) : r.word.toNat = r.index.toNat + 2 ^ 8 * r.cls.code.toNat := by
  rw [LresIdx.word]
  simp only [toNat_append_add, BitVec.toNat_ofNat]
  omega

theorem toNat_lresChrWord (r : LresChr) :
    r.word.toNat = r.cp.toNat + 2 ^ 24 * r.valid.toNat + 2 ^ 25 * r.escMark.toNat := by
  rw [LresChr.word]
  simp only [toNat_append_add, toNat_ofBool_eq, BitVec.toNat_ofNat]
  omega

theorem toNat_outOctWord (r : OutOct) : r.word.toNat = r.oct0.toNat + 2 ^ 8 * r.oct1.toNat + 2 ^ 16 * r.octN.toNat := by
  rw [OutOct.word]
  simp only [toNat_append_add, BitVec.toNat_ofNat]
  omega

theorem toNat_outSeptWord (r : OutSept) :
    r.word.toNat = r.sept0.toNat + 2 ^ 8 * r.sept1.toNat + 2 ^ 16 * r.septN.toNat := by
  rw [OutSept.word]
  simp only [toNat_append_add, BitVec.toNat_ofNat]
  omega

theorem toNat_outChrWord (r : OutChr) : r.word.toNat = r.cp.toNat + 2 ^ 24 * r.valid.toNat := by
  rw [OutChr.word]
  simp only [toNat_append_add, toNat_ofBool_eq, BitVec.toNat_ofNat]
  omega

theorem toNat_countWord (c : Count) : (countWord c).toNat = c.toNat := by
  rw [countWord, toNat_append_add, BitVec.toNat_ofNat]
  omega

theorem toNat_accWord (a : BitVec 15) : (accWord a).toNat = a.toNat := by
  rw [accWord, toNat_append_add, BitVec.toNat_ofNat]
  omega

/-- Settles O9: each register is a concatenation of its fields and zeros. -/
theorem registerFieldsStandInTheirBits : Obligations.RegisterFieldsStandInTheirBits := by
  refine ⟨by decide, by decide, by decide, by decide, fun s => ?_⟩
  exact ⟨toNat_statusWord s, rfl, toNat_lresIdxWord _, toNat_lresChrWord _, toNat_outOctWord _, toNat_outSeptWord _,
    toNat_outChrWord _, toNat_outChrWord _, toNat_countWord _, toNat_countWord _, toNat_countWord _, toNat_accWord _,
    rfl, rfl, rfl, rfl⟩

/-! ### What no command changes (R17, R19) -/

/-- No command changes the ROMs or what stands for the host. -/
theorem completes_rom_host {i : Instr} {s t : State} (h : Completes i s t) :
    t.rom = s.rom ∧ t.pending = s.pending ∧ t.responses = s.responses := by
  cases i with
  | nop => obtain rfl := h; exact ⟨rfl, rfl, rfl⟩
  | clear => obtain rfl := h; exact ⟨rfl, rfl, rfl⟩
  | c2i cp => obtain rfl := h; exact ⟨rfl, rfl, rfl⟩
  | i2c sel idx => obtain ⟨-, rfl⟩ := h; exact ⟨rfl, rfl, rfl⟩
  | encBegin => obtain rfl := h; exact ⟨rfl, rfl, rfl⟩
  | encChar cp => obtain ⟨-, ss, -, -, rfl⟩ := h; exact ⟨rfl, rfl, rfl⟩
  | encSeptet x => obtain ⟨-, -, -, rfl⟩ := h; exact ⟨rfl, rfl, rfl⟩
  | encEnd => obtain ⟨-, rfl⟩ := h; exact ⟨rfl, rfl, rfl⟩
  | decBegin raw n => obtain rfl := h; exact ⟨rfl, rfl, rfl⟩
  | decOctet o => obtain ⟨-, -, d, -, rfl⟩ := h; exact ⟨rfl, rfl, rfl⟩
  | decEnd => obtain ⟨-, -, -, rfl⟩ := h; exact ⟨rfl, rfl, rfl⟩

theorem exec_rom_host {i : Instr} {s t : State} (h : exec i s = .next t) :
    t.rom = s.rom ∧ t.pending = s.pending ∧ t.responses = s.responses := by
  rcases exec_cases h with ⟨-, -, rfl⟩ | ⟨-, c, -, rfl⟩ | ⟨-, hc⟩
  · exact ⟨rfl, rfl, rfl⟩
  · exact ⟨rfl, rfl, rfl⟩
  · exact completes_rom_host hc

/-- Settles O53: no operation a step is made of writes the ROMs. -/
theorem stepKeepsTheRoms : Obligations.StepKeepsTheRoms := by
  intro s t h
  exact step_keeps (P := fun u => u.rom = s.rom) (fun _ _ hu => hu) (fun _ _ hu => hu) (fun _ _ _ _ _ hu => hu)
    (fun _ _ _ _ hc hu => (completes_rom_host hc).1.trans hu) rfl h

/-! ### A conforming host (R44, R50) -/

theorem commandWrite_pending {w : Word} {s t : State} (h : commandWrite w s = .next t) : t.pending = s.pending := by
  rcases commandWrite_cases h with ⟨-, -, rfl⟩ | ⟨-, -, rfl⟩ | ⟨-, i, -, he⟩
  · rfl
  · rfl
  · exact (exec_rom_host he).2.1

/-- Taking one access leaves the others as they are. -/
theorem takeEvent_pending {e : BusEvent} {s t : State} (h : takeEvent e s = .next t) : t.pending = s.pending := by
  cases e with
  | reset => cases h; rfl
  | read off n =>
    cases hr : resolve off n with
    | error why => simp [takeEvent, hr] at h
    | ok r =>
      simp only [takeEvent, hr] at h
      cases h
      rfl
  | write off n v =>
    cases hr : resolve off n with
    | error why => simp [takeEvent, hr] at h
    | ok r =>
      simp only [takeEvent, hr] at h
      split at h
      · exact commandWrite_pending h
      · cases h
        rfl

/-- An access R44 defines is taken. -/
theorem takeEvent_of_wf {e : BusEvent} (h : e.wf = true) (s : State) : ∃ t, takeEvent e s = .next t := by
  cases e with
  | reset => exact ⟨_, rfl⟩
  | read off n =>
    cases hr : resolve off n with
    | error why => simp [BusEvent.wf, hr, Except.isOk, Except.toBool] at h
    | ok r => exact takeEvent_of_resolve_ok (v := 0) (.inl rfl) hr s
  | write off n v =>
    cases hr : resolve off n with
    | error why => simp [BusEvent.wf, hr, Except.isOk, Except.toBool] at h
    | ok r => exact takeEvent_of_resolve_ok (.inr rfl) hr s

/-- Settles O10: the oldest access is one the SPU takes, and the others stay. -/
theorem conformingHostIsNeverRefused : Obligations.ConformingHostIsNeverRefused := by
  intro s hs
  cases hp : s.pending with
  | nil => exact ⟨s, by simp [step, takeNext, hp], hs⟩
  | cons e rest =>
    rw [State.hostConforms, hp, List.all_cons, Bool.and_eq_true] at hs
    obtain ⟨he, hrest⟩ := hs
    obtain ⟨t, ht⟩ := takeEvent_of_wf he (dropEvent rest s)
    refine ⟨t, by rw [step_of_pending hp, ht], ?_⟩
    rw [State.hostConforms, takeEvent_pending ht]
    exact hrest

/-! ### Commands that are ignored or fault (R110, R115) -/

/-- ERROR mode ignores every command but `CLEAR` (R115). -/
theorem exec_error {i : Instr} {s : State} (hm : s.mode = .error) (hi : i ≠ .clear) : exec i s = .next s := by
  rw [exec_eq_runCommand hi, runCommand_error hm]

/-- Outside ERROR mode a command whose body reports a fault raises it (R110). -/
theorem exec_fault {i : Instr} {s : State} {c : ErrCode} (hm : s.mode ≠ .error) (h : commandBody i s = .error c) :
    exec i s = .next (raiseFault c (encode i) s) := by
  have hi : i ≠ .clear := by
    rintro rfl
    exact nomatch h
  rw [exec_eq_runCommand hi, h, runCommand_fault hm]

/-- `I2C` of an index of 128 or more (R74). -/
theorem execI2c_indexRange {s : State} {idx : BitVec 8} (hm : s.mode ≠ .error) (sel : TableSel) (h : 128 ≤ idx.toNat) :
    exec (.i2c sel idx) s = .next (raiseFault .indexRange (encode (.i2c sel idx)) s) :=
  exec_fault hm (by simp [commandBody, septetOperand_of_le h])

/-- Settles O16: an operand of 128 or more is no septet, which `I2C` checks before it looks the entry up. -/
theorem i2cIndexRangeFaults : Obligations.I2cIndexRangeFaults := fun _ sel _ hm h => execI2c_indexRange hm sel h

/-! ### Lookup results and output registers (R123, R124) -/

/-- Only `C2I` and `CLEAR` write LRES_IDX, and only `I2C` and `CLEAR` write LRES_CHR. -/
theorem completes_lookupResults {i : Instr} {s t : State} (hi : i ≠ .clear) (h : Completes i s t) :
    ((∀ cp, i ≠ .c2i cp) → t.lresIdx = s.lresIdx) ∧ ((∀ sel idx, i ≠ .i2c sel idx) → t.lresChr = s.lresChr) := by
  cases i with
  | clear => exact absurd rfl hi
  | c2i cp => obtain rfl := h; exact ⟨fun hne => absurd rfl (hne cp), fun _ => rfl⟩
  | i2c sel idx => obtain ⟨-, rfl⟩ := h; exact ⟨fun _ => rfl, fun hne => absurd rfl (hne sel idx)⟩
  | nop => obtain rfl := h; exact ⟨fun _ => rfl, fun _ => rfl⟩
  | encBegin => obtain rfl := h; exact ⟨fun _ => rfl, fun _ => rfl⟩
  | encChar cp => obtain ⟨-, ss, -, -, rfl⟩ := h; exact ⟨fun _ => rfl, fun _ => rfl⟩
  | encSeptet x => obtain ⟨-, -, -, rfl⟩ := h; exact ⟨fun _ => rfl, fun _ => rfl⟩
  | encEnd => obtain ⟨-, rfl⟩ := h; exact ⟨fun _ => rfl, fun _ => rfl⟩
  | decBegin raw n => obtain rfl := h; exact ⟨fun _ => rfl, fun _ => rfl⟩
  | decOctet o => obtain ⟨-, -, d, -, rfl⟩ := h; exact ⟨fun _ => rfl, fun _ => rfl⟩
  | decEnd => obtain ⟨-, -, -, rfl⟩ := h; exact ⟨fun _ => rfl, fun _ => rfl⟩

/-- Settles O54: a fault writes no lookup result, `C2I` and `I2C` write only their own, and no other command but
`CLEAR` writes one. -/
theorem lookupsAndSessionsDoNotMix : Obligations.LookupsAndSessionsDoNotMix := by
  refine ⟨fun s t cp h => ?c2i, fun s t sel idx h => ?i2c, fun s t i hi h => ?others⟩
  case c2i =>
    by_cases hm : s.mode = .error
    · cases (exec_error hm (i := .c2i cp) nofun).symm.trans h
      rfl
    · cases (execC2i_next hm cp).symm.trans h
      rfl
  case i2c =>
    by_cases hm : s.mode = .error
    · cases (exec_error hm (i := .i2c sel idx) nofun).symm.trans h
      exact ⟨rfl, fun _ => rfl⟩
    · by_cases hidx : idx.toNat < 128
      · cases (execI2c_next hm sel hidx).symm.trans h
        exact ⟨rfl, fun _ => rfl⟩
      · cases (execI2c_indexRange hm sel (Nat.not_lt.mp hidx)).symm.trans h
        exact ⟨rfl, fun hlt => absurd hlt hidx⟩
  case others =>
    rcases exec_cases h with ⟨-, -, rfl⟩ | ⟨-, c, -, rfl⟩ | ⟨-, hc⟩
    · exact ⟨fun _ => rfl, fun _ => rfl⟩
    · exact ⟨fun _ => rfl, fun _ => rfl⟩
    · exact completes_lookupResults hi hc

/-- Only encode commands, a BEGIN and `CLEAR` write OUT_OCT; only `DEC_OCTET`, a BEGIN and `CLEAR` write OUT_SEPT and
the OUT_CHR registers. -/
theorem completes_outputs {i : Instr} {s t : State} (h : Completes i s t) :
    (i.opcode ∉ [Opcode.encChar, .encSeptet, .encEnd, .encBegin, .decBegin, .clear] → t.outOct = s.outOct) ∧
    (i.opcode ∉ [Opcode.decOctet, .encBegin, .decBegin, .clear] →
      t.outSept = s.outSept ∧ t.outChr0 = s.outChr0 ∧ t.outChr1 = s.outChr1) := by
  cases i with
  | clear => exact ⟨fun hi => by simp [Instr.opcode] at hi, fun hi => by simp [Instr.opcode] at hi⟩
  | encBegin => exact ⟨fun hi => by simp [Instr.opcode] at hi, fun hi => by simp [Instr.opcode] at hi⟩
  | decBegin raw n => exact ⟨fun hi => by simp [Instr.opcode] at hi, fun hi => by simp [Instr.opcode] at hi⟩
  | encChar cp =>
    obtain ⟨-, ss, -, -, rfl⟩ := h
    exact ⟨fun hi => by simp [Instr.opcode] at hi, fun _ => ⟨rfl, rfl, rfl⟩⟩
  | encSeptet x => obtain ⟨-, -, -, rfl⟩ := h; exact ⟨fun hi => by simp [Instr.opcode] at hi, fun _ => ⟨rfl, rfl, rfl⟩⟩
  | encEnd => obtain ⟨-, rfl⟩ := h; exact ⟨fun hi => by simp [Instr.opcode] at hi, fun _ => ⟨rfl, rfl, rfl⟩⟩
  | decOctet o => obtain ⟨-, -, d, -, rfl⟩ := h; exact ⟨fun _ => rfl, fun hi => by simp [Instr.opcode] at hi⟩
  | nop => obtain rfl := h; exact ⟨fun _ => rfl, fun _ => ⟨rfl, rfl, rfl⟩⟩
  | c2i cp => obtain rfl := h; exact ⟨fun _ => rfl, fun _ => ⟨rfl, rfl, rfl⟩⟩
  | i2c sel idx => obtain ⟨-, rfl⟩ := h; exact ⟨fun _ => rfl, fun _ => ⟨rfl, rfl, rfl⟩⟩
  | decEnd => obtain ⟨-, -, -, rfl⟩ := h; exact ⟨fun _ => rfl, fun _ => ⟨rfl, rfl, rfl⟩⟩

/-- Settles O55: ERROR mode and a fault write no output register, and a command that completes only its own. -/
theorem outputsLastUntilTheNextCommandOfTheirKind : Obligations.OutputsLastUntilTheNextCommandOfTheirKind := by
  intro s t i h
  rcases exec_cases h with ⟨-, -, rfl⟩ | ⟨-, c, -, rfl⟩ | ⟨-, hc⟩
  · exact ⟨fun _ => rfl, fun _ => ⟨rfl, rfl, rfl⟩⟩
  · exact ⟨fun _ => rfl, fun _ => ⟨rfl, rfl, rfl⟩⟩
  · exact completes_outputs hc

end Sys2Proof.Machine

/-! Proofs of what the two lookup commands write and of which ROM contents are accepted (R69 to R74). -/

namespace Sys2Proof.Machine

/-! ### Entries by septet (R10) -/

/-- The indices of a ROM are the septets. -/
theorem forall_index_iff {P : (j : Nat) → j < 128 → Prop} :
    (∀ j (hj : j < 128), P j hj) ↔ ∀ j : Septet, P j.toNat j.isLt := by
  refine ⟨fun h j => h j.toNat j.isLt, fun h j hj => ?_⟩
  have hof : (BitVec.ofNat 7 j).toNat = j := by simpa using Nat.mod_eq_of_lt hj
  simpa only [hof] using h (BitVec.ofNat 7 j)

/-- The search of a ROM finds a septet exactly when its entry is the first to hold the code point. -/
theorem romIndex_eq_some_septet {rom : Vector RomEntry 128} {cp : CodePoint} {i : Septet} :
    romIndex rom cp = some i.toNat ↔ (rom[i.toNat]'i.isLt).holds cp = true ∧
      ∀ j : Septet, j.toNat < i.toNat → (rom[j.toNat]'j.isLt).holds cp = false := by
  rw [romIndex_eq_some, ← forall_index_iff (P := fun j hj => j < i.toNat → rom[j].holds cp = false)]
  exact ⟨fun ⟨_, hi, hlow⟩ => ⟨hi, fun j _ hj => hlow j hj⟩,
    fun ⟨hi, hlow⟩ => ⟨i.isLt, hi, fun j hj => hlow j (hj.trans i.isLt) hj⟩⟩

/-- The search of a ROM finds nothing exactly when no septet's entry holds the code point. -/
theorem romIndex_eq_none_septet {rom : Vector RomEntry 128} {cp : CodePoint} :
    romIndex rom cp = none ↔ ∀ j : Septet, (rom[j.toNat]'j.isLt).holds cp = false := by
  rw [romIndex_eq_none]
  exact forall_index_iff (P := fun j hj => rom[j].holds cp = false)

theorem holds_eq_false_iff (e : RomEntry) (cp : CodePoint) : e.holds cp = false ↔ ¬(e.valid = true ∧ e.cp = cp) := by
  rw [← holds_iff, Bool.not_eq_true]

/-! ### C2I and I2C (R72, R74) -/

/-- `C2I` writes what the lookup answers (R72). -/
theorem execC2i_of_charIndex {s : State} {cp : CodePoint} {c : CharClass} {i : Septet} (hm : s.mode ≠ .error)
    (h : charIndex s.rom cp = (c, i)) : exec (.c2i cp) s = .next { s with lresIdx := ⟨i, c⟩ } := by
  rw [execC2i_next hm, h]
  rfl

/-- Settles O14: the lookup answers the first index of the default ROM, else of the extension ROM, that holds the code
point. -/
theorem c2iWritesTheLookupResult : Obligations.C2iWritesTheLookupResult := by
  intro s cp hm
  simp only [← holds_eq_false_iff]
  refine ⟨fun i hvalid hcp hlow => ?dflt, fun hdflt => ⟨fun i hvalid hcp hlow => ?ext, fun hext => ?unmapped⟩⟩
  case dflt =>
    have hfound := romIndex_eq_some_septet.mpr ⟨(holds_iff _ _).mpr ⟨hvalid, hcp⟩, hlow⟩
    exact execC2i_of_charIndex hm (charIndex_eq_default.mpr hfound)
  case ext =>
    have hnone := romIndex_eq_none_septet.mpr hdflt
    have hfound := romIndex_eq_some_septet.mpr ⟨(holds_iff _ _).mpr ⟨hvalid, hcp⟩, hlow⟩
    exact execC2i_of_charIndex hm (charIndex_eq_extension.mpr ⟨hnone, hfound⟩)
  case unmapped =>
    apply execC2i_of_charIndex hm
    rw [charIndex, romIndex_eq_none_septet.mpr hdflt, romIndex_eq_none_septet.mpr hext]

/-- What `I2C` writes for an entry: its character, or 0 when it has none (R74). -/
theorem lresChrOf_toSeptetChar (e : RomEntry) :
    lresChrOf e.toSeptetChar = if e.valid then ⟨e.cp, true, false⟩ else ⟨0, false, false⟩ := by
  rw [RomEntry.toSeptetChar]
  split <;> rfl

/-- The low seven bits of an index below 128 are the escape septet only for index 27. -/
theorem setWidth_eq_esc_iff {idx : BitVec 8} (h : idx.toNat < 128) : idx.setWidth 7 = Config.esc ↔ idx = 27 := by
  rw [← BitVec.toNat_inj, ← BitVec.toNat_inj, BitVec.toNat_setWidth, Nat.mod_eq_of_lt h]
  rfl

/-- Settles O15: `septetChar` is the escape mark for default index 27 and the entry's character elsewhere. -/
theorem i2cWritesTheEntry : Obligations.I2cWritesTheEntry := by
  intro s idx hm hidx
  refine ⟨fun hesc => ?escape, fun hesc => ?dflt, ?ext⟩
  case escape =>
    have hslot : septetChar s.rom false (idx.setWidth 7) = .escapeSignal := by
      rw [septetChar, if_neg Bool.false_ne_true, if_pos ((setWidth_eq_esc_iff hidx).mpr hesc)]
    rw [execI2c_next hm .dflt hidx, escOf, hslot]
    rfl
  case dflt =>
    have hslot : septetChar s.rom false (idx.setWidth 7) = (s.rom.defAt (idx.setWidth 7)).toSeptetChar := by
      rw [septetChar, if_neg Bool.false_ne_true, if_neg (mt (setWidth_eq_esc_iff hidx).mp hesc)]
    rw [execI2c_next hm .dflt hidx, escOf, hslot, lresChrOf_toSeptetChar]
    rfl
  case ext =>
    have hslot : septetChar s.rom true (idx.setWidth 7) = (s.rom.extAt (idx.setWidth 7)).toSeptetChar := if_pos rfl
    rw [execI2c_next hm .ext hidx, escOf, hslot, lresChrOf_toSeptetChar]
    rfl

/-! ### Well-formed ROM contents (R69) -/

/-- The entries of one ROM are those of its septets. -/
theorem mem_rom_iff {rom : Vector RomEntry 128} {e : RomEntry} :
    e ∈ rom.toList ↔ ∃ i : Septet, e = rom[i.toNat]'i.isLt := by
  constructor
  · intro he
    obtain ⟨j, hj, rfl⟩ := List.getElem_of_mem he
    have hj : j < 128 := by simpa using hj
    have hof : (BitVec.ofNat 7 j).toNat = j := by simpa using Nat.mod_eq_of_lt hj
    exact ⟨BitVec.ofNat 7 j, by simp only [hof, Vector.getElem_toList]⟩
  · rintro ⟨i, rfl⟩
    simp

/-- Entries of one ROM are pairwise distinct when those of any two septets are. -/
theorem pairwise_distinctFrom_iff (rom : Vector RomEntry 128) :
    rom.toList.Pairwise RomEntry.DistinctFrom ↔
      ∀ i j : Septet, i ≠ j → (rom[i.toNat]'i.isLt).DistinctFrom (rom[j.toNat]'j.isLt) := by
  rw [List.pairwise_iff_getElem]
  simp only [Vector.length_toList, Vector.getElem_toList]
  constructor
  · intro h i j hne
    rcases Nat.lt_or_gt_of_ne (mt BitVec.eq_of_toNat_eq hne) with hlt | hlt
    · exact h _ _ i.isLt j.isLt hlt
    · exact fun hi hj heq => h _ _ j.isLt i.isLt hlt hj hi heq.symm
  · intro h i j hi hj hlt
    have hofi : (BitVec.ofNat 7 i).toNat = i := by simpa using Nat.mod_eq_of_lt hi
    have hofj : (BitVec.ofNat 7 j).toNat = j := by simpa using Nat.mod_eq_of_lt hj
    have hne : BitVec.ofNat 7 i ≠ BitVec.ofNat 7 j := fun heq => by
      have := congrArg BitVec.toNat heq
      omega
    simpa only [hofi, hofj] using h _ _ hne

/-- R69 (b) for one entry. -/
theorem cpInRange_iff (e : RomEntry) :
    e.cpInRange = true ↔
      (e.valid = true → e.cp.toNat ≤ 0x10FFFF ∧ ¬(0xD800 ≤ e.cp.toNat ∧ e.cp.toNat ≤ 0xDFFF)) := by
  cases hv : e.valid with
  | false => simp [RomEntry.cpInRange, hv]
  | true =>
    simp only [RomEntry.cpInRange, hv, Bool.not_true, Bool.false_or, Bool.and_eq_true, Bool.not_eq_true',
      decide_eq_true_eq, Bool.and_eq_false_iff, decide_eq_false_iff_not, forall_const]
    omega

/-- R69 (b) by septets. -/
theorem cpsInRange_iff (t : CharTables) :
    t.cpsInRange = true ↔ ∀ i : Septet, ∀ e, e = t.defAt i ∨ e = t.extAt i → e.cpInRange = true := by
  simp only [CharTables.cpsInRange, List.all_eq_true, CharTables.entries, List.mem_append, mem_rom_iff]
  constructor
  · rintro h i e (rfl | rfl)
    · exact h _ (.inl ⟨i, rfl⟩)
    · exact h _ (.inr ⟨i, rfl⟩)
  · rintro h e (⟨i, he⟩ | ⟨i, he⟩)
    · exact h i e (.inl he)
    · exact h i e (.inr he)

/-- R69 (c) by septets: distinct code points within each ROM and across both. -/
theorem cpsDistinct_iff_septets (t : CharTables) :
    t.cpsDistinct = true ↔ (∀ i j : Septet, i ≠ j → (t.defAt i).DistinctFrom (t.defAt j)) ∧
      (∀ i j : Septet, i ≠ j → (t.extAt i).DistinctFrom (t.extAt j)) ∧
      ∀ i j : Septet, (t.defAt i).DistinctFrom (t.extAt j) := by
  rw [cpsDistinct_iff, CharTables.entries, List.pairwise_append, pairwise_distinctFrom_iff, pairwise_distinctFrom_iff]
  simp only [mem_rom_iff]
  refine and_congr_right' (and_congr_right' ⟨fun h i j => h _ ⟨i, rfl⟩ _ ⟨j, rfl⟩, ?_⟩)
  rintro h _ ⟨i, rfl⟩ _ ⟨j, rfl⟩
  exact h i j

/-- A machine is built exactly when the contents are well-formed (R7). -/
theorem withTables_isSome_iff (t : CharTables) : (State.withTables t).isSome = true ↔ t.wf = true := by
  rw [State.withTables]
  split <;> simp [*]

/-- The contents of R67 and R68 meet R69. -/
theorem standard_wf : CharTables.standard.wf = true := by decide +kernel

/-- Settles O19: the three checks of R69, entry by entry, and their evaluation on the contents of R67 and R68. -/
theorem givenTablesAreChecked : Obligations.GivenTablesAreChecked := by
  refine ⟨fun t => ?_, (withTables_isSome_iff _).mpr standard_wf, by decide +kernel⟩
  rw [withTables_isSome_iff, CharTables.wf, Bool.and_eq_true, Bool.and_eq_true, and_assoc, cpsInRange_iff,
    cpsDistinct_iff_septets]
  simp only [CharTables.escInvalid, Bool.not_eq_true', cpInRange_iff]
  rfl

end Sys2Proof.Machine

/-! Proofs of what the commands of an encode session write and when they fault (R79 to R86), and of when two septet
counts give one payload length (R78). -/

namespace Sys2Proof.Machine

/-! ### One push (R79) -/

theorem pushAll_singleton (acc nb : Nat) (x : Septet) : pushAll acc nb [x] = push acc nb x := by
  simp [pushAll]

theorem pushAll_pair (acc nb : Nat) (x y : Septet) :
    pushAll acc nb [x, y] =
      ⟨(push (push acc nb x).acc (push acc nb x).nb y).acc, (push (push acc nb x).acc (push acc nb x).nb y).nb,
        (push acc nb x).outs ++ (push (push acc nb x).acc (push acc nb x).nb y).outs⟩ := by
  simp [pushAll]

/-- A push onto no bits emits nothing. -/
theorem push_empty (acc : Nat) (x : Septet) : push acc 0 x = ⟨acc ||| (x.toNat <<< 0), 7, []⟩ := rfl

/-- The low 8 bits are the octet, masked or not. -/
theorem ofNat_and_255 (a : Nat) : BitVec.ofNat 8 (a &&& 0xFF) = BitVec.ofNat 8 a :=
  BitVec.eq_of_toNat_eq (by simp [and_255])

/-- A push onto held bits emits the low 8 bits. -/
theorem push_of_pos {nb : Nat} (h : 0 < nb) (acc : Nat) (x : Septet) :
    push acc nb x =
      ⟨(acc ||| (x.toNat <<< nb)) >>> 8, nb - 1, [BitVec.ofNat 8 (acc ||| (x.toNat <<< nb))]⟩ := by
  have hge : 8 ≤ nb + Config.septetBits := by simp only [Config.septetBits]; omega
  simp only [push, hge, if_true, ofNat_and_255]
  congr 1

/-- A push emits one octet, or none onto no bits. -/
theorem push_outs_length (acc nb : Nat) (x : Septet) : (push acc nb x).outs.length = if nb = 0 then 0 else 1 := by
  rcases Nat.eq_zero_or_pos nb with rfl | hpos
  · rfl
  · simp [push_of_pos hpos, hpos.ne']

/-- A push of 7 bits that emits 8 leaves one less. -/
theorem push_nb (acc nb : Nat) (x : Septet) : (push acc nb x).nb = if nb = 0 then 7 else nb - 1 := by
  rcases Nat.eq_zero_or_pos nb with rfl | hpos
  · rfl
  · simp [push_of_pos hpos, hpos.ne']

/-! ### ENC_SEPTET and ENC_CHAR (R84, R85) -/

/-- A field that is not 0 loses 1 when its value does. -/
theorem ofNat_toNat_sub_one {w : Nat} {b : BitVec w} (h : b ≠ 0) : BitVec.ofNat w (b.toNat - 1) = b - 1 := by
  have hb := b.isLt
  have hpos : 0 < b.toNat := Nat.pos_of_ne_zero fun hz => h (BitVec.eq_of_toNat_eq (by simpa using hz))
  have hone : (1 : BitVec w).toNat = 1 := by
    change (BitVec.ofNat w 1).toNat = 1
    rw [BitVec.toNat_ofNat, Nat.mod_eq_of_lt (by omega)]
  apply BitVec.eq_of_toNat_eq
  rw [BitVec.toNat_ofNat, Nat.mod_eq_of_lt (by omega), BitVec.toNat_sub_of_le (by rw [BitVec.le_def, hone]; omega),
    hone]

theorem nbits_toNat_pos {s : State} (h : s.nbits ≠ 0) : 0 < s.nbits.toNat :=
  Nat.pos_of_ne_zero fun hz => h (BitVec.eq_of_toNat_eq hz)

/-- Settles O21: the septet is one push onto the bits held. -/
theorem encSeptetPushesOneSeptet : Obligations.EncSeptetPushesOneSeptet := by
  intro s x hm hx hroom
  have hval : (x.setWidth 7).toNat = x.toNat := by rw [BitVec.toNat_setWidth, Nat.mod_eq_of_lt hx]
  rw [execEncSeptet_next hm hx (Nat.succ_le_of_lt hroom), pushAll_singleton]
  refine ⟨fun h0 => ?empty, fun h0 => ?held⟩
  case empty =>
    have hz : s.nbits.toNat = 0 := by rw [h0]; rfl
    rw [hz, push_empty, hval]
    simp [commitPush, OutOct.ofList]
  case held =>
    rw [push_of_pos (nbits_toNat_pos h0), hval]
    simp only [commitPush, ofNat_toNat_sub_one h0]
    rfl

theorem charSeptets_default {t : CharTables} {cp : CodePoint} {i : Septet} (h : charIndex t cp = (.default, i)) :
    charSeptets t cp = some [i] := by rw [charSeptets, h]

theorem charSeptets_extension {t : CharTables} {cp : CodePoint} {i : Septet} (h : charIndex t cp = (.extension, i)) :
    charSeptets t cp = some [Config.esc, i] := by rw [charSeptets, h]

theorem charSeptets_unmapped {t : CharTables} {cp : CodePoint} (h : (charIndex t cp).1 = .unmapped) :
    charSeptets t cp = none := by rw [charSeptets, charIndex_of_unmapped h]

/-- At most one octet out has no second octet. -/
theorem push_outs_getD_one (acc nb : Nat) (x : Septet) : (push acc nb x).outs.getD 1 0 = 0 := by
  apply List.getD_eq_default
  rw [push_outs_length]
  split <;> decide

/-- Settles O22: `ENC_CHAR` pushes the septets of the character, one or ESC and one, in order. -/
theorem encCharPushesItsSeptets : Obligations.EncCharPushesItsSeptets := by
  intro s cp i hm
  refine ⟨fun hi hroom => ?dflt, fun hi hroom => ?ext⟩
  case dflt =>
    rw [execEncChar_next hm (charSeptets_default hi) hroom, pushAll_singleton]
    simp only [commitPush, OutOct.ofList, push_outs_getD_one]
    rfl
  case ext =>
    rw [execEncChar_next hm (charSeptets_extension hi) hroom, pushAll_pair]
    rfl

/-- `ENC_CHAR` that stays in ENC mode has pushed its septets. -/
theorem outOct_of_execEncChar {s t : State} {cp : CodePoint} {ss : List Septet} (hm : s.mode = .enc)
    (hs : charSeptets s.rom cp = some ss) (h : exec (.encChar cp) s = .next t) (ht : t.mode = .enc) :
    t.outOct = OutOct.ofList (pushAll s.acc.toNat s.nbits.toNat ss).outs := by
  rcases exec_cases h with ⟨herr, -, -⟩ | ⟨-, c, -, rfl⟩ | ⟨-, -, us, hus, -, rfl⟩
  · exact absurd (hm.symm.trans herr) nofun
  · exact absurd ht nofun
  · cases hs.symm.trans hus
    rfl

/-- Settles O23: a push emits an octet unless no bits are held, and leaves 7 bits then and one less else. -/
theorem encCharEmitsAtMostTwoOctets : Obligations.EncCharEmitsAtMostTwoOctets := by
  intro s t cp i hm _ h ht
  have hzero : s.nbits = 0 ↔ s.nbits.toNat = 0 := BitVec.toNat_inj.symm
  refine ⟨fun hi => ?dflt, fun hi => ?ext⟩
  case dflt =>
    rw [outOct_of_execEncChar hm (charSeptets_default hi) h ht, pushAll_singleton, OutOct.ofList, push_outs_length]
    simp only [hzero]
    split <;> rfl
  case ext =>
    rw [outOct_of_execEncChar hm (charSeptets_extension hi) h ht, pushAll_pair, OutOct.ofList, List.length_append,
      push_outs_length, push_outs_length, push_nb, BitVec.toNat_ofNat]
    split <;> split <;> split <;> omega

/-! ### The faults of the pushing commands (R84, R85) -/

/-- `ENC_CHAR` whose septets would pass the count limit (R84). -/
theorem execEncChar_overflow {s : State} {cp : CodePoint} {ss : List Septet} (hm : s.mode = .enc)
    (hs : charSeptets s.rom cp = some ss) (hc : 65535 < s.scount.toNat + ss.length) :
    exec (.encChar cp) s = .next (raiseFault .countOverflow (encode (.encChar cp)) s) := by
  refine exec_fault (by simp [hm]) ?_
  simp only [commandBody, hm, hs, ne_eq, not_true_eq_false, if_false, pushSeptets_of_lt hc]

/-- Settles O24: the checks of `ENC_CHAR` and `ENC_SEPTET` in order, the count last. -/
theorem pushingCommandsFault : Obligations.PushingCommandsFault := by
  intro s hm
  have hne : s.mode ≠ .error := by simp [hm]
  refine ⟨fun cp hcp => ?unmapped, fun cp hcp hc => ?dflt, fun cp hcp hc => ?ext, fun x hx => ?range,
    fun x hx hc => ?count⟩
  case unmapped => exact execEncChar_unsupported hm (charSeptets_unmapped hcp)
  case dflt =>
    have hseps := charSeptets_default (i := (charIndex s.rom cp).2) (Prod.ext hcp rfl)
    exact execEncChar_overflow hm hseps (by rw [List.length_singleton]; omega)
  case ext =>
    have hseps := charSeptets_extension (i := (charIndex s.rom cp).2) (Prod.ext hcp rfl)
    exact execEncChar_overflow hm hseps (by rw [List.length_cons, List.length_singleton]; omega)
  case range => exact exec_fault hne (by simp [commandBody, hm, septetOperand_of_le hx])
  case count => exact exec_fault hne (by simp [commandBody, hm, septetOperand_of_lt hx, pushSeptets_of_lt, hc])

/-! ### ENC_BEGIN and ENC_END (R83, R86) -/

theorem execEncBegin_next {s : State} (hm : s.mode ≠ .error) : exec .encBegin s = .next (openEncode s) := by
  rw [exec_eq_runCommand (by simp)]
  exact runCommand_ok hm _ _

/-- Settles O20: the body of `ENC_BEGIN` is `openEncode`, without a check. -/
theorem encBeginOpensASession : Obligations.EncBeginOpensASession := fun _ => execEncBegin_next

/-- Settles O25: `flush` emits the low 8 bits held, or nothing when none are. -/
theorem encEndFlushesAndCloses : Obligations.EncEndFlushesAndCloses := by
  intro s hm
  rw [execEncEnd_next hm]
  refine ⟨fun h0 => ?empty, fun h0 => ?held⟩
  case empty =>
    have hflush : flush s.acc.toNat s.nbits.toNat = [] := by simp [flush, h0]
    simp [closeEncode, hflush, OutOct.ofList]
  case held =>
    have hflush : flush s.acc.toNat s.nbits.toNat = [s.acc.setWidth 8] := by
      rw [flush, if_pos (nbits_toNat_pos h0), ofNat_and_255, BitVec.ofNat_toNat]
    rw [closeEncode, hflush]
    rfl

/-! ### Payload lengths (R78) -/

/-- Two counts need as many octets exactly when they are `8q - 1` and `8q` (R78). -/
theorem payloadLength_eq_iff {n m : Nat} (h : n ≠ m) :
    payloadLength n = payloadLength m ↔
      ∃ q, 1 ≤ q ∧ ((n = 8 * q - 1 ∧ m = 8 * q) ∨ (n = 8 * q ∧ m = 8 * q - 1)) := by
  rw [payloadLength_eq, payloadLength_eq]
  constructor
  · intro hl
    rcases Nat.lt_or_gt_of_ne h with hlt | hlt
    · exact ⟨m - (7 * m + 7) / 8, by omega, .inl (by omega)⟩
    · exact ⟨n - (7 * n + 7) / 8, by omega, .inr (by omega)⟩
  · rintro ⟨q, hq, ⟨rfl, rfl⟩ | ⟨rfl, rfl⟩⟩ <;> omega

/-- Settles O28: one more septet takes one more octet but from `8q - 1` to `8q`, and a zero septet adds nothing to the
stream. -/
theorem packingIsNotSelfDescribing : Obligations.PackingIsNotSelfDescribing := by
  refine ⟨fun n m => payloadLength_eq_iff, fun ss q hq hlen => eq_pack_of_octetStream ?_ ?_⟩
  · rw [pack_length, List.length_append, List.length_singleton, payloadLength_eq, payloadLength_eq]
    omega
  · rw [octetStream_pack, septetStream_append]
    simp

end Sys2Proof.Machine

/-! Proofs of what the commands of a decode session write and when they fault (R90 to R96, R111). -/

namespace Sys2Proof.Machine

/-! ### One pull (R90) -/

/-- The low 7 bits are the septet, masked or not. -/
theorem ofNat_and_127 (a : Nat) : BitVec.ofNat 7 (a &&& 0x7F) = BitVec.ofNat 7 a :=
  BitVec.eq_of_toNat_eq (by simp [and_127])

/-- The loop of `pull` stops when fewer than 7 bits are left. -/
theorem pullLoop_short {n : Nat} (h : n < 7) (a rem : Nat) : pullLoop a n rem = ⟨a, n, []⟩ := by
  cases rem with
  | zero => rfl
  | succ rem => rw [pullLoop, if_neg (by simp only [Config.septetBits]; omega)]

/-- The loop of `pull` extracts one septet while 7 bits are there and one is owed. -/
theorem pullLoop_cons {n rem : Nat} (h : 7 ≤ n) (hr : 0 < rem) (a : Nat) :
    pullLoop a n rem =
      ⟨(pullLoop (a >>> 7) (n - 7) (rem - 1)).acc, (pullLoop (a >>> 7) (n - 7) (rem - 1)).nb,
        BitVec.ofNat 7 a :: (pullLoop (a >>> 7) (n - 7) (rem - 1)).seps⟩ := by
  obtain ⟨k, rfl⟩ := Nat.exists_eq_succ_of_ne_zero hr.ne'
  rw [pullLoop, if_pos h, ofNat_and_127]
  rfl

/-- A pull that completes one septet: it holds one bit more, or nothing when no septet is owed any more. -/
theorem pull_one {acc nb rem : Nat} (o : Octet) (hn : nb ≤ 6) (hr : 0 < rem) (h : nb < 6 ∨ rem = 1) :
    pull acc nb o rem =
      ⟨if rem = 1 then 0 else (acc ||| (o.toNat <<< nb)) >>> 7, if rem = 1 then 0 else nb + 1,
        [BitVec.ofNat 7 (acc ||| (o.toNat <<< nb))]⟩ := by
  have hloop : pullLoop (acc ||| (o.toNat <<< nb)) (nb + 8) rem =
      ⟨(acc ||| (o.toNat <<< nb)) >>> 7, nb + 1, [BitVec.ofNat 7 (acc ||| (o.toNat <<< nb))]⟩ := by
    rw [pullLoop_cons (by omega) hr]
    rcases h with hlt | rfl
    · rw [pullLoop_short (by omega)]
      rfl
    · rfl
  simp only [pull, Config.octetBits, hloop, List.length_singleton, eq_comm (a := 1)]
  split <;> rfl

/-- A pull that completes two septets: it holds what is left of the octet, none of it when no septet is owed any
more. -/
theorem pull_two {acc rem : Nat} (o : Octet) (hr : 2 ≤ rem) :
    pull acc 6 o rem =
      ⟨if rem = 2 then 0 else (acc ||| (o.toNat <<< 6)) >>> 14, 0,
        [BitVec.ofNat 7 (acc ||| (o.toNat <<< 6)), BitVec.ofNat 7 ((acc ||| (o.toNat <<< 6)) >>> 7)]⟩ := by
  have hloop : pullLoop (acc ||| (o.toNat <<< 6)) 14 rem =
      ⟨(acc ||| (o.toNat <<< 6)) >>> 14, 0,
        [BitVec.ofNat 7 (acc ||| (o.toNat <<< 6)), BitVec.ofNat 7 ((acc ||| (o.toNat <<< 6)) >>> 7)]⟩ := by
    rw [pullLoop_cons (by decide) (by omega), pullLoop_cons (by decide) (by omega), pullLoop_short (by decide),
      ← Nat.shiftRight_add]
  simp only [pull, Config.octetBits, hloop, List.length_cons, List.length_nil, eq_comm (a := 2)]
  split <;> rfl

/-! ### DEC_OCTET (R94) -/

theorem decodePulled_of_raw {s : State} (h : s.raw = true) (seps : List Septet) :
    decodePulled s seps = some ⟨s.escPending, []⟩ := if_pos h

theorem decodePulled_of_not_raw {s : State} (h : s.raw = false) (seps : List Septet) :
    decodePulled s seps = decodeSeptets s.rom s.escPending seps := by simp [decodePulled, h]

theorem decodeSeptets_singleton (t : CharTables) (esc : Bool) (x : Septet) :
    decodeSeptets t esc [x] = decodeStep t esc x := by
  simp only [decodeSeptets]
  cases decodeStep t esc x <;> simp

/-- A register holds a number exactly when its value does. -/
theorem count_eq_iff {c : Count} {k : Nat} (hk : k < 2 ^ 16) : c = BitVec.ofNat 16 k ↔ c.toNat = k := by
  rw [← BitVec.toNat_inj, BitVec.toNat_ofNat, Nat.mod_eq_of_lt hk]

theorem remain_ne_zero {s : State} (h : 0 < s.remain.toNat) : s.remain ≠ 0 := fun h0 => by simp [h0] at h

/-- What `DEC_OCTET` writes when it completes one septet. -/
def oneSeptetPulled (s : State) (oct : Octet) (esc : Bool) (c : OutChr) : State :=
  { s with
    acc := if s.remain = 1 then 0 else BitVec.ofNat 15 ((s.acc.toNat ||| (oct.toNat <<< s.nbits.toNat)) >>> 7)
    nbits := if s.remain = 1 then 0 else s.nbits + 1, escPending := esc
    remain := s.remain - 1, scount := s.scount + 1, ocount := s.ocount + 1
    outSept := ⟨BitVec.ofNat 7 (s.acc.toNat ||| (oct.toNat <<< s.nbits.toNat)), 0, 1⟩
    outChr0 := c, outChr1 := ⟨0, false⟩ }

/-- A pull of one septet that decodes to at most one character, committed. -/
theorem commitPull_pull_one {s : State} {oct : Octet} {d : Decoded} (hn : s.nbits.toNat ≤ 6)
    (hr : 0 < s.remain.toNat) (h : s.nbits.toNat < 6 ∨ s.remain.toNat = 1) (hd : d.chars.length ≤ 1) :
    commitPull (pull s.acc.toNat s.nbits.toNat oct s.remain.toNat) d s =
      oneSeptetPulled s oct d.esc (OutChr.ofOption d.chars[0]?) := by
  have hone : s.remain = 1 ↔ s.remain.toNat = 1 := count_eq_iff (by decide)
  have hsnd : d.chars[1]? = none := List.getElem?_eq_none hd
  simp only [commitPull, pull_one oct hn hr h, oneSeptetPulled, hone, hsnd]
  split <;> simp [OutSept.ofList, OutChr.ofOption, BitVec.ofNat_add]

/-- What `DEC_OCTET` writes when it completes two septets. -/
def twoSeptetsPulled (s : State) (oct : Octet) (esc : Bool) (c0 c1 : OutChr) : State :=
  { s with
    acc := if s.remain = 2 then 0 else BitVec.ofNat 15 ((s.acc.toNat ||| (oct.toNat <<< 6)) >>> 14), nbits := 0
    escPending := esc, remain := s.remain - 2, scount := s.scount + 2, ocount := s.ocount + 1
    outSept := ⟨BitVec.ofNat 7 (s.acc.toNat ||| (oct.toNat <<< 6)),
      BitVec.ofNat 7 ((s.acc.toNat ||| (oct.toNat <<< 6)) >>> 7), 2⟩
    outChr0 := c0, outChr1 := c1 }

/-- A pull of two septets, committed. -/
theorem commitPull_pull_two {s : State} {oct : Octet} {d : Decoded} (hn : s.nbits.toNat = 6)
    (hr : 2 ≤ s.remain.toNat) :
    commitPull (pull s.acc.toNat s.nbits.toNat oct s.remain.toNat) d s =
      twoSeptetsPulled s oct d.esc (OutChr.ofOption d.chars[0]?) (OutChr.ofOption d.chars[1]?) := by
  have htwo : s.remain = 2 ↔ s.remain.toNat = 2 := count_eq_iff (by decide)
  simp only [commitPull, hn, pull_two oct hr, twoSeptetsPulled, htwo]
  split <;> simp [OutSept.ofList]

/-- Settles O31: in a raw session the septets of the octet are committed with nothing decoded. -/
theorem decOctetUnpacksRaw : Obligations.DecOctetUnpacksRaw := by
  intro s oct hm hraw hn hr
  have hexec := execDecOctet_next hm (remain_ne_zero hr)
    (decodePulled_of_raw hraw (pull s.acc.toNat s.nbits.toNat oct s.remain.toNat).seps)
  refine ⟨fun hone => ?_, fun ⟨hsix, htwo⟩ => ?_⟩
  · rw [hexec, commitPull_pull_one hn hr hone (by simp)]
    rfl
  · rw [hexec, commitPull_pull_two hsix htwo]
    simp only [hsix]
    rfl

/-- Settles O32: the one septet decodes as `septetChar` says. -/
theorem decOctetDecodesOneSeptet : Obligations.DecOctetDecodesOneSeptet := by
  intro s oct hm hraw hn hr hone
  have hrem := remain_ne_zero hr
  have hdec : decodePulled s (pull s.acc.toNat s.nbits.toNat oct s.remain.toNat).seps =
      decodeStep s.rom s.escPending (BitVec.ofNat 7 (s.acc.toNat ||| (oct.toNat <<< s.nbits.toNat))) := by
    rw [decodePulled_of_not_raw hraw, pull_one oct hn hr hone, decodeSeptets_singleton]
  rw [decodeStep] at hdec
  refine ⟨fun hchar => ?escape, fun cp hchar => ?character, fun hchar => ?unused⟩
  case escape =>
    rw [hchar] at hdec
    rw [execDecOctet_next hm hrem hdec, commitPull_pull_one hn hr hone (by simp)]
    rfl
  case character =>
    rw [hchar] at hdec
    rw [execDecOctet_next hm hrem hdec, commitPull_pull_one hn hr hone (by simp)]
    rfl
  case unused =>
    rw [hchar] at hdec
    exact execDecOctet_unused hm hrem hdec

/-- Settles O33: the two septets decode in order, the second with the escape the first leaves. -/
theorem decOctetDecodesTwoSeptets : Obligations.DecOctetDecodesTwoSeptets := by
  intro s oct hm hraw hn hr
  have hrem := remain_ne_zero (Nat.lt_of_lt_of_le Nat.two_pos hr)
  have hdec : decodePulled s (pull s.acc.toNat s.nbits.toNat oct s.remain.toNat).seps =
      decodeSeptets s.rom s.escPending [BitVec.ofNat 7 (s.acc.toNat ||| (oct.toNat <<< 6)),
        BitVec.ofNat 7 ((s.acc.toNat ||| (oct.toNat <<< 6)) >>> 7)] := by
    rw [decodePulled_of_not_raw hraw, hn, pull_two oct hr]
  rw [decodeSeptets] at hdec
  refine ⟨fun hx => ?first, fun d hx => ⟨fun hy => ?second, fun e hy => ?both⟩⟩
  case first =>
    rw [hx] at hdec
    exact execDecOctet_unused hm hrem hdec
  case second =>
    simp only [hx, decodeSeptets_singleton, hy] at hdec
    exact execDecOctet_unused hm hrem hdec
  case both =>
    simp only [hx, decodeSeptets_singleton, hy] at hdec
    rw [execDecOctet_next hm hrem hdec, commitPull_pull_two hn hr]
    rfl

/-! ### DEC_BEGIN and DEC_END (R93, R96) -/

theorem execDecBegin_next {s : State} (hm : s.mode ≠ .error) (raw : Bool) (n : Count) :
    exec (.decBegin raw n) s = .next (openDecode raw n s) := by
  rw [exec_eq_runCommand (by simp)]
  exact runCommand_ok hm _ _

/-- Settles O30: the body of `DEC_BEGIN` is `openDecode`, without a check. -/
theorem decBeginOpensASession : Obligations.DecBeginOpensASession := fun _ raw n hm => execDecBegin_next hm raw n

/-- Settles O35: `DEC_END` checks REMAIN first and the pending escape second. -/
theorem decEndChecksAndCloses : Obligations.DecEndChecksAndCloses := by
  intro s hm
  have hne : s.mode ≠ .error := by simp [hm]
  refine ⟨fun hr => ?truncated, fun hr hesc => ?dangling, fun hr hesc => ?closed⟩
  case truncated =>
    refine exec_fault hne ?_
    simp only [commandBody, hm, ne_eq, not_true_eq_false, if_false, remain_ne_zero hr, not_false_eq_true, if_true]
  case dangling =>
    have h0 : s.remain = 0 := BitVec.eq_of_toNat_eq hr
    exact exec_fault hne (by simp [commandBody, hm, h0, hesc])
  case closed => exact execDecEnd_next hm (BitVec.eq_of_toNat_eq hr) hesc

/-! ### Commands outside their session (R111, R113) -/

/-- Settles O42: the check of the mode comes first in every session command. -/
theorem sessionCommandsOutsideTheirSessionFault : Obligations.SessionCommandsOutsideTheirSessionFault := by
  rintro s i hm (⟨hs, ⟨cp, rfl⟩ | ⟨x, rfl⟩ | rfl⟩ | ⟨hs, ⟨o, rfl⟩ | rfl⟩)
  all_goals exact exec_fault hm (if_pos hs)

end Sys2Proof.Machine

/-! Proofs that every step keeps the invariant of the machine and that reset meets it (R22 to R38, R116). -/

namespace Sys2Proof.Machine

/-! ### The flags and the accumulator (R22, R32) -/

/-- In IDLE the session flags, NBITS and ACC are 0. -/
def State.IdleZero (s : State) : Prop :=
  s.raw = false ∧ s.escPending = false ∧ s.nbits = 0 ∧ s.acc = 0

theorem idleZero_of_sessionFlagInv {s : State} (h : s.SessionFlagInv) (hm : s.mode = .idle) : s.IdleZero := by
  obtain ⟨hflags, hzero⟩ := h
  obtain ⟨hraw, hesc⟩ := hflags (.inl hm)
  obtain ⟨hnb, hacc⟩ := hzero hm
  exact ⟨hraw, hesc, BitVec.eq_of_toNat_eq hnb, BitVec.eq_of_toNat_eq hacc⟩

/-- `DEC_END` finds NBITS and ACC at 0: no septet is owed (R38). -/
theorem acc_zero_of_remain_zero {s : State} (hm : s.mode = .dec) (hs : s.DecInv) (hr : s.remain = 0) :
    s.nbits = 0 ∧ s.acc = 0 := by
  obtain ⟨-, -, hdone, -⟩ := hs hm
  obtain ⟨hnb, hacc, -⟩ := hdone (by rw [hr]; rfl)
  exact ⟨BitVec.eq_of_toNat_eq hnb, BitVec.eq_of_toNat_eq hacc⟩

/-- A command that completes and leaves IDLE leaves the session flags, NBITS and ACC 0. -/
theorem completes_idleZero {i : Instr} {s t : State} (h : Completes i s t) (hs : s.SessionFlagInv) (hdec : s.DecInv)
    (ht : t.mode = .idle) : t.IdleZero := by
  cases i with
  | nop => obtain rfl := h; exact idleZero_of_sessionFlagInv hs ht
  | clear => obtain rfl := h; exact ⟨rfl, rfl, rfl, rfl⟩
  | c2i cp => obtain rfl := h; exact idleZero_of_sessionFlagInv hs ht
  | i2c sel idx => obtain ⟨-, rfl⟩ := h; exact idleZero_of_sessionFlagInv hs ht
  | encBegin => obtain rfl := h; exact nomatch ht
  | encChar cp => obtain ⟨hm, ss, -, -, rfl⟩ := h; exact nomatch hm.symm.trans ht
  | encSeptet x => obtain ⟨hm, -, -, rfl⟩ := h; exact nomatch hm.symm.trans ht
  | encEnd =>
    obtain ⟨hm, rfl⟩ := h
    obtain ⟨hraw, hesc⟩ := hs.1 (.inr hm)
    exact ⟨hraw, hesc, rfl, rfl⟩
  | decBegin raw n => obtain rfl := h; exact nomatch ht
  | decOctet o => obtain ⟨hm, -, d, -, rfl⟩ := h; exact nomatch hm.symm.trans ht
  | decEnd =>
    obtain ⟨hm, hr, hesc, rfl⟩ := h
    obtain ⟨hnb, hacc⟩ := acc_zero_of_remain_zero hm hdec hr
    exact ⟨rfl, hesc, hnb, hacc⟩

/-- A command that completes and leaves ENC mode leaves the decoder's bits 0. -/
theorem completes_encFlags {i : Instr} {s t : State} (h : Completes i s t) (hs : s.SessionFlagInv)
    (ht : t.mode = .enc) : t.raw = false ∧ t.escPending = false := by
  cases sessionEffect_of_completes h with
  | ends hidle => exact nomatch hidle.symm.trans ht
  | lookup x c => exact hs.1 (.inr ht)
  | opensEncode => exact ⟨rfl, rfl⟩
  | opensDecode hi => exact nomatch ht
  | pushes hm hc => exact hs.1 (.inr hm)
  | pulls hm hr hd => exact nomatch hm.symm.trans ht

/-- A command that completes keeps the flags of the modes without a decode session. -/
theorem completes_sessionFlagInv {i : Instr} {s t : State} (h : Completes i s t) (hs : s.SessionFlagInv)
    (hdec : s.DecInv) : t.SessionFlagInv := by
  refine ⟨fun ht => ?_, fun ht => ?_⟩
  · rcases ht with ht | ht
    · obtain ⟨hraw, hesc, -, -⟩ := completes_idleZero h hs hdec ht
      exact ⟨hraw, hesc⟩
    · exact completes_encFlags h hs ht
  · obtain ⟨-, -, hnb, hacc⟩ := completes_idleZero h hs hdec ht
    rw [hnb, hacc]
    exact ⟨rfl, rfl⟩

/-- An accumulator of at most 7 bits is what the registers of that width hold. -/
theorem accInv_of_ofNat {s : State} {acc nb : Nat} (hn : nb ≤ 7) (hacc : acc < 2 ^ nb)
    (hsn : s.nbits = BitVec.ofNat 4 nb) (hsa : s.acc = BitVec.ofNat 15 acc) : s.AccInv := by
  have hfit := acc_fits hacc (by omega)
  rw [State.AccInv, hsn, hsa, BitVec.toNat_ofNat, BitVec.toNat_ofNat, Nat.mod_eq_of_lt (by omega),
    Nat.mod_eq_of_lt hfit]
  exact ⟨hn, hacc⟩

/-- A command that completes keeps NBITS at most 7 and ACC within NBITS bits. -/
theorem completes_accInv {i : Instr} {s t : State} (h : Completes i s t) (hs : s.AccInv) (hflag : s.SessionFlagInv)
    (hdec : s.DecInv) : t.AccInv := by
  obtain ⟨hn, hacc⟩ := hs
  cases sessionEffect_of_completes h with
  | ends ht =>
    obtain ⟨-, -, hnb, hacc⟩ := completes_idleZero h hflag hdec ht
    exact accInv_of_ofNat (Nat.zero_le 7) Nat.one_pos hnb hacc
  | lookup x c => exact ⟨hn, hacc⟩
  | opensEncode => exact accInv_of_ofNat (Nat.zero_le 7) Nat.one_pos rfl rfl
  | opensDecode hi => exact accInv_of_ofNat (Nat.zero_le 7) Nat.one_pos rfl rfl
  | pushes hm hc =>
    obtain ⟨-, hle, hlt, -⟩ := pushAll_spec _ hacc hn
    exact accInv_of_ofNat hle hlt rfl rfl
  | pulls hm hr hd =>
    obtain ⟨-, hrun, -⟩ := hdec hm
    obtain ⟨-, hsix⟩ := hrun (toNat_pos_of_ne_zero hr)
    obtain ⟨-, -, hle, hlt⟩ := pull_counts s.remain.toNat _ hacc hsix
    exact accInv_of_ofNat (Nat.le_succ_of_le hle) hlt rfl rfl

/-! ### OCOUNT (R31) -/

theorem ocountInv_of_enc {s : State} (hm : s.mode = .enc) (hs : s.EncInv) : s.OcountInv := by
  obtain ⟨-, hoc, -⟩ := hs hm
  have := s.scount.isLt
  rw [State.OcountInv]
  omega

theorem ocountInv_of_dec {s : State} (hm : s.mode = .dec) (hs : s.DecInv) : s.OcountInv := by
  obtain ⟨hsum, hrun, hdone, -⟩ := hs hm
  simp only [Config.countMax] at hsum
  rw [State.OcountInv]
  rcases Nat.eq_zero_or_pos s.remain.toNat with h0 | hpos
  · obtain ⟨-, -, hoc⟩ := hdone h0
    rw [hoc, payloadLength_eq]
    omega
  · obtain ⟨hoc, hnb⟩ := hrun hpos
    omega

/-- A command that completes keeps OCOUNT within the octets of 65535 septets. -/
theorem completes_ocountInv {i : Instr} {s t : State} (h : Completes i s t) (hs : s.OcountInv) (henc : s.EncInv)
    (hdec : s.DecInv) : t.OcountInv := by
  have htenc := completes_encInv h henc
  have htdec := completes_decInv h hdec
  cases i with
  | nop => obtain rfl := h; exact hs
  | clear => obtain rfl := h; exact Nat.zero_le _
  | c2i cp => obtain rfl := h; exact hs
  | i2c sel idx => obtain ⟨-, rfl⟩ := h; exact hs
  | encBegin => obtain rfl := h; exact Nat.zero_le _
  | encChar cp => obtain ⟨hm, ss, -, -, rfl⟩ := h; exact ocountInv_of_enc hm htenc
  | encSeptet x => obtain ⟨hm, -, -, rfl⟩ := h; exact ocountInv_of_enc hm htenc
  | encEnd =>
    obtain ⟨hm, rfl⟩ := h
    have := s.scount.isLt
    rw [State.OcountInv, closeEncode_ocount_toNat hm henc, payloadLength_eq]
    omega
  | decBegin raw n => obtain rfl := h; exact Nat.zero_le _
  | decOctet o => obtain ⟨hm, -, d, -, rfl⟩ := h; exact ocountInv_of_dec hm htdec
  | decEnd => obtain ⟨-, -, -, rfl⟩ := h; exact hs

/-! ### The result registers (R24 to R28) -/

/-- What R24 and R25 allow in the lookup results. -/
def LookupsAllowed (x : LresIdx) (c : LresChr) : Prop :=
  (x.cls = .unmapped → x.index = 0) ∧ ¬(c.valid = true ∧ c.escMark = true) ∧ (c.valid = false → c.cp = 0)

/-- What R26 allows in OUT_OCT. -/
def OctetsAllowed (r : OutOct) : Prop :=
  r.octN.toNat ≤ 2 ∧ (r.octN.toNat = 0 → r.oct0 = 0) ∧ (r.octN.toNat < 2 → r.oct1 = 0)

/-- What R27 allows in OUT_SEPT. -/
def SeptetsAllowed (r : OutSept) : Prop :=
  r.septN.toNat ≤ 2 ∧ (r.septN.toNat = 0 → r.sept0 = 0) ∧ (r.septN.toNat < 2 → r.sept1 = 0)

/-- What R28 and R94 allow in OUT_CHR0 and OUT_CHR1. -/
def CharsAllowed (c0 c1 : OutChr) : Prop :=
  (c0.valid = false → c0.cp = 0) ∧ (c1.valid = false → c1.cp = 0) ∧ (c1.valid = true → c0.valid = true)

/-- The invariant of the result registers, register by register. -/
theorem resultInv_iff (s : State) :
    s.ResultInv ↔ LookupsAllowed s.lresIdx s.lresChr ∧ OctetsAllowed s.outOct ∧ SeptetsAllowed s.outSept ∧
      CharsAllowed s.outChr0 s.outChr1 := by
  simp only [State.ResultInv, LookupsAllowed, OctetsAllowed, SeptetsAllowed, CharsAllowed, and_assoc]

theorem octetsAllowed_ofList {os : List Octet} (h : os.length ≤ 2) : OctetsAllowed (OutOct.ofList os) := by
  match os, h with
  | [], _ => simp [OctetsAllowed, OutOct.ofList]
  | [_], _ => simp [OctetsAllowed, OutOct.ofList]
  | [_, _], _ => simp [OctetsAllowed, OutOct.ofList]

theorem septetsAllowed_ofList {ss : List Septet} (h : ss.length ≤ 2) : SeptetsAllowed (OutSept.ofList ss) := by
  match ss, h with
  | [], _ => simp [SeptetsAllowed, OutSept.ofList]
  | [_], _ => simp [SeptetsAllowed, OutSept.ofList]
  | [_, _], _ => simp [SeptetsAllowed, OutSept.ofList]

/-- A second character has a first before it. -/
theorem charsAllowed_ofOption (cs : List CodePoint) :
    CharsAllowed (OutChr.ofOption cs[0]?) (OutChr.ofOption cs[1]?) := by
  match cs with
  | [] => simp [CharsAllowed, OutChr.ofOption]
  | [_] => simp [CharsAllowed, OutChr.ofOption]
  | _ :: _ :: _ => simp [CharsAllowed, OutChr.ofOption]

/-- What `C2I` writes: index 0 goes with UNMAPPED (R70). -/
theorem lookupsAllowed_charIndex {x : LresIdx} {c : LresChr} (h : LookupsAllowed x c) (t : CharTables)
    (cp : CodePoint) : LookupsAllowed ⟨(charIndex t cp).2, (charIndex t cp).1⟩ c := by
  obtain ⟨-, hchr⟩ := h
  refine ⟨fun hc => ?_, hchr⟩
  change (charIndex t cp).2 = 0
  rw [charIndex_of_unmapped hc]

/-- What `I2C` writes: VALID, ESCMARK or neither (R74). -/
theorem lookupsAllowed_lresChrOf {x : LresIdx} {c : LresChr} (h : LookupsAllowed x c) (a : SeptetChar) :
    LookupsAllowed x (lresChrOf a) := by
  obtain ⟨hidx, -⟩ := h
  cases a <;> simpa [LookupsAllowed, lresChrOf] using hidx

/-- A pull extracts at most two septets. -/
theorem pull_seps_length_le {acc nb : Nat} (rem : Nat) (o : Octet) (h : acc < 2 ^ nb) (hn : nb ≤ 6) :
    (pull acc nb o rem).seps.length ≤ 2 := by
  obtain ⟨hlen, -⟩ := pull_counts rem o h hn
  omega

/-- A command that completes writes only allowed values to the result registers. -/
theorem completes_resultInv {i : Instr} {s t : State} (h : Completes i s t) (hs : s.ResultInv) (hacc : s.AccInv)
    (hdec : s.DecInv) : t.ResultInv := by
  rw [resultInv_iff] at hs ⊢
  obtain ⟨hl, ho, hp, hc⟩ := hs
  obtain ⟨hn, hacc⟩ := hacc
  have noOctets : OctetsAllowed ⟨0, 0, 0⟩ := octetsAllowed_ofList (os := []) (Nat.zero_le 2)
  have noSeptets : SeptetsAllowed ⟨0, 0, 0⟩ := septetsAllowed_ofList (ss := []) (Nat.zero_le 2)
  have noChars : CharsAllowed ⟨0, false⟩ ⟨0, false⟩ := charsAllowed_ofOption []
  cases i with
  | nop => obtain rfl := h; exact ⟨hl, ho, hp, hc⟩
  | clear => obtain rfl := h; exact ⟨by simp [LookupsAllowed], noOctets, noSeptets, noChars⟩
  | c2i cp => obtain rfl := h; exact ⟨lookupsAllowed_charIndex hl _ _, ho, hp, hc⟩
  | i2c sel idx => obtain ⟨-, rfl⟩ := h; exact ⟨lookupsAllowed_lresChrOf hl _, ho, hp, hc⟩
  | encBegin => obtain rfl := h; exact ⟨hl, noOctets, noSeptets, noChars⟩
  | encChar cp =>
    obtain ⟨-, ss, hss, -, rfl⟩ := h
    exact ⟨hl, octetsAllowed_ofList (pushAll_outs_length_le hacc hn (charSeptets_length_le hss)), hp, hc⟩
  | encSeptet x =>
    obtain ⟨-, -, -, rfl⟩ := h
    exact ⟨hl, octetsAllowed_ofList (pushAll_outs_length_le hacc hn (by simp)), hp, hc⟩
  | encEnd =>
    obtain ⟨-, rfl⟩ := h
    obtain ⟨hflush, -⟩ := flush_spec hacc hn
    exact ⟨hl, octetsAllowed_ofList (by rw [hflush]; split <;> omega), hp, hc⟩
  | decBegin raw n => obtain rfl := h; exact ⟨hl, noOctets, noSeptets, noChars⟩
  | decOctet o =>
    obtain ⟨hm, hr, d, -, rfl⟩ := h
    obtain ⟨-, hrun, -⟩ := hdec hm
    obtain ⟨-, hsix⟩ := hrun (toNat_pos_of_ne_zero hr)
    exact ⟨hl, ho, septetsAllowed_ofList (pull_seps_length_le _ o hacc hsix), charsAllowed_ofOption d.chars⟩
  | decEnd => obtain ⟨-, -, -, rfl⟩ := h; exact ⟨hl, ho, hp, hc⟩

/-! ### The invariant of the machine -/

/-- A fault writes the fault record and leaves every mode but ERROR, which is all the invariants of the sessions speak
of. -/
theorem raiseFault_inv {c : ErrCode} (hc : c ≠ .none) (w : Word) {s : State} (h : s.Inv) : (raiseFault c w s).Inv := by
  obtain ⟨hrom, -, hacc, -, -, -, hres, hoc⟩ := h
  exact ⟨hrom, ⟨⟨fun _ => hc, fun _ => rfl⟩, fun hnone => absurd hnone hc⟩, hacc,
    by simp [State.EncInv], by simp [State.DecInv], by simp [State.SessionFlagInv], hres, hoc⟩

theorem completes_inv {i : Instr} {s t : State} (hg : s.mode ≠ .error ∨ i = .clear) (h : Completes i s t)
    (hs : s.Inv) : t.Inv := by
  obtain ⟨hrom, hrec, hacc, henc, hdec, hflag, hres, hoc⟩ := hs
  exact ⟨(completes_rom_host h).1 ▸ hrom, completes_faultRecordInv hg h hrec, completes_accInv h hacc hflag hdec,
    completes_encInv h henc, completes_decInv h hdec, completes_sessionFlagInv h hflag hdec,
    completes_resultInv h hres hacc hdec, completes_ocountInv h hoc henc hdec⟩

/-- Settles O49: the invariant reads no field of the host's, and a fault and a completed command keep every part of
it. -/
theorem stepKeepsTheMachineInvariant : Obligations.StepKeepsTheMachineInvariant := by
  intro s t hs h
  exact step_keeps (P := State.Inv) (fun _ _ hs => hs) (fun _ _ hs => hs) (fun _ w _ hc _ hs => raiseFault_inv hc w hs)
    (fun _ _ _ hg hc hs => completes_inv hg hc hs) hs h

/-- Settles O50: with every register 0 each part holds, and the ROMs are those of R67 and R68. -/
theorem resetMeetsTheMachineInvariant : Obligations.ResetMeetsTheMachineInvariant := by
  refine ⟨standard_wf, ?_⟩
  simp [State.FaultRecordInv, State.AccInv, State.EncInv, State.DecInv, State.SessionFlagInv, State.ResultInv,
    State.OcountInv, State.reset]

end Sys2Proof.Machine

/-! Proofs of how a session ends and of how the record of a session follows the machine (R125, R128). -/

namespace Sys2Proof.Machine

/-! ### The end of a session (R128) -/

/-- A write of a command's word does what the command does. -/
theorem commandWrite_encode (i : Instr) (s : State) : commandWrite (encode i) s = exec i s :=
  commandWrite_decoded (decode_encode i) s

/-- A command that ends its session without a fault leaves IDLE and keeps SCOUNT, `ENC_END` with OCOUNT the payload's
length. -/
theorem exec_end_well {i : Instr} {s t : State} (h : exec i s = .next t)
    (hi : i = .encEnd ∧ s.mode = .enc ∨ i = .decEnd ∧ s.mode = .dec) (ht : t.mode ≠ .error) :
    t.mode = .idle ∧ t.scount = s.scount ∧
      (s.EncInv → s.mode = .enc → t.ocount.toNat = payloadLength t.scount.toNat) := by
  rcases hi with ⟨rfl, hm⟩ | ⟨rfl, hm⟩
  · cases (execEncEnd_next hm).symm.trans h
    exact ⟨rfl, rfl, fun hs _ => closeEncode_ocount_toNat hm hs⟩
  · rcases exec_cases h with ⟨herr, -, -⟩ | ⟨-, c, -, rfl⟩ | ⟨-, -, -, -, rfl⟩
    · exact nomatch hm.symm.trans herr
    · exact absurd rfl ht
    · exact ⟨rfl, rfl, fun _ henc => nomatch hm.symm.trans henc⟩

/-- A write to CMD that enters ERROR mode writes the fault record, with the word written, and nothing else. -/
theorem commandWrite_fault {w : Word} {s t : State} (hm : s.mode ≠ .error) (h : commandWrite w s = .next t)
    (ht : t.mode = .error) : ∃ c, c ≠ .none ∧ t = raiseFault c w s := by
  rcases commandWrite_cases h with ⟨herr, -, -⟩ | ⟨-, -, rfl⟩ | ⟨-, i, hi, he⟩
  · exact absurd herr hm
  · exact ⟨.illegalCommand, nofun, rfl⟩
  · obtain ⟨c, hc, rfl⟩ := faultsArePrecise i s t hm he ht
    exact ⟨c, hc, by rw [encode_of_decode hi]; rfl⟩

/-- Settles O45: the two END commands close their session, and any fault leaves the state but for its record, after
which ERROR mode ignores every word but `CLEAR`. -/
theorem sessionsEndWellOrBadly : Obligations.SessionsEndWellOrBadly := by
  intro s t w rest hp h
  rw [step_commandWord hp] at h
  refine ⟨fun ⟨hw, ht⟩ => ?well, fun ⟨hopen, ht⟩ => ⟨?badly, fun w' rest' hw' => ?ignored⟩⟩
  case well =>
    rcases hw with ⟨rfl, hm⟩ | ⟨rfl, hm⟩ <;> rw [commandWrite_encode] at h
    · exact exec_end_well (s := dropEvent rest s) h (.inl ⟨rfl, hm⟩) ht
    · exact exec_end_well (s := dropEvent rest s) h (.inr ⟨rfl, hm⟩) ht
  case badly =>
    have hm : s.mode ≠ .error := by rcases hopen with hm | hm <;> simp [hm]
    exact commandWrite_fault (s := dropEvent rest s) hm h ht
  case ignored =>
    obtain ⟨hignored, -⟩ :=
      errorModeIgnoresEveryWordButClear { t with pending := commandWord w' :: rest' } rest' ht
    exact hignored w' hw' rfl

/-! ### When a record agrees with the state (R125, R128) -/

/-- With no session open in the state, a record that is not open agrees. -/
theorem sessionAgrees_of_closed {x : Option Session} {s : State} (hm : s.mode = .idle ∨ s.mode = .error)
    (hx : ∀ y, x = some y → y.phase ≠ .isOpen) : SessionAgrees x s := by
  have henc : s.mode ≠ .enc := by rcases hm with hm | hm <;> simp [hm]
  have hdec : s.mode ≠ .dec := by rcases hm with hm | hm <;> simp [hm]
  exact ⟨⟨fun h => absurd h henc, fun ⟨y, hy, hop, _⟩ => absurd hop (hx y hy)⟩,
    ⟨fun h => absurd h hdec, fun ⟨y, hy, hop, _⟩ => absurd hop (hx y hy)⟩, fun h => absurd h hdec⟩

/-- Agreement is about MODE and RAW only. -/
theorem SessionAgrees.congr {x : Option Session} {s t : State} (h : SessionAgrees x s) (hm : t.mode = s.mode)
    (hraw : t.raw = s.raw) : SessionAgrees x t := by
  rwa [SessionAgrees, hm, hraw]

theorem sessionAgrees_opened_encode {s : State} (hm : s.mode = .enc) :
    SessionAgrees (some (.opened .encode)) s := by
  refine ⟨⟨fun _ => ⟨_, rfl, rfl, rfl⟩, fun _ => hm⟩, ⟨fun h => ?_, ?_⟩, fun h => ?_⟩
  · exact nomatch hm.symm.trans h
  · rintro ⟨y, hy, -, hk⟩
    cases hy
    exact absurd rfl hk
  · exact nomatch hm.symm.trans h

/-- The kind of a decode session is not that of an encode session. -/
theorem decodeKind_ne_encode (raw : Bool) : (if raw then SessionKind.rawDecode else .decode) ≠ .encode := by
  cases raw <;> decide

theorem sessionAgrees_opened_decode {s : State} (hm : s.mode = .dec) :
    SessionAgrees (some (.opened (if s.raw then .rawDecode else .decode))) s := by
  refine ⟨⟨fun h => ?_, ?_⟩, ⟨fun _ => ⟨_, rfl, rfl, decodeKind_ne_encode _⟩, fun _ => hm⟩, fun _ y hy => ?_⟩
  · exact nomatch hm.symm.trans h
  · rintro ⟨y, hy, -, hk⟩
    cases hy
    exact absurd hk (decodeKind_ne_encode _)
  · cases hy
    rfl

/-- A read changes no part of a record that agreement speaks of. -/
theorem SessionAgrees.afterRead {x : Option Session} {s : State} (h : SessionAgrees x s) (r : Reg) (v : Word) :
    SessionAgrees (x.map (·.afterRead r v)) s := by
  cases x with
  | none => exact h
  | some y =>
    obtain ⟨hkind, hphase⟩ := afterRead_kind_phase r v y
    simpa [SessionAgrees, hkind, hphase] using h

/-- A record that has ended is not open. -/
theorem phase_ended_ne_open {p : SessionPhase} (hp : p ≠ .isOpen) {x : Option Session} {y : Session}
    (h : x.map (·.ended p) = some y) : y.phase ≠ .isOpen := by
  obtain ⟨z, -, rfl⟩ := Option.map_eq_some_iff.mp h
  rw [phase_ended]
  split <;> assumption

/-! ### Recording one access (R128) -/

/-- Only a BEGIN opens a session. -/
theorem openedBy_eq_none {w : Word} {i : Instr} (hd : decode w = some i) (he : i ≠ .encBegin)
    (hb : ∀ raw n, i ≠ .decBegin raw n) : openedBy w = none := by
  cases i with
  | encBegin => exact absurd rfl he
  | decBegin raw n => exact absurd rfl (hb raw n)
  | _ => simp [openedBy, hd]

/-- Outside BEGIN, END and `CLEAR` a command that completes keeps MODE and RAW. -/
theorem completes_mode_raw {i : Instr} {s t : State} (h : Completes i s t)
    (hi : i.opcode ∉ [Opcode.clear, .encBegin, .decBegin, .encEnd, .decEnd]) :
    t.mode = s.mode ∧ t.raw = s.raw := by
  cases i with
  | nop => obtain rfl := h; exact ⟨rfl, rfl⟩
  | clear => simp [Instr.opcode] at hi
  | c2i cp => obtain rfl := h; exact ⟨rfl, rfl⟩
  | i2c sel idx => obtain ⟨-, rfl⟩ := h; exact ⟨rfl, rfl⟩
  | encBegin => simp [Instr.opcode] at hi
  | encChar cp => obtain ⟨-, ss, -, -, rfl⟩ := h; exact ⟨rfl, rfl⟩
  | encSeptet x => obtain ⟨-, -, -, rfl⟩ := h; exact ⟨rfl, rfl⟩
  | encEnd => simp [Instr.opcode] at hi
  | decBegin raw n => simp [Instr.opcode] at hi
  | decOctet o => obtain ⟨-, -, d, -, rfl⟩ := h; exact ⟨rfl, rfl⟩
  | decEnd => simp [Instr.opcode] at hi

/-- The record after a write, outside ERROR mode, of a word other than `CLEAR` that opens no session. -/
theorem recordWrite_of_not_opened {w : Word} {s t : State} {x : Option Session} (hw : w ≠ clearWord)
    (hm : s.mode ≠ .error) (ho : openedBy w = none) :
    recordWrite w s t x =
      if t.mode = .error then x.map (·.ended (.endedBadly t.errCode))
      else if w = encode .encEnd ∨ w = encode .decEnd then x.map (·.ended (.endedWell t.scount)) else x := by
  rw [recordWrite, if_neg hw, if_neg hm, ho]

/-- The record after a write, outside ERROR mode, that opens a session. -/
theorem recordWrite_of_opened {w : Word} {s t : State} {x : Option Session} {y : Session} (hw : w ≠ clearWord)
    (hm : s.mode ≠ .error) (ho : openedBy w = some y) : recordWrite w s t x = some y := by
  rw [recordWrite, if_neg hw, if_neg hm, ho]

theorem openedBy_encBegin : openedBy (encode .encBegin) = some (.opened .encode) := by
  rw [openedBy, decode_encode]

theorem openedBy_decBegin (raw : Bool) (n : Count) :
    openedBy (encode (.decBegin raw n)) = some (.opened (if raw then .rawDecode else .decode)) := by
  rw [openedBy, decode_encode]

/-- The word of a command other than `CLEAR` is not the word of `CLEAR`. -/
theorem encode_ne_clearWord {i : Instr} (hi : i ≠ .clear) : encode i ≠ clearWord := fun h =>
  hi (encode_injective (h.trans (by decide)))

/-- A command that completes outside ERROR mode keeps the record in agreement. -/
theorem completes_agrees {i : Instr} {s t : State} {x : Option Session} (hx : SessionAgrees x s) (hm : s.mode ≠ .error)
    (hi : i ≠ .clear) (h : Completes i s t) : SessionAgrees (recordWrite (encode i) s t x) t := by
  have hw := encode_ne_clearWord hi
  have ht := completes_mode_ne_error h hm
  cases i with
  | clear => exact absurd rfl hi
  | encBegin =>
    obtain rfl := h
    rw [recordWrite_of_opened hw hm openedBy_encBegin]
    exact sessionAgrees_opened_encode rfl
  | decBegin raw n =>
    obtain rfl := h
    rw [recordWrite_of_opened hw hm (openedBy_decBegin raw n)]
    exact sessionAgrees_opened_decode (s := openDecode raw n s) rfl
  | encEnd =>
    obtain ⟨-, rfl⟩ := h
    rw [recordWrite_of_not_opened hw hm (openedBy_eq_none (decode_encode _) nofun nofun), if_neg ht, if_pos (.inl rfl)]
    exact sessionAgrees_of_closed (.inl rfl) fun y => phase_ended_ne_open (by simp)
  | decEnd =>
    obtain ⟨-, -, -, rfl⟩ := h
    rw [recordWrite_of_not_opened hw hm (openedBy_eq_none (decode_encode _) nofun nofun), if_neg ht, if_pos (.inr rfl)]
    exact sessionAgrees_of_closed (.inl rfl) fun y => phase_ended_ne_open (by simp)
  | _ =>
    obtain ⟨hmode, hraw⟩ := completes_mode_raw h (by simp [Instr.opcode])
    rw [recordWrite_of_not_opened hw hm (openedBy_eq_none (decode_encode _) nofun nofun), if_neg ht,
      if_neg (by simp [encode_injective.eq_iff])]
    exact hx.congr hmode hraw

/-- No BEGIN faults, so a write that faults opens no session. -/
theorem openedBy_of_fault {w : Word} {s t : State} (hm : s.mode ≠ .error) (h : commandWrite w s = .next t)
    (ht : t.mode = .error) : openedBy w = none := by
  cases hd : decode w with
  | none => simp [openedBy, hd]
  | some i =>
    rw [commandWrite_decoded hd] at h
    apply openedBy_eq_none hd
    · rintro rfl
      cases (execEncBegin_next hm).symm.trans h
      exact nomatch ht
    · rintro raw n rfl
      cases (execDecBegin_next hm raw n).symm.trans h
      exact nomatch ht

/-- A write to CMD keeps the record in agreement. -/
theorem recordWrite_agrees {w : Word} {s t : State} {x : Option Session} (hx : SessionAgrees x s)
    (h : commandWrite w s = .next t) : SessionAgrees (recordWrite w s t x) t := by
  by_cases hw : w = clearWord
  · subst hw
    cases (commandWrite_clearWord s).symm.trans h
    rw [recordWrite, if_pos rfl]
    exact sessionAgrees_of_closed (.inl rfl) fun y => discardOpen_not_open
  by_cases hm : s.mode = .error
  · cases (commandWrite_ignored hm hw).symm.trans h
    rwa [recordWrite, if_neg hw, if_pos hm]
  by_cases ht : t.mode = .error
  · rw [recordWrite_of_not_opened hw hm (openedBy_of_fault hm h ht), if_pos ht]
    exact sessionAgrees_of_closed (.inr ht) fun y => phase_ended_ne_open (by simp)
  rcases commandWrite_cases h with ⟨herr, -, -⟩ | ⟨-, -, rfl⟩ | ⟨-, i, hi, he⟩
  · exact absurd herr hm
  · exact absurd rfl ht
  · obtain rfl := encode_of_decode hi
    rcases exec_cases he with ⟨herr, -, -⟩ | ⟨-, c, -, rfl⟩ | ⟨-, hc⟩
    · exact absurd herr hm
    · exact absurd rfl ht
    · refine completes_agrees hx hm ?_ hc
      rintro rfl
      exact hw (by decide)

/-- Any access the SPU takes keeps the record in agreement. -/
theorem recordEvent_agrees {e : BusEvent} {s t : State} {x : Option Session} (hx : SessionAgrees x s)
    (h : takeEvent e s = .next t) : SessionAgrees (recordEvent e s t x) t := by
  cases e with
  | reset =>
    cases h
    exact sessionAgrees_of_closed (.inl rfl) fun y => discardOpen_not_open
  | read off n =>
    cases hr : resolve off n with
    | error why => simp [takeEvent, hr] at h
    | ok r =>
      simp only [takeEvent, hr] at h
      cases h
      simp only [recordEvent, hr]
      exact (hx.afterRead r _).congr rfl rfl
  | write off n v =>
    cases hr : resolve off n with
    | error why => simp [takeEvent, hr] at h
    | ok r =>
      simp only [takeEvent, hr] at h
      simp only [recordEvent, hr]
      by_cases hc : r = .cmd
      · rw [if_pos hc] at h ⊢
        exact recordWrite_agrees hx h
      · rw [if_neg hc] at h ⊢
        cases h
        exact hx

/-- Settles O46: a record opens, ends and is dropped as MODE says. -/
theorem sessionRecordFollowsTheMode : Obligations.SessionRecordFollowsTheMode :=
  ⟨fun _ _ _ _ hx h => recordEvent_agrees hx (issue_eq_some.mp h), sessionAgrees_of_closed (.inl rfl) nofun⟩

end Sys2Proof.Machine

/-! Proofs of what a whole decode session extracts and decodes (R97). -/

namespace Sys2Proof.Machine

/-! ### Decoding the septets of several octets (R94) -/

/-- Septets that follow decoded ones are decoded with the escape those leave. -/
theorem decodePulled_append {s t : State} {d : Decoded} {us : List Septet} (hd : decodePulled s us = some d)
    (hraw : t.raw = s.raw) (hrom : t.rom = s.rom) (hesc : t.escPending = d.esc) (vs : List Septet) :
    decodePulled s (us ++ vs) = (decodePulled t vs).map fun e => ⟨e.esc, d.chars ++ e.chars⟩ := by
  cases hr : s.raw with
  | true =>
    rw [decodePulled_of_raw hr] at hd ⊢
    cases hd
    rw [decodePulled_of_raw (hraw.trans hr), hesc]
    rfl
  | false =>
    rw [decodePulled_of_not_raw hr] at hd ⊢
    rw [decodePulled_of_not_raw (hraw.trans hr), decodeSeptets_append, hd, hrom, hesc]
    rfl

/-- Septets that follow an unused slot make no difference. -/
theorem decodePulled_append_none {s : State} {us : List Septet} (hd : decodePulled s us = none) (vs : List Septet) :
    decodePulled s (us ++ vs) = none := by
  cases hr : s.raw with
  | true => simp [decodePulled_of_raw hr] at hd
  | false =>
    rw [decodePulled_of_not_raw hr] at hd ⊢
    rw [decodeSeptets_append, hd]
    rfl

/-- The septets of a pull decode to no more characters than there are septets. -/
theorem decodePulled_length {s : State} {seps : List Septet} {d : Decoded} (h : decodePulled s seps = some d) :
    d.chars.length ≤ seps.length := by
  cases hr : s.raw with
  | true =>
    rw [decodePulled_of_raw hr] at h
    cases h
    exact Nat.zero_le _
  | false =>
    rw [decodePulled_of_not_raw hr] at h
    exact decodeSeptets_length h

/-! ### The octets of a session (R90, R94) -/

/-- Where a decode session stands after the octets `os`, which decode to `d`, from the state `s`: still open with R38
kept, the registers as `pullAll` leaves them and N unchanged. -/
structure Unpacked (os : List Octet) (d : Decoded) (s t : State) : Prop where
  mode : t.mode = .dec
  rom : t.rom = s.rom
  raw : t.raw = s.raw
  inv : t.DecInv
  esc : t.escPending = d.esc
  acc : t.acc.toNat = (pullAll s.acc.toNat s.nbits.toNat s.remain.toNat os).acc
  nbits : t.nbits.toNat = (pullAll s.acc.toNat s.nbits.toNat s.remain.toNat os).nb
  remain : t.remain.toNat = s.remain.toNat - (pullAll s.acc.toNat s.nbits.toNat s.remain.toNat os).seps.length
  total : t.scount.toNat + t.remain.toNat = s.scount.toNat + s.remain.toNat
  ocount : t.ocount.toNat = s.ocount.toNat + os.length

/-- A session that decodes no octet stays where it stands. -/
theorem unpacked_nil {s : State} (hm : s.mode = .dec) (hs : s.DecInv) : Unpacked [] ⟨s.escPending, []⟩ s s :=
  ⟨hm, rfl, rfl, hs, rfl, rfl, rfl, rfl, rfl, rfl⟩

/-- A `DEC_OCTET` that decodes is one octet of the session. -/
theorem commitPull_unpacked {s : State} {o : Octet} {d : Decoded} (hm : s.mode = .dec) (hs : s.DecInv)
    (hr : s.remain ≠ 0) (hd : decodePulled s (pull s.acc.toNat s.nbits.toNat o s.remain.toNat).seps = some d) :
    Unpacked [o] d s (commitPull (pull s.acc.toNat s.nbits.toNat o s.remain.toNat) d s) := by
  obtain ⟨-, tacc, tnb, trem, -, toc⟩ := commitPull_pull_toNat (d := d) hm hs hr rfl
  exact ⟨hm, rfl, rfl, commitPull_decInv hm hs hr rfl hd, rfl, tacc, tnb, by simpa [pullAll] using trem,
    commitPull_count hm hs hr rfl, toc⟩

/-- After the first octet of several, the others go on from what it leaves. -/
theorem pullAll_cons_of_unpacked {o : Octet} {d : Decoded} {s t : State} (h : Unpacked [o] d s t) (os : List Octet) :
    pullAll s.acc.toNat s.nbits.toNat s.remain.toNat (o :: os) =
      ⟨(pullAll t.acc.toNat t.nbits.toNat t.remain.toNat os).acc,
        (pullAll t.acc.toNat t.nbits.toNat t.remain.toNat os).nb,
        (pull s.acc.toNat s.nbits.toNat o s.remain.toNat).seps ++
          (pullAll t.acc.toNat t.nbits.toNat t.remain.toNat os).seps⟩ := by
  rw [h.acc, h.nbits, h.remain]
  simp [pullAll]

/-- One octet and then several are a run of octets. -/
theorem Unpacked.cons {o : Octet} {os : List Octet} {d e : Decoded} {s t u : State} (h : Unpacked [o] d s t)
    (h' : Unpacked os e t u) : Unpacked (o :: os) ⟨e.esc, d.chars ++ e.chars⟩ s u := by
  have hpull := pullAll_cons_of_unpacked h os
  have hfirst := h.remain
  simp only [pullAll, List.append_nil] at hfirst
  refine ⟨h'.mode, h'.rom.trans h.rom, h'.raw.trans h.raw, h'.inv, h'.esc, ?_, ?_, ?_, h'.total.trans h.total, ?_⟩
  · rw [h'.acc, hpull]
  · rw [h'.nbits, hpull]
  · rw [h'.remain, hpull, List.length_append, hfirst, Nat.sub_sub]
  · rw [h'.ocount, h.ocount, List.length_singleton, List.length_cons, Nat.add_assoc, Nat.add_comm 1]

/-- The registers after a `DEC_OCTET` name the septets of the octet and the characters they decode to. -/
theorem outputs_commitPull {s : State} {o : Octet} {d : Decoded} (hm : s.mode = .dec) (hs : s.DecInv)
    (hr : s.remain ≠ 0) (hd : decodePulled s (pull s.acc.toNat s.nbits.toNat o s.remain.toNat).seps = some d) :
    extractedSeptets (.decOctet o) (commitPull (pull s.acc.toNat s.nbits.toNat o s.remain.toNat) d s) =
      (pull s.acc.toNat s.nbits.toNat o s.remain.toNat).seps ∧
    decodedChars (.decOctet o) (commitPull (pull s.acc.toNat s.nbits.toNat o s.remain.toNat) d s) = d.chars := by
  obtain ⟨-, hrun, -, hacc, -⟩ := hs hm
  obtain ⟨-, hnb⟩ := hrun (toNat_pos_of_ne_zero hr)
  have hlen := pull_seps_length_le s.remain.toNat o hacc hnb
  exact ⟨septets_ofList hlen, chars_ofOption ((decodePulled_length hd).trans hlen)⟩

/-- While the octets given are fewer than the payload's, septets are owed (R77, R91). -/
theorem remain_ne_zero_of_ocount_lt {s : State} (hm : s.mode = .dec) (hs : s.DecInv)
    (h : s.ocount.toNat < payloadLength (s.scount.toNat + s.remain.toNat)) : s.remain ≠ 0 := by
  intro h0
  obtain ⟨-, -, hdone, -⟩ := hs hm
  obtain ⟨-, -, hoc⟩ := hdone (by rw [h0]; rfl)
  omega

/-- Once the payload's octets are given, no septet is owed (R77, R91). -/
theorem remain_eq_zero_of_ocount_eq {s : State} (hm : s.mode = .dec) (hs : s.DecInv)
    (h : s.ocount.toNat = payloadLength (s.scount.toNat + s.remain.toNat)) : s.remain = 0 := by
  refine not_not.mp fun hr => ?_
  have hpos := toNat_pos_of_ne_zero hr
  obtain ⟨-, hrun, -⟩ := hs hm
  obtain ⟨hoc, hnb⟩ := hrun hpos
  rw [payloadLength_eq] at h
  omega

/-- Octets of a payload whose septets decode run without a fault, extract what `pullAll` does and decode what the
decoder does, each octet its own part (R94). -/
theorem runSession_decOctets {os : List Octet} {s : State} {d : Decoded} (hm : s.mode = .dec) (hs : s.DecInv)
    (hlen : s.ocount.toNat + os.length ≤ payloadLength (s.scount.toNat + s.remain.toNat))
    (hd : decodePulled s (pullAll s.acc.toNat s.nbits.toNat s.remain.toNat os).seps = some d) :
    ∃ t, Unpacked os d s t ∧
      runSession extractedSeptets (os.map .decOctet) s =
        some (t, (pullAll s.acc.toNat s.nbits.toNat s.remain.toNat os).seps) ∧
      runSession decodedChars (os.map .decOctet) s = some (t, d.chars) := by
  induction os generalizing s d with
  | nil =>
    have hnone : d = ⟨s.escPending, []⟩ := by
      cases hr : s.raw <;> simpa [pullAll, decodePulled, hr, decodeSeptets, eq_comm] using hd
    subst hnone
    exact ⟨s, unpacked_nil hm hs, rfl, rfl⟩
  | cons o os ih =>
    rw [List.length_cons] at hlen
    have hr := remain_ne_zero_of_ocount_lt hm hs (by omega)
    have hsplit : (pullAll s.acc.toNat s.nbits.toNat s.remain.toNat (o :: os)).seps =
      (pull s.acc.toNat s.nbits.toNat o s.remain.toNat).seps ++ _ := rfl
    cases ha : decodePulled s (pull s.acc.toNat s.nbits.toNat o s.remain.toNat).seps with
    | none => simp [hsplit, decodePulled_append_none ha] at hd
    | some a =>
      have hexec := execDecOctet_next hm hr ha
      have hone := commitPull_unpacked hm hs hr ha
      obtain ⟨hseps, hchars⟩ := outputs_commitPull hm hs hr ha
      set t := commitPull (pull s.acc.toNat s.nbits.toNat o s.remain.toNat) a s
      have hpull := pullAll_cons_of_unpacked hone os
      rw [hpull, decodePulled_append ha hone.raw hone.rom hone.esc] at hd
      obtain ⟨e, he, rfl⟩ := Option.map_eq_some_iff.mp hd
      obtain ⟨u, hrest, hrunSeps, hrunChars⟩ :=
        ih hone.mode hone.inv (by rw [hone.ocount, hone.total, List.length_singleton]; omega) he
      have ht : t.mode ≠ .error := by simp [hone.mode]
      refine ⟨u, hone.cons hrest, ?_, ?_⟩
      · rw [List.map_cons, runSession_cons _ hexec ht, hrunSeps, hseps, hpull]
        rfl
      · rw [List.map_cons, runSession_cons _ hexec ht, hrunChars, hchars]
        rfl

/-- A session stops at a command that enters ERROR mode. -/
theorem runSession_cons_fault {β : Type} {out : Instr → State → List β} {i : Instr} {s t : State} (is : List Instr)
    (h : exec i s = .next t) (ht : t.mode = .error) : runSession out (i :: is) s = none := by
  simp [runSession, h, ht]

/-- Octets of a payload with an unused slot among its septets end in a fault (R94). -/
theorem runSession_decOctets_unused {β : Type} (out : Instr → State → List β) {os : List Octet} {s : State}
    (hm : s.mode = .dec) (hs : s.DecInv)
    (hlen : s.ocount.toNat + os.length ≤ payloadLength (s.scount.toNat + s.remain.toNat))
    (hd : decodePulled s (pullAll s.acc.toNat s.nbits.toNat s.remain.toNat os).seps = none) :
    runSession out (os.map .decOctet) s = none := by
  induction os generalizing s with
  | nil => cases hr : s.raw <;> simp [pullAll, decodePulled, hr, decodeSeptets] at hd
  | cons o os ih =>
    rw [List.length_cons] at hlen
    have hr := remain_ne_zero_of_ocount_lt hm hs (by omega)
    cases ha : decodePulled s (pull s.acc.toNat s.nbits.toNat o s.remain.toNat).seps with
    | none => exact runSession_cons_fault _ (execDecOctet_unused hm hr ha) rfl
    | some a =>
      have hone := commitPull_unpacked hm hs hr ha
      rw [List.map_cons, runSession_cons _ (execDecOctet_next hm hr ha) (by simp [hm])]
      set t := commitPull (pull s.acc.toNat s.nbits.toNat o s.remain.toNat) a s
      rw [pullAll_cons_of_unpacked hone os, decodePulled_append ha hone.raw hone.rom hone.esc,
        Option.map_eq_none_iff] at hd
      rw [ih hone.mode hone.inv (by rw [hone.ocount, hone.total, List.length_singleton]; omega) hd]
      rfl

/-! ### A whole decode session (R97) -/

/-- A session of two parts runs the second from what the first leaves, if that runs without a fault. -/
theorem runSession_append_eq {β : Type} (out : Instr → State → List β) (is js : List Instr) (s : State) :
    runSession out (is ++ js) s =
      (runSession out is s).bind fun q => (runSession out js q.1).map fun r => (r.1, q.2 ++ r.2) := by
  induction is generalizing s with
  | nil => cases h : runSession out js s <;> simp [runSession, h]
  | cons i is ih =>
    obtain ⟨v, hv⟩ := exec_total i s
    by_cases hm : v.mode = .error
    · rw [List.cons_append, runSession_cons_fault _ hv hm, runSession_cons_fault _ hv hm]
      rfl
    · rw [List.cons_append, runSession_cons _ hv hm, runSession_cons _ hv hm, ih]
      cases runSession out is v with
      | none => rfl
      | some q => cases h : runSession out js q.1 <;> simp [h]

/-- Which state a session reaches does not depend on what is read. -/
theorem exists_runSession {α β : Type} {out : Instr → State → List α} (out' : Instr → State → List β) {is : List Instr}
    {s t : State} {xs : List α} (h : runSession out is s = some (t, xs)) :
    ∃ ys, runSession out' is s = some (t, ys) := by
  induction is generalizing s xs with
  | nil =>
    cases h
    exact ⟨[], rfl⟩
  | cons i is ih =>
    obtain ⟨v, hv⟩ := exec_total i s
    by_cases hm : v.mode = .error
    · rw [runSession_cons_fault _ hv hm] at h
      exact nomatch h
    · rw [runSession_cons _ hv hm] at h
      obtain ⟨⟨u, zs⟩, hrest, heq⟩ := Option.map_eq_some_iff.mp h
      cases heq
      obtain ⟨ys, hys⟩ := ih hrest
      exact ⟨_, by rw [runSession_cons _ hv hm, hys]; rfl⟩

/-- A payload of `ceil(7N/8)` octets is what a session just opened for `N` septets takes. -/
theorem payload_fits {raw : Bool} {n : Count} {os : List Octet} (s : State) (hos : os.length = payloadLength n.toNat) :
    (openDecode raw n s).ocount.toNat + os.length =
      payloadLength ((openDecode raw n s).scount.toNat + (openDecode raw n s).remain.toNat) := by
  simp [hos]

/-- The octets of a whole payload, from the start of a session, give the septets of `unpack`. -/
theorem pullAll_openDecode {raw : Bool} {n : Count} {os : List Octet} (s : State)
    (hos : os.length = payloadLength n.toNat) :
    (pullAll (openDecode raw n s).acc.toNat (openDecode raw n s).nbits.toNat (openDecode raw n s).remain.toNat
      os).seps = unpack os n.toNat :=
  (streamingUnpackerComputesUnpack os n.toNat hos).1

/-- The commands of a decode session of `os`. -/
abbrev decodeSession (raw : Bool) (n : Count) (os : List Octet) : List Instr :=
  .decBegin raw n :: (os.map .decOctet ++ [.decEnd])

/-- A whole payload whose septets decode with no escape left pending: its octets extract `unpack` of the payload and
decode the decoder's text, and no septet is owed after them. -/
theorem runSession_payload {raw : Bool} {n : Count} {os : List Octet} {text : List CodePoint} (s : State)
    (hos : os.length = payloadLength n.toNat)
    (hd : decodePulled (openDecode raw n s) (unpack os n.toNat) = some ⟨false, text⟩) :
    ∃ t, runSession extractedSeptets (os.map .decOctet) (openDecode raw n s) = some (t, unpack os n.toNat) ∧
      runSession decodedChars (os.map .decOctet) (openDecode raw n s) = some (t, text) ∧
      t.mode = .dec ∧ t.remain = 0 ∧ t.escPending = false ∧ t.scount = n := by
  have hfits := payload_fits (raw := raw) s hos
  rw [← pullAll_openDecode s hos] at hd
  obtain ⟨t, ht, hseps, hchars⟩ :=
    runSession_decOctets (s := openDecode raw n s) rfl (openDecode_decInv raw n s) hfits.le hd
  rw [pullAll_openDecode s hos] at hseps
  have hr : t.remain = 0 :=
    remain_eq_zero_of_ocount_eq ht.mode ht.inv (by rw [ht.ocount, ht.total, hfits])
  refine ⟨t, hseps, hchars, ht.mode, hr, ht.esc, BitVec.eq_of_toNat_eq ?_⟩
  simpa [hr] using ht.total

/-- A whole payload whose septets decode with no escape left pending runs without a fault from BEGIN to END. -/
theorem runSession_decodeSession {s : State} {raw : Bool} {n : Count} {os : List Octet} {text : List CodePoint}
    (hm : s.mode ≠ .error) (hos : os.length = payloadLength n.toNat)
    (hd : decodePulled (openDecode raw n s) (unpack os n.toNat) = some ⟨false, text⟩) :
    ∃ t, runSession extractedSeptets (decodeSession raw n os) s = some (t, unpack os n.toNat) ∧
      runSession decodedChars (decodeSession raw n os) s = some (t, text) ∧ t.mode = .idle ∧ t.scount = n := by
  obtain ⟨t, hseps, hchars, ht, hr, hesc, hn⟩ := runSession_payload s hos hd
  have hend {β : Type} (out : Instr → State → List β) :
      runSession out [.decEnd] t = some (closeDecode t, out .decEnd (closeDecode t)) := by
    rw [runSession_cons _ (execDecEnd_next ht hr hesc) nofun]
    simp [runSession]
  have hbegin := execDecBegin_next hm raw n
  refine ⟨closeDecode t, ?_, ?_, rfl, hn⟩
  · rw [runSession_cons _ hbegin nofun, runSession_append hseps (hend _)]
    simp [extractedSeptets]
  · rw [runSession_cons _ hbegin nofun, runSession_append hchars (hend _)]
    simp [decodedChars]

/-- A whole payload whose septets do not decode, or leave an escape pending, ends in a fault. -/
theorem runSession_decodeSession_fault {β : Type} (out : Instr → State → List β) {s : State} {raw : Bool} {n : Count}
    {os : List Octet} (hm : s.mode ≠ .error) (hos : os.length = payloadLength n.toNat)
    (hd : ∀ text, decodePulled (openDecode raw n s) (unpack os n.toNat) ≠ some ⟨false, text⟩) :
    runSession out (decodeSession raw n os) s = none := by
  have hfits := payload_fits (raw := raw) s hos
  simp only [← pullAll_openDecode (raw := raw) s hos] at hd
  rw [runSession_cons _ (execDecBegin_next hm raw n) nofun, runSession_append_eq]
  cases ha : decodePulled (openDecode raw n s) (pullAll (openDecode raw n s).acc.toNat
      (openDecode raw n s).nbits.toNat (openDecode raw n s).remain.toNat os).seps with
  | none =>
    rw [runSession_decOctets_unused out (s := openDecode raw n s) rfl (openDecode_decInv raw n s) hfits.le ha]
    rfl
  | some d =>
    have hesc : d.esc = true := by
      cases he : d.esc with
      | true => rfl
      | false => exact absurd (by rw [ha, ← he]) (hd d.chars)
    obtain ⟨t, ht, hseps, -⟩ :=
      runSession_decOctets (s := openDecode raw n s) rfl (openDecode_decInv raw n s) hfits.le ha
    have hr : t.remain = 0 :=
      remain_eq_zero_of_ocount_eq ht.mode ht.inv (by rw [ht.ocount, ht.total, hfits])
    obtain ⟨-, hdangling, -⟩ := decEndChecksAndCloses t ht.mode
    have hend := hdangling (by rw [hr]; rfl) (ht.esc.trans hesc)
    obtain ⟨xs, hxs⟩ := exists_runSession out hseps
    rw [hxs, Option.bind_some, runSession_cons_fault _ hend rfl]
    rfl

/-- Settles O39: the octets extract `unpack` of the payload, whether or not the session is raw, and the decoder's answer
for those septets decides between the end of the session and a fault. -/
theorem decodeSessionComputesUnpack : Obligations.DecodeSessionComputesUnpack := by
  intro s raw n os hm hos session
  have hdone {β : Type} {out : Instr → State → List β} {t : State} {xs : List β}
      (h : runSession out (decodeSession raw n os) s = some (t, xs)) :
      ∃ text, decodePulled (openDecode raw n s) (unpack os n.toNat) = some ⟨false, text⟩ := by
    refine not_not.mp fun hno => ?_
    rw [runSession_decodeSession_fault out hm hos (not_exists.mp hno)] at h
    exact nomatch h
  refine ⟨fun t seps h => ?unpacked, fun hraw => ?raw, fun hraw text => ⟨fun ⟨t, h⟩ => ?text, fun h => ?decodes⟩⟩
  case unpacked =>
    obtain ⟨text, htext⟩ := hdone h
    obtain ⟨u, hseps, -, hidle, hsc⟩ := runSession_decodeSession hm hos htext
    cases hseps.symm.trans h
    exact ⟨rfl, hidle, hsc⟩
  case raw =>
    obtain ⟨u, hseps, -⟩ := runSession_decodeSession hm hos (decodePulled_of_raw (s := openDecode raw n s) hraw _)
    exact Option.isSome_iff_exists.mpr ⟨_, hseps⟩
  case text =>
    obtain ⟨text', htext⟩ := hdone h
    obtain ⟨u, -, hchars, -⟩ := runSession_decodeSession hm hos htext
    cases hchars.symm.trans h
    rwa [decodePulled_of_not_raw (s := openDecode raw n s) hraw] at htext
  case decodes =>
    obtain ⟨u, -, hchars, -⟩ := runSession_decodeSession hm hos
      ((decodePulled_of_not_raw (s := openDecode raw n s) hraw _).trans h)
    exact ⟨u, hchars⟩

/-! ### The text of a packed payload (R97) -/

/-- With ROM contents that meet R69 the septets of a character decode to it (R73). -/
theorem decodeSeptets_charSeptets {t : CharTables} {c : CodePoint} {ss : List Septet} (hwf : t.wf = true)
    (h : charSeptets t c = some ss) : decodeSeptets t false ss = some ⟨false, [c]⟩ := by
  rcases hc : charIndex t c with ⟨cls, i⟩
  obtain ⟨hdflt, hext, -⟩ := lookupsRoundTrip t c i hwf
  cases cls with
  | default =>
    cases (charSeptets_default hc).symm.trans h
    rw [decodeSeptets_singleton, decodeStep, (hdflt hc).2]
  | extension =>
    cases (charSeptets_extension hc).symm.trans h
    have hesc : decodeStep t false Config.esc = some ⟨true, []⟩ := by simp [decodeStep, septetChar]
    have hchar : decodeStep t true i = some ⟨false, [c]⟩ := by rw [decodeStep, hext hc]
    simp only [decodeSeptets, hesc, hchar]
    rfl
  | unmapped => exact nomatch (charSeptets_unmapped (congrArg Prod.fst hc)).symm.trans h

/-- With ROM contents that meet R69 the septets of a text decode to it. -/
theorem decodeSeptets_textSeptets {t : CharTables} {text : List CodePoint} {ss : List Septet} (hwf : t.wf = true)
    (h : textSeptets t text = some ss) : decodeSeptets t false ss = some ⟨false, text⟩ := by
  induction text generalizing ss with
  | nil =>
    cases h
    rfl
  | cons c cs ih =>
    simp only [textSeptets] at h
    split at h
    case h_1 us vs hus hvs =>
      cases h
      rw [decodeSeptets_append, decodeSeptets_charSeptets hwf hus, Option.bind_some, ih hvs]
      rfl
    case h_2 => exact nomatch h

theorem toNat_ofNat_count {k : Nat} (h : k ≤ 65535) : (BitVec.ofNat 16 k).toNat = k := by
  rw [BitVec.toNat_ofNat, Nat.mod_eq_of_lt (by omega)]

/-- The packed septets of a text, with their count, are a payload that decodes to the text (R97). -/
theorem decodePulled_pack {s : State} {text : List CodePoint} {ss : List Septet} (hwf : s.rom.wf = true)
    (hss : textSeptets s.rom text = some ss) (hlen : ss.length ≤ 65535) :
    (pack ss).length = payloadLength (BitVec.ofNat 16 ss.length).toNat ∧
      decodePulled (openDecode false (BitVec.ofNat 16 ss.length) s)
        (unpack (pack ss) (BitVec.ofNat 16 ss.length).toNat) = some ⟨false, text⟩ := by
  rw [toNat_ofNat_count hlen, pack_length, unpack_pack, decodePulled_of_not_raw rfl]
  exact ⟨rfl, decodeSeptets_textSeptets hwf hss⟩

/-- Settles O40: `unpack` gives the packed septets back, which decode to the text. -/
theorem decodeSessionRecoversTheText : Obligations.DecodeSessionRecoversTheText := by
  intro s text ss hm hwf hss hlen
  obtain ⟨hos, hd⟩ := decodePulled_pack hwf hss hlen
  obtain ⟨t, -, hchars, hidle, -⟩ := runSession_decodeSession hm hos hd
  exact ⟨t, hchars, hidle⟩

end Sys2Proof.Machine

/-! Proofs that the WIDE codec round-trips every text of Unicode code points (R104, R105). -/

namespace Sys2Proof.Machine

/-! ### Code units (R104) -/

/-- The UTF-16 code units of a code point (R104). -/
def wideCharUnits (c : Nat) : List Nat :=
  if c ≤ 0xFFFF then [c] else [0xD800 + (c - 0x10000) / 2 ^ 10, 0xDC00 + (c - 0x10000) % 2 ^ 10]

/-- The octets of a scalar value are those of its code units (R104). -/
theorem wideChar_of_isScalar {c : CodePoint} (h : isScalar c = true) :
    wideChar c = some ((wideCharUnits c.toNat).flatMap unitOctets) := by
  rw [wideChar, h, wideCharUnits]
  have hmask : (c.toNat - 0x10000) &&& 0x3FF = (c.toNat - 0x10000) % 2 ^ 10 := Nat.and_two_pow_sub_one_eq_mod _ 10
  simp only [Bool.not_true, Bool.false_eq_true, if_false, Nat.shiftRight_eq_div_pow, hmask]
  split <;> simp

/-- A scalar value is at most 0x10FFFF and no surrogate (R104). -/
theorem isScalar_iff (c : CodePoint) :
    isScalar c = true ↔ c.toNat ≤ 0x10FFFF ∧ isHighSurrogate c.toNat = false ∧ isLowSurrogate c.toNat = false := by
  simp [isScalar, and_assoc]

/-- Code units fit 16 bits. -/
theorem wideCharUnits_lt {c : CodePoint} (h : isScalar c = true) : ∀ u ∈ wideCharUnits c.toNat, u < 2 ^ 16 := by
  obtain ⟨hmax, -, -⟩ := (isScalar_iff c).mp h
  intro u hu
  rw [wideCharUnits] at hu
  split at hu
  · rw [List.mem_singleton] at hu
    omega
  · rcases List.mem_pair.mp hu with hu | hu <;> omega

/-! ### Octets and code units (R104, R105) -/

/-- The two octets of a code unit are read back as the code unit (R104, R105). -/
theorem wideUnits_unitOctets {u : Nat} (hu : u < 2 ^ 16) (os : List Octet) :
    wideUnits (unitOctets u ++ os) = (wideUnits os).map (u :: ·) := by
  have hjoin : ((BitVec.ofNat 8 (u >>> 8)).toNat <<< 8) ||| (BitVec.ofNat 8 (u &&& 0xFF)).toNat = u := by
    rw [BitVec.toNat_ofNat, BitVec.toNat_ofNat, and_255, Nat.shiftRight_eq_div_pow, ← Nat.shiftLeft_add_eq_or_of_lt
      (by omega), Nat.shiftLeft_eq]
    omega
  rw [unitOctets, List.cons_append, List.cons_append, List.nil_append, wideUnits, hjoin]

/-- The octets of code units are read back as the code units. -/
theorem wideUnits_flatMap {us : List Nat} (h : ∀ u ∈ us, u < 2 ^ 16) (os : List Octet) :
    wideUnits (us.flatMap unitOctets ++ os) = (wideUnits os).map (us ++ ·) := by
  induction us with
  | nil => simp
  | cons u us ih =>
    rw [List.flatMap_cons, List.append_assoc, wideUnits_unitOctets (h u (by simp)), ih fun v hv => h v (by simp [hv]),
      Option.map_map]
    rfl

/-- An odd number of octets is no sequence of code units (R105). -/
theorem wideUnits_of_odd {os : List Octet} (h : os.length % 2 = 1) : wideUnits os = none := by
  induction os using List.twoStepInduction with
  | nil => exact nomatch h
  | singleton o => rfl
  | cons_cons a b os ih _ =>
    rw [wideUnits, ih (by rw [List.length_cons, List.length_cons] at h; omega)]
    rfl

/-! ### Code units and text (R105) -/

/-- A code unit that is no surrogate is a character of its own (R105). -/
theorem unitsText_cons {u : Nat} (hh : isHighSurrogate u = false) (hl : isLowSurrogate u = false) (us : List Nat) :
    unitsText (u :: us) = (unitsText us).map (BitVec.ofNat 21 u :: ·) := by
  cases us with
  | nil => simp [unitsText, hh, hl]
  | cons v us => simp [unitsText, hh, hl]

/-- A high and a low surrogate are one character (R105). -/
theorem unitsText_pair {u v : Nat} (hu : isHighSurrogate u = true) (hv : isLowSurrogate v = true) (us : List Nat) :
    unitsText (u :: v :: us) =
      (unitsText us).map (BitVec.ofNat 21 (0x10000 + ((u - 0xD800) <<< 10) + (v - 0xDC00)) :: ·) := by
  simp [unitsText, hu, hv]

/-- The code units of a scalar value are read back as it (R104, R105). -/
theorem unitsText_wideCharUnits {c : CodePoint} (h : isScalar c = true) (us : List Nat) :
    unitsText (wideCharUnits c.toNat ++ us) = (unitsText us).map (c :: ·) := by
  obtain ⟨hmax, hhigh, hlow⟩ := (isScalar_iff c).mp h
  rw [wideCharUnits]
  split
  case isTrue hbmp => rw [List.singleton_append, unitsText_cons hhigh hlow, BitVec.ofNat_toNat, BitVec.setWidth_eq]
  case isFalse hbmp =>
    have hu : isHighSurrogate (0xD800 + (c.toNat - 0x10000) / 2 ^ 10) = true := by
      simp only [isHighSurrogate, Bool.and_eq_true, decide_eq_true_eq]
      omega
    have hv : isLowSurrogate (0xDC00 + (c.toNat - 0x10000) % 2 ^ 10) = true := by
      simp only [isLowSurrogate, Bool.and_eq_true, decide_eq_true_eq]
      omega
    have hcp : 0x10000 + ((0xD800 + (c.toNat - 0x10000) / 2 ^ 10 - 0xD800) <<< 10) +
        (0xDC00 + (c.toNat - 0x10000) % 2 ^ 10 - 0xDC00) = c.toNat := by
      rw [Nat.shiftLeft_eq]
      omega
    rw [List.cons_append, List.singleton_append, unitsText_pair hu hv, hcp, BitVec.ofNat_toNat, BitVec.setWidth_eq]

/-! ### The codec (R109) -/

/-- A text of scalar values encodes to octets whose code units are the text's. -/
theorem exists_wideEncode {text : List CodePoint} (h : text.all isScalar = true) :
    ∃ os us, wideEncode text = some os ∧ wideUnits os = some us ∧ unitsText us = some text := by
  induction text with
  | nil => exact ⟨[], [], rfl, rfl, rfl⟩
  | cons c cs ih =>
    rw [List.all_cons, Bool.and_eq_true] at h
    obtain ⟨hc, hcs⟩ := h
    obtain ⟨os, us, hos, hus, htext⟩ := ih hcs
    refine ⟨(wideCharUnits c.toNat).flatMap unitOctets ++ os, wideCharUnits c.toNat ++ us, ?_, ?_, ?_⟩
    · rw [wideEncode, wideChar_of_isScalar hc, hos]
    · rw [wideUnits_flatMap (wideCharUnits_lt hc), hus]
      rfl
    · rw [unitsText_wideCharUnits hc, htext]
      rfl

/-- The octets of a text of scalar values decode to it. -/
theorem wideDecode_wideEncode {text : List CodePoint} (h : text.all isScalar = true) :
    ∃ os, wideEncode text = some os ∧ wideDecode os = .ok text := by
  obtain ⟨os, us, hos, hus, htext⟩ := exists_wideEncode h
  exact ⟨os, hos, by rw [wideDecode, hus]; simp only [htext]⟩

/-- Settles O57: each character's code units are read back, and code units take two octets each. -/
theorem wideCodecRoundTrips : Obligations.WideCodecRoundTrips :=
  ⟨fun _ => wideDecode_wideEncode, fun _ hodd => by rw [wideDecode, wideUnits_of_odd hodd]⟩

end Sys2Proof.Machine

/-! Proofs that what a host sees of a session, access by access, is what `runSession` says of its commands, and of the
output of observed sessions (R45, R87, R97, R128). -/

namespace Sys2Proof.Machine

/-! ### What the host has read makes no difference (R46) -/

/-- A state with other values read by the host. -/
def withResponses (rs : List Word) (s : State) : State := { s with responses := rs }

@[simp] theorem withResponses_mode (rs : List Word) (s : State) : (withResponses rs s).mode = s.mode := rfl
@[simp] theorem withResponses_rom (rs : List Word) (s : State) : (withResponses rs s).rom = s.rom := rfl

@[simp] theorem withResponses_remain (rs : List Word) (s : State) : (withResponses rs s).remain = s.remain := rfl
@[simp] theorem withResponses_escPending (rs : List Word) (s : State) :
    (withResponses rs s).escPending = s.escPending := rfl
@[simp] theorem withResponses_acc (rs : List Word) (s : State) : (withResponses rs s).acc = s.acc := rfl
@[simp] theorem withResponses_nbits (rs : List Word) (s : State) : (withResponses rs s).nbits = s.nbits := rfl

@[simp] theorem responses_withResponses (rs : List Word) (s : State) : (withResponses rs s).responses = rs := rfl

theorem withResponses_self (s : State) : withResponses s.responses s = s := rfl

theorem respond_eq_withResponses (v : Word) (s : State) : respond v s = withResponses (s.responses ++ [v]) s := rfl

@[simp] theorem withResponses_withResponses (rs rs' : List Word) (s : State) :
    withResponses rs (withResponses rs' s) = withResponses rs s := rfl

@[simp] theorem readReg_withResponses (r : Reg) (rs : List Word) (s : State) :
    readReg r (withResponses rs s) = readReg r s := by cases r <;> rfl

theorem pushSeptets_withResponses (ss : List Septet) (rs : List Word) (s : State) :
    pushSeptets ss (withResponses rs s) = (pushSeptets ss s).map (withResponses rs) := by
  rcases Nat.lt_or_ge 65535 (s.scount.toNat + ss.length) with h | h
  · rw [pushSeptets_of_lt h, pushSeptets_of_lt (s := withResponses rs s) h]
    rfl
  · rw [pushSeptets_of_le h, pushSeptets_of_le (s := withResponses rs s) h]
    rfl

@[simp] theorem decodePulled_withResponses (rs : List Word) (s : State) (seps : List Septet) :
    decodePulled (withResponses rs s) seps = decodePulled s seps := rfl

/-- No command reads what the host has read. -/
theorem commandBody_withResponses (i : Instr) (rs : List Word) (s : State) :
    commandBody i (withResponses rs s) = (commandBody i s).map (withResponses rs) := by
  cases i with
  | nop => rfl
  | clear => rfl
  | c2i cp => rfl
  | encBegin => rfl
  | decBegin raw n => rfl
  | i2c sel idx =>
    simp only [commandBody]
    cases septetOperand idx <;> rfl
  | encChar cp =>
    by_cases hm : s.mode = .enc
    · cases hs : charSeptets s.rom cp <;> simp [commandBody, hm, hs, pushSeptets_withResponses, Except.map]
    · simp [commandBody, hm, Except.map]
  | encSeptet x =>
    by_cases hm : s.mode = .enc
    · cases hx : septetOperand x <;> simp [commandBody, hm, hx, pushSeptets_withResponses, Except.map]
    · simp [commandBody, hm, Except.map]
  | encEnd =>
    by_cases hm : s.mode = .enc
    · simp [commandBody, hm, Except.map, closeEncode, withResponses]
    · simp [commandBody, hm, Except.map]
  | decOctet o =>
    by_cases hm : s.mode = .dec
    · by_cases hr : s.remain = 0
      · simp [commandBody, hm, hr, Except.map]
      · simp only [commandBody, withResponses_mode, hm, withResponses_remain, hr, withResponses_acc,
          withResponses_nbits, decodePulled_withResponses, ne_eq, not_true_eq_false, if_false]
        cases decodePulled s (pull s.acc.toNat s.nbits.toNat o s.remain.toNat).seps <;> rfl
    · simp [commandBody, hm, Except.map]
  | decEnd =>
    by_cases hm : s.mode = .dec
    · by_cases hr : s.remain = 0
      · cases he : s.escPending <;> simp [commandBody, hm, hr, he, Except.map, closeDecode, withResponses]
      · simp only [commandBody, withResponses_mode, hm, withResponses_remain, hr, ne_eq, not_true_eq_false, if_false,
          not_false_eq_true, if_true]
        rfl
    · simp [commandBody, hm, Except.map]

/-- A command does the same whatever the host has read. -/
theorem exec_withResponses {i : Instr} {s t : State} (h : exec i s = .next t) (rs : List Word) :
    exec i (withResponses rs s) = .next (withResponses rs t) := by
  by_cases hi : i = .clear
  · subst hi
    cases h
    rfl
  rw [exec_eq_runCommand hi] at h ⊢
  rw [commandBody_withResponses]
  rcases runCommand_cases h with ⟨hm, rfl⟩ | ⟨hm, hb⟩ | ⟨hm, c, hb, rfl⟩
  · exact runCommand_error (s := withResponses rs t) hm _ _
  · rw [hb]
    exact runCommand_ok (s := withResponses rs s) hm _ _
  · rw [hb]
    exact runCommand_fault (s := withResponses rs s) hm _ _

/-! ### One command of the host and the reads after it (R45, R56, R128) -/

/-- The host's write of a command runs it, in every mode. -/
theorem issue_command {i : Instr} {s t : State} (h : exec i s = .next t) : issue (command i) s = some t := by
  rw [issue_eq_some]
  simp [takeEvent, command, commandWord, commandWrite_encode, h]

/-- What reading registers, in order, adds to the record of a session. -/
def recordReads (regs : List Reg) (s : State) (y : Session) : Session :=
  regs.foldl (fun z r => z.afterRead r (readReg r s)) y

@[simp] theorem recordReads_withResponses (regs : List Reg) (rs : List Word) (s : State) (y : Session) :
    recordReads regs (withResponses rs s) y = recordReads regs s y := by simp [recordReads]

theorem issueRecorded_command {i : Instr} {s t : State} (h : exec i s = .next t) (es : List BusEvent)
    (x : Option Session) :
    issueRecorded (command i :: es) s x = issueRecorded es t (recordWrite (encode i) s t x) := by
  rw [issueRecorded, issue_command h, Option.bind_some]
  rfl

theorem issueRecorded_hostRead (r : Reg) (es : List BusEvent) (s : State) (x : Option Session) :
    issueRecorded (hostRead r :: es) s x =
      issueRecorded es (withResponses (s.responses ++ [readReg r s]) s) (x.map (·.afterRead r (readReg r s))) := by
  rw [issueRecorded, issue_hostRead, Option.bind_some, respond_eq_withResponses]
  simp only [recordEvent, hostRead, resolve_offset]

/-- Reads change only what the host has read and the record. -/
theorem issueRecorded_reads (regs : List Reg) (es : List BusEvent) (s : State) (y : Session) :
    issueRecorded (regs.map hostRead ++ es) s (some y) =
      issueRecorded es (withResponses (s.responses ++ regs.map fun r => readReg r s) s)
        (some (recordReads regs s y)) := by
  induction regs generalizing s y with
  | nil => simp [withResponses_self, recordReads]
  | cons r regs ih =>
    rw [List.map_cons, List.cons_append, issueRecorded_hostRead, Option.map_some, ih]
    simp [recordReads]

/-- A command that opens and ends no session leaves the record, unless it faults. -/
theorem recordWrite_command {i : Instr} {s t : State}
    (hi : i.opcode ∉ [Opcode.clear, .encBegin, .decBegin, .encEnd, .decEnd]) (hm : s.mode ≠ .error)
    (ht : t.mode ≠ .error) (x : Option Session) : recordWrite (encode i) s t x = x := by
  have hne (j : Instr) (hj : j.opcode ∈ [Opcode.clear, .encBegin, .decBegin, .encEnd, .decEnd]) : i ≠ j := by
    rintro rfl
    exact hi hj
  have hopen := openedBy_eq_none (decode_encode i) (hne _ (by decide)) fun raw n => hne _ (by simp [Instr.opcode])
  rw [recordWrite_of_not_opened (encode_ne_clearWord (hne _ (by decide))) hm hopen, if_neg ht, if_neg]
  simp only [encode_injective.eq_iff, not_or]
  exact ⟨hne _ (by decide), hne _ (by decide)⟩

/-! ### The commands of an open session (R87, R97) -/

/-- Commands of an open session that run without a fault, each followed by reads of `regs` that add what `out` says:
the record gathers what the session reads. -/
theorem issueRecorded_commands {β : Type} {out : Instr → State → List β} {regs : List Reg}
    {add : List β → Session → Session} (hnil : ∀ y, add [] y = y)
    (happend : ∀ xs zs y, add zs (add xs y) = add (xs ++ zs) y) {is : List Instr}
    (his : ∀ i ∈ is, i.opcode ∉ [Opcode.clear, .encBegin, .decBegin, .encEnd, .decEnd])
    (hreads : ∀ i ∈ is, ∀ t y, recordReads regs t y = add (out i t) y) {s u : State} {xs : List β}
    (hm : s.mode ≠ .error) (hrun : runSession out is s = some (u, xs)) (rs : List Word) (y : Session)
    (es : List BusEvent) :
    ∃ rs', issueRecorded (is.flatMap (fun i => command i :: regs.map hostRead) ++ es) (withResponses rs s) (some y) =
      issueRecorded es (withResponses rs' u) (some (add xs y)) := by
  induction is generalizing s xs rs y with
  | nil =>
    cases hrun
    exact ⟨rs, by rw [hnil]; rfl⟩
  | cons i is ih =>
    obtain ⟨t, ht⟩ := exec_total i s
    by_cases htm : t.mode = .error
    · rw [runSession_cons_fault _ ht htm] at hrun
      exact nomatch hrun
    rw [runSession_cons _ ht htm] at hrun
    obtain ⟨⟨v, zs⟩, hrest, heq⟩ := Option.map_eq_some_iff.mp hrun
    cases heq
    obtain ⟨rs', hrs'⟩ := ih (fun j hj => his j (by simp [hj])) (fun j hj => hreads j (by simp [hj])) htm hrest
      (rs ++ regs.map fun r => readReg r t) (add (out i t) y)
    refine ⟨rs', ?_⟩
    rw [List.flatMap_cons, List.cons_append, List.cons_append, List.append_assoc,
      issueRecorded_command (exec_withResponses ht rs),
      recordWrite_command (s := withResponses rs s) (t := withResponses rs t) (his i (by simp)) hm htm,
      issueRecorded_reads]
    simp only [readReg_withResponses, responses_withResponses, withResponses_withResponses, recordReads_withResponses]
    rw [hreads i (by simp), ← happend]
    exact hrs'

/-! ### An observed encode session (R87, R128) -/

/-- What reads of OUT_OCT add. -/
def Session.addOctets (xs : List Octet) (y : Session) : Session := { y with octets := y.octets ++ xs }

/-- What reads of OUT_SEPT add. -/
def Session.addSeptets (xs : List Septet) (y : Session) : Session := { y with septets := y.septets ++ xs }

/-- What reads of OUT_CHR0 and OUT_CHR1 add. -/
def Session.addChars (xs : List CodePoint) (y : Session) : Session := { y with chars := y.chars ++ xs }

theorem recordReads_outOct (t : State) (y : Session) : recordReads [.outOct] t y = y.addOctets t.outOct.octets :=
  congrArg (fun xs => y.addOctets xs) (octetsOfWord_word t.outOct)

theorem recordReads_outSept (t : State) (y : Session) : recordReads [.outSept] t y = y.addSeptets t.outSept.septets :=
  congrArg (fun xs => y.addSeptets xs) (septetsOfWord_word t.outSept)

theorem recordReads_outChr (t : State) (y : Session) :
    recordReads [.outChr0, .outChr1] t y = y.addChars (t.outChr0.chars ++ t.outChr1.chars) := by
  simp only [recordReads, List.foldl_cons, List.foldl_nil, Session.afterRead, readReg, charsOfWord_word,
    Session.addChars, List.append_assoc]

/-- The septets pushed by `ENC_BEGIN` and pushing commands are out, or held for the octet `ENC_END` flushes (R87). -/
theorem runSession_encode {s : State} {cs : List Instr} {ss : List Septet} (hcs : pushedSeptets s.rom cs = some ss)
    (hlen : ss.length ≤ 65535) :
    ∃ t xs, runSession emittedOctets cs (openEncode s) = some (t, xs) ∧ t.mode = .enc ∧ t.rom = s.rom ∧
      t.scount = BitVec.ofNat 16 ss.length ∧ xs ++ (closeEncode t).outOct.octets = pack ss := by
  obtain ⟨t, hrun, ht⟩ := runSession_pushes (s := openEncode s) (is := cs) rfl (by simp [State.EncInv]) hcs
    (by simpa using hlen)
  refine ⟨t, _, hrun, ht.mode, ht.rom, BitVec.eq_of_toNat_eq ?_, ?_⟩
  · rw [toNat_ofNat_count hlen]
    simpa using ht.scount
  · have hflush : (closeEncode t).outOct.octets = flush t.acc.toNat t.nbits.toNat :=
      emittedOctets_closeEncode ht.mode ht.inv
    rw [hflush, ht.acc, ht.nbits]
    exact pushAll_empty_flush ss

/-- Pushing commands open and end no session. -/
theorem opcode_of_pushedSeptets {rom : CharTables} {cs : List Instr} {ss : List Septet}
    (h : pushedSeptets rom cs = some ss) {i : Instr} (hi : i ∈ cs) :
    (∃ cp, i = .encChar cp) ∨ ∃ x, i = .encSeptet x := by
  induction cs generalizing ss with
  | nil => exact nomatch hi
  | cons c cs ih =>
    obtain ⟨us, vs, hus, hvs, -⟩ := pushedSeptets_cons h
    rcases List.mem_cons.mp hi with rfl | hi
    · rcases commandSeptets_cases hus with ⟨cp, rfl, -⟩ | ⟨x, rfl, -⟩
      · exact .inl ⟨cp, rfl⟩
      · exact .inr ⟨x, rfl⟩
    · exact ih hvs hi

/-- The record right after a BEGIN. -/
theorem recordWrite_encBegin {s t : State} (hm : s.mode ≠ .error) (x : Option Session) :
    recordWrite (encode .encBegin) s t x = some (.opened .encode) :=
  recordWrite_of_opened (encode_ne_clearWord nofun) hm openedBy_encBegin

theorem recordWrite_decBegin {s t : State} (hm : s.mode ≠ .error) (raw : Bool) (n : Count) (x : Option Session) :
    recordWrite (encode (.decBegin raw n)) s t x = some (.opened (if raw then .rawDecode else .decode)) :=
  recordWrite_of_opened (encode_ne_clearWord nofun) hm (openedBy_decBegin raw n)

/-- The record right after an END that raises no fault. -/
theorem recordWrite_end {i : Instr} {s t : State} (hi : i = .encEnd ∨ i = .decEnd) (hm : s.mode ≠ .error)
    (ht : t.mode ≠ .error) (x : Option Session) :
    recordWrite (encode i) s t x = x.map (·.ended (.endedWell t.scount)) := by
  have hclear : i ≠ .clear := by rcases hi with rfl | rfl <;> simp
  have hopen : openedBy (encode i) = none := by rcases hi with rfl | rfl <;> simp [openedBy]
  rw [recordWrite_of_not_opened (encode_ne_clearWord hclear) hm hopen, if_neg ht, if_pos]
  simpa only [encode_injective.eq_iff] using hi

/-- `ENC_END` and the read of OUT_OCT after it end the record well, with the octet flushed. -/
theorem issueRecorded_encEnd {t : State} (ht : t.mode = .enc) (rs : List Word) (y : Session) :
    ∃ u, issueRecorded [command .encEnd, hostRead .outOct] (withResponses rs t) (some y) =
      some (u, some ((y.ended (.endedWell t.scount)).addOctets (closeEncode t).outOct.octets)) := by
  have hend := exec_withResponses (execEncEnd_next ht) rs
  have hread := issueRecorded_reads [.outOct] [] (withResponses rs (closeEncode t)) (y.ended (.endedWell t.scount))
  rw [recordReads_withResponses, recordReads_outOct] at hread
  rw [issueRecorded_command hend, recordWrite_end (.inl rfl) (by simp [ht]) (by simp)]
  exact ⟨_, hread⟩

/-- `DEC_END` of a complete session ends the record well. -/
theorem issueRecorded_decEnd {t : State} (ht : t.mode = .dec) (hr : t.remain = 0) (hesc : t.escPending = false)
    (rs : List Word) (y : Session) :
    issueRecorded [command .decEnd] (withResponses rs t) (some y) =
      some (withResponses rs (closeDecode t), some (y.ended (.endedWell t.scount))) := by
  have hend := exec_withResponses (execDecEnd_next ht hr hesc) rs
  rw [issueRecorded_command hend, recordWrite_end (.inr rfl) (by simp [ht]) (by simp)]
  rfl

/-- Settles O47: the reads gather what the pushing commands emit and, after `ENC_END`, what it flushes. -/
theorem observedEncodeSessionGivesPack : Obligations.ObservedEncodeSessionGivesPack := by
  intro s x cs ss hm hcs hlen
  obtain ⟨t, xs, hrun, ht, -, hsc, hpack⟩ := runSession_encode hcs hlen
  have hops (i : Instr) (hi : i ∈ cs) : i.opcode ∉ [Opcode.clear, .encBegin, .decBegin, .encEnd, .decEnd] := by
    rcases opcode_of_pushedSeptets hcs hi with ⟨cp, rfl⟩ | ⟨y, rfl⟩ <;> simp [Instr.opcode]
  have hreads (i : Instr) (hi : i ∈ cs) (u : State) (y : Session) :
      recordReads [.outOct] u y = y.addOctets (emittedOctets i u) := by
    rcases opcode_of_pushedSeptets hcs hi with ⟨cp, rfl⟩ | ⟨z, rfl⟩ <;> exact recordReads_outOct u y
  obtain ⟨rs, hrs⟩ := issueRecorded_commands (s := openEncode s) (add := Session.addOctets)
    (fun y => by simp [Session.addOctets]) (fun xs zs y => by simp [Session.addOctets]) hops hreads nofun hrun
    s.responses (.opened .encode) [command .encEnd, hostRead .outOct]
  obtain ⟨u, hu⟩ := issueRecorded_encEnd ht rs ((Session.opened .encode).addOctets xs)
  rw [issueRecorded_command (execEncBegin_next hm), recordWrite_encBegin hm]
  refine ⟨u, _, hrs.trans hu, ?_⟩
  rw [← hpack, ← hsc]
  rfl

/-! ### Observed decode sessions (R97, R128) -/

/-- `DEC_OCTET` opens and ends no session. -/
theorem opcode_of_mem_decOctets {os : List Octet} {i : Instr} (hi : i ∈ os.map Instr.decOctet) :
    i.opcode ∉ [Opcode.clear, .encBegin, .decBegin, .encEnd, .decEnd] := by
  obtain ⟨o, -, rfl⟩ := List.mem_map.mp hi
  simp [Instr.opcode]

/-- A decode session that runs without a fault from BEGIN to END, with `regs` read after each octet: the record ends
well with what `out` says was read. -/
theorem issueRecorded_decodeSession {β : Type} {out : Instr → State → List β} {regs : List Reg}
    {add : List β → Session → Session} (hnil : ∀ y, add [] y = y)
    (happend : ∀ xs zs y, add zs (add xs y) = add (xs ++ zs) y)
    (hreads : ∀ o t y, recordReads regs t y = add (out (.decOctet o) t) y) {s t : State} {raw : Bool} {n : Count}
    {os : List Octet} {xs : List β} (hm : s.mode ≠ .error)
    (hrun : runSession out (os.map .decOctet) (openDecode raw n s) = some (t, xs)) (ht : t.mode = .dec)
    (hr : t.remain = 0) (hesc : t.escPending = false) (x : Option Session) :
    ∃ u, issueRecorded (command (.decBegin raw n) ::
        (os.flatMap (fun o => command (.decOctet o) :: regs.map hostRead) ++ [command .decEnd])) s x =
      some (u, some ((add xs (.opened (if raw then .rawDecode else .decode))).ended (.endedWell t.scount))) := by
  have hreads' (i : Instr) (hi : i ∈ os.map Instr.decOctet) (u : State) (y : Session) :
      recordReads regs u y = add (out i u) y := by
    obtain ⟨o, -, rfl⟩ := List.mem_map.mp hi
    exact hreads o u y
  obtain ⟨rs, hrs⟩ := issueRecorded_commands hnil happend (fun i => opcode_of_mem_decOctets) hreads'
    (s := openDecode raw n s) nofun hrun s.responses (.opened (if raw then .rawDecode else .decode)) [command .decEnd]
  rw [List.flatMap_map, issueRecorded_decEnd ht hr hesc] at hrs
  rw [issueRecorded_command (execDecBegin_next hm raw n), recordWrite_decBegin hm]
  exact ⟨_, hrs⟩

/-- Settles O48: the reads gather the septets of a raw session and the text of another. -/
theorem observedDecodeSessionGivesItsOutput : Obligations.ObservedDecodeSessionGivesItsOutput := by
  refine ⟨fun s x n os hm hos => ?raw, fun s x text ss hm hwf hss hlen => ?text⟩
  case raw =>
    obtain ⟨t, hrun, -, ht, hr, hesc, -⟩ :=
      runSession_payload s hos (decodePulled_of_raw (s := openDecode true n s) rfl _)
    obtain ⟨u, hu⟩ := issueRecorded_decodeSession (regs := [.outSept]) (add := Session.addSeptets)
      (fun y => by simp [Session.addSeptets]) (fun xs zs y => by simp [Session.addSeptets])
      (fun _ => recordReads_outSept) hm hrun ht hr hesc x
    exact ⟨u, _, hu, rfl⟩
  case text =>
    obtain ⟨hos, hd⟩ := decodePulled_pack hwf hss hlen
    obtain ⟨t, -, hrun, ht, hr, hesc, -⟩ := runSession_payload s hos hd
    obtain ⟨u, hu⟩ := issueRecorded_decodeSession (regs := [.outChr0, .outChr1]) (add := Session.addChars)
      (fun y => by simp [Session.addChars]) (fun xs zs y => by simp [Session.addChars])
      (fun _ => recordReads_outChr) hm hrun ht hr hesc x
    exact ⟨u, _, hu, rfl⟩

end Sys2Proof.Machine

/-! Proofs about the two calls of the host: what `text_to_payload` and `payload_to_text` answer, how they report a fault
and what they leave of it (R101 to R109). -/

namespace Sys2Proof.Machine

/-! ### Selecting the mode (R101) -/

/-- `LRES_IDX.CLASS` is bits [9:8] (R24). -/
theorem lresIdxWord_cls (r : LresIdx) : r.word.extractLsb' 8 2 = r.cls.code := by
  apply BitVec.eq_of_toNat_eq
  have := r.index.isLt
  have := r.cls.code.isLt
  rw [BitVec.extractLsb'_toNat, toNat_lresIdxWord, Nat.shiftRight_eq_div_pow]
  omega

/-- The codes of the classes are distinct (R24). -/
theorem classCode_eq_unmapped {c : CharClass} : c.code = CharClass.code .unmapped ↔ c = .unmapped := by
  cases c <;> decide

/-- A character has septets exactly when it is in a table (R82). -/
theorem charSeptets_eq_none {t : CharTables} {cp : CodePoint} :
    charSeptets t cp = none ↔ (charIndex t cp).1 = .unmapped := by
  rcases hc : charIndex t cp with ⟨cls, i⟩
  cases cls with
  | default => simp [charSeptets_default hc]
  | extension => simp [charSeptets_extension hc]
  | unmapped => simp [charSeptets_unmapped (congrArg Prod.fst hc)]

/-- A text has septets when its first character and the rest do. -/
theorem textSeptets_cons_eq_none {t : CharTables} {c : CodePoint} {cs : List CodePoint} :
    textSeptets t (c :: cs) = none ↔ charSeptets t c = none ∨ textSeptets t cs = none := by
  rw [textSeptets]
  cases charSeptets t c <;> cases textSeptets t cs <;> simp

theorem textSeptets_cons_eq_some {t : CharTables} {c : CodePoint} {cs : List CodePoint} {ss : List Septet} :
    textSeptets t (c :: cs) = some ss ↔
      ∃ us vs, charSeptets t c = some us ∧ textSeptets t cs = some vs ∧ us ++ vs = ss := by
  rw [textSeptets]
  cases charSeptets t c <;> cases textSeptets t cs <;> simp

/-- `selectMode` leaves the mode and the ROMs, and selects WIDE exactly when a character has no septets. -/
theorem selectMode_eq {s : State} (hm : s.mode ≠ .error) (text : List CodePoint) :
    ∃ t, selectMode text s = some (if textSeptets s.rom text = none then .wide else .restricted, t) ∧
      t.mode = s.mode ∧ t.rom = s.rom := by
  induction text generalizing s with
  | nil => exact ⟨s, rfl, rfl, rfl⟩
  | cons c cs ih =>
    rw [selectMode, issue_command (execC2i_next hm c), Option.bind_some, readValue_eq, Option.bind_some]
    simp only [readReg, lresIdxWord_cls, setLresIdx_lresIdx, classCode_eq_unmapped]
    by_cases hc : (charIndex s.rom c).1 = .unmapped
    · rw [if_pos hc, if_pos (textSeptets_cons_eq_none.mpr (.inl (charSeptets_eq_none.mpr hc)))]
      exact ⟨_, rfl, rfl, rfl⟩
    · set u := setLresIdx ⟨(charIndex s.rom c).2, (charIndex s.rom c).1⟩ s
      obtain ⟨t, ht, hmode, hrom⟩ := ih (s := respond u.lresIdx.word u) hm
      have hiff : textSeptets s.rom (c :: cs) = none ↔ textSeptets s.rom cs = none := by
        rw [textSeptets_cons_eq_none, charSeptets_eq_none, or_iff_right hc]
      simp only [hiff]
      rw [if_neg hc]
      exact ⟨t, ht, hmode, hrom⟩

/-! ### What a call leaves of a fault (R107 (e)) -/

/-- After a call the SPU is not in ERROR, and a reported fault has cleared every register. -/
def CallSettled {α : Type} (p : Except HostError α) (t : State) : Prop :=
  t.mode ≠ .error ∧ ∀ c, p = .error (.spuFault c) → ∀ r : Reg, readReg r t = 0

theorem callSettled_clearRegs {α : Type} (p : Except HostError α) (s : State) : CallSettled p (clearRegs s) :=
  ⟨nofun, fun _ _ r => readReg_clearRegs r s⟩

theorem callSettled_ok {α : Type} (a : α) {t : State} (h : t.mode ≠ .error) :
    CallSettled (.ok a : Except HostError α) t := ⟨h, nofun⟩

/-- The STATUS check outside ERROR mode only reads. -/
theorem checkStatus_of_ne_error {s : State} (h : s.mode ≠ .error) :
    checkStatus s = some (none, respond s.statusWord s) := by rw [checkStatus_eq, if_neg h]

/-- The STATUS check in ERROR mode reports the fault and clears the SPU. -/
theorem checkStatus_of_error {s : State} (h : s.mode = .error) :
    checkStatus s = some (some (.spuFault s.errCode.code), clearRegs (respond s.statusWord s)) := by
  rw [checkStatus_eq, if_pos h]

/-- The STATUS check reports nothing and leaves a mode other than ERROR, or reports and clears. -/
theorem checkStatus_cases {s : State} {c : Option HostError × State} (h : checkStatus s = some c) :
    (c.1 = none ∧ c.2.mode ≠ .error) ∨ ∃ e u, c = (some e, clearRegs u) := by
  by_cases hm : s.mode = .error
  · cases (checkStatus_of_error hm).symm.trans h
    exact .inr ⟨_, _, rfl⟩
  · cases (checkStatus_of_ne_error hm).symm.trans h
    exact .inl ⟨rfl, hm⟩

/-! ### The RESTRICTED branch of `text_to_payload` (R102) -/

/-- The characters of a text that run without a fault: the host gathers what they emit. -/
theorem encodeChars_of_runSession {text : List CodePoint} {s u : State} {xs : List Octet}
    (hrun : runSession emittedOctets (text.map .encChar) s = some (u, xs)) (rs : List Word) :
    ∃ rs', encodeChars text (withResponses rs s) = some (xs, withResponses rs' u) := by
  induction text generalizing s xs rs with
  | nil =>
    cases hrun
    exact ⟨rs, rfl⟩
  | cons c cs ih =>
    obtain ⟨t, ht⟩ := exec_total (.encChar c) s
    by_cases htm : t.mode = .error
    · rw [List.map_cons, runSession_cons_fault _ ht htm] at hrun
      exact nomatch hrun
    rw [List.map_cons, runSession_cons _ ht htm] at hrun
    obtain ⟨⟨v, zs⟩, hrest, heq⟩ := Option.map_eq_some_iff.mp hrun
    cases heq
    obtain ⟨rs', hrs'⟩ := ih hrest (rs ++ [readReg .outOct t])
    refine ⟨rs', ?_⟩
    rw [encodeChars, issue_command (exec_withResponses ht rs), Option.bind_some, readValue_eq, Option.bind_some,
      respond_eq_withResponses, withResponses_withResponses, readReg_withResponses, responses_withResponses, hrs',
      Option.map_some]
    simp only [readReg, octetsOfWord_word]
    rfl

/-- The characters of a text push its septets. -/
theorem pushedSeptets_encChars (t : CharTables) (text : List CodePoint) :
    pushedSeptets t (text.map .encChar) = textSeptets t text := by
  induction text with
  | nil => rfl
  | cons c cs ih => rw [List.map_cons, pushedSeptets, textSeptets, ih]; rfl

/-- In ERROR mode the character loop changes nothing. -/
theorem encodeChars_error {s : State} (hm : s.mode = .error) (text : List CodePoint) :
    ∃ xs rs, encodeChars text s = some (xs, withResponses rs s) := by
  induction text generalizing s with
  | nil => exact ⟨[], s.responses, rfl⟩
  | cons c cs ih =>
    obtain ⟨xs, rs, hrest⟩ := ih (s := respond (readReg .outOct s) s) hm
    rw [encodeChars, issue_command (exec_error hm (by simp)), Option.bind_some, readValue_eq, Option.bind_some, hrest]
    exact ⟨_, rs, rfl⟩

/-- A text whose septets pass the count limit leaves the session faulted with COUNT_OVERFLOW (R84). -/
theorem encodeChars_overflow {text : List CodePoint} {s : State} {ss : List Septet} (hm : s.mode = .enc)
    (hss : textSeptets s.rom text = some ss) (hc : 65535 < s.scount.toNat + ss.length) :
    ∃ xs t, encodeChars text s = some (xs, t) ∧ t.mode = .error ∧ t.errCode = .countOverflow := by
  induction text generalizing s ss with
  | nil =>
    cases hss
    have := s.scount.isLt
    simp at hc
    omega
  | cons c cs ih =>
    obtain ⟨us, vs, hus, hvs, rfl⟩ := textSeptets_cons_eq_some.mp hss
    rw [List.length_append] at hc
    rcases Nat.lt_or_ge 65535 (s.scount.toNat + us.length) with hover | hroom
    · have hexec := execEncChar_overflow hm hus hover
      set t := raiseFault .countOverflow (encode (.encChar c)) s
      obtain ⟨xs, rs, hrest⟩ := encodeChars_error (s := respond (readReg .outOct t) t) rfl cs
      rw [encodeChars, issue_command hexec, Option.bind_some, readValue_eq, Option.bind_some, hrest]
      exact ⟨_, _, rfl, rfl, rfl⟩
    · have hexec := execEncChar_next hm hus hroom
      set t := commitPush (pushAll s.acc.toNat s.nbits.toNat us) us.length s with ht
      have hsc : t.scount.toNat = s.scount.toNat + us.length := by
        rw [ht, commitPush_scount, BitVec.toNat_add, BitVec.toNat_ofNat]
        omega
      obtain ⟨xs, u, hrest, hu⟩ := ih (s := respond (readReg .outOct t) t) hm hvs (by
        rw [respond_scount, hsc]
        omega)
      rw [encodeChars, issue_command hexec, Option.bind_some, readValue_eq, Option.bind_some, hrest]
      exact ⟨_, u, rfl, hu⟩

/-- A count register reads as its count (R29). -/
theorem setWidth_countWord (c : Count) : (countWord c).setWidth 16 = c := by
  apply BitVec.eq_of_toNat_eq
  rw [BitVec.toNat_setWidth, toNat_countWord, Nat.mod_eq_of_lt c.isLt]

/-- The RESTRICTED branch of a text with at most 65535 septets answers its packed septets with their count. -/
theorem encodeRestricted_ok {s : State} {text : List CodePoint} {ss : List Septet} (hm : s.mode ≠ .error)
    (hss : textSeptets s.rom text = some ss) (hlen : ss.length ≤ 65535) :
    ∃ t, encodeRestricted text s = some (.ok ⟨hex (pack ss), .restricted, some (BitVec.ofNat 16 ss.length)⟩, t) ∧
      t.mode ≠ .error ∧ t.rom = s.rom := by
  obtain ⟨u, xs, hrun, hu, hrom, hsc, hpack⟩ :=
    runSession_encode (cs := text.map .encChar) ((pushedSeptets_encChars _ _).trans hss) hlen
  obtain ⟨rs, hchars⟩ := encodeChars_of_runSession hrun (openEncode s).responses
  rw [withResponses_self] at hchars
  have hend := exec_withResponses (execEncEnd_next hu) rs
  rw [encodeRestricted, issue_command (execEncBegin_next hm), Option.bind_some, hchars, Option.bind_some,
    issue_command hend, Option.bind_some, readValue_eq, Option.bind_some, readValue_eq, Option.bind_some,
    checkStatus_of_ne_error (by simp), Option.map_some]
  simp only [readReg, octetsOfWord_word, setWidth_countWord]
  rw [← hpack, ← hsc]
  exact ⟨_, rfl, nofun, hrom⟩

/-- The RESTRICTED branch of a text with more septets reports COUNT_OVERFLOW and clears the SPU. -/
theorem encodeRestricted_overflow {s : State} {text : List CodePoint} {ss : List Septet} (hm : s.mode ≠ .error)
    (hss : textSeptets s.rom text = some ss) (hlen : 65535 < ss.length) :
    ∃ u, encodeRestricted text s = some (.error (.spuFault (ErrCode.code .countOverflow)), clearRegs u) := by
  obtain ⟨xs, u, hchars, hu, hcode⟩ := encodeChars_overflow (s := openEncode s) rfl hss (by simpa using hlen)
  rw [encodeRestricted, issue_command (execEncBegin_next hm), Option.bind_some, hchars, Option.bind_some,
    issue_command (exec_error hu (by simp)), Option.bind_some, readValue_eq, Option.bind_some, readValue_eq,
    Option.bind_some, checkStatus_of_error (by simp [hu]), Option.map_some]
  simp only [respond_errCode, hcode]
  exact ⟨_, rfl⟩

/-- The RESTRICTED branch ends with the STATUS check. -/
theorem encodeRestricted_settled {s t : State} {text : List CodePoint} {p : Except HostError Payload}
    (h : encodeRestricted text s = some (p, t)) : CallSettled p t := by
  simp only [encodeRestricted, Option.bind_eq_some_iff, Option.map_eq_some_iff] at h
  obtain ⟨-, -, q, -, -, -, r, -, n, -, ⟨c, u⟩, hc, heq⟩ := h
  rcases checkStatus_cases hc with ⟨rfl, hu⟩ | ⟨e, v, hv⟩
  · cases heq
    exact callSettled_ok _ hu
  · cases hv
    cases heq
    exact callSettled_clearRegs _ v

/-! ### The two modes of `text_to_payload` (R101, R102) -/

/-- A text with septets is encoded in RESTRICTED mode from a state as good as the one given. -/
theorem textToPayload_restricted {s : State} {text : List CodePoint} {ss : List Septet} (hm : s.mode ≠ .error)
    (hss : textSeptets s.rom text = some ss) :
    ∃ u, textToPayload text s = encodeRestricted text u ∧ u.mode ≠ .error ∧ u.rom = s.rom := by
  obtain ⟨u, hu, hmode, hrom⟩ := selectMode_eq hm text
  rw [hss, if_neg nofun] at hu
  exact ⟨u, by rw [textToPayload, hu, Option.bind_some], hmode ▸ hm, hrom⟩

/-- A text without septets is encoded in WIDE. -/
theorem textToPayload_wide {s : State} {text : List CodePoint} (hm : s.mode ≠ .error)
    (hss : textSeptets s.rom text = none) :
    ∃ u, textToPayload text s = ((wideEncode text).map fun os => (.ok ⟨hex os, .wide, none⟩, u)) ∧
      u.mode ≠ .error ∧ u.rom = s.rom := by
  obtain ⟨u, hu, hmode, hrom⟩ := selectMode_eq hm text
  rw [hss, if_pos rfl] at hu
  exact ⟨u, by rw [textToPayload, hu, Option.bind_some], hmode ▸ hm, hrom⟩

theorem textToPayload_settled {s t : State} {text : List CodePoint} {p : Except HostError Payload}
    (hm : s.mode ≠ .error) (h : textToPayload text s = some (p, t)) : CallSettled p t := by
  cases hss : textSeptets s.rom text with
  | none =>
    obtain ⟨u, hu, hmode, -⟩ := textToPayload_wide hm hss
    rw [hu] at h
    obtain ⟨os, -, heq⟩ := Option.map_eq_some_iff.mp h
    cases heq
    exact callSettled_ok _ hmode
  | some ss =>
    obtain ⟨u, hu, -⟩ := textToPayload_restricted hm hss
    exact encodeRestricted_settled (hu ▸ h)

theorem payloadToText_wide {h : List Char} {os : List Octet} (hos : unhex h = some os) (n : Option Count) (s : State) :
    payloadToText h .wide n s = some (wideDecode os, s) := by simp [payloadToText, hos]

theorem payloadToText_restricted {h : List Char} {os : List Octet} (hos : unhex h = some os) (n : Count) (s : State) :
    payloadToText h .restricted (some n) s = decodeRestricted os n s := by simp [payloadToText, hos]

/-- Settles O59: WIDE is selected again for the decoded text, and the hex of a payload is parsed back. -/
theorem unmappedTextFallsBackToWide : Obligations.UnmappedTextFallsBackToWide := by
  intro s text hm hss hscalar
  obtain ⟨os, hos, hdec⟩ := wideDecode_wideEncode hscalar
  obtain ⟨t, ht, htm, htrom⟩ := textToPayload_wide hm hss
  obtain ⟨u, hu, -, -⟩ := textToPayload_wide htm (htrom ▸ hss)
  rw [hos, Option.map_some] at ht hu
  refine ⟨_, t, u, ht, rfl, rfl, ?_, hu⟩
  rw [payloadToText_wide (unhex_eq_some_iff.mpr rfl), hdec]

/-! ### The octet loop of `payload_to_text` (R103) -/

/-- An octet that runs without a fault gives its characters, and the loop goes on. -/
theorem decodeOctets_cons_of_next {o : Octet} {os : List Octet} {s t u : State} {q : Except HostError (List CodePoint)}
    (h : exec (.decOctet o) s = .next t) (ht : t.mode ≠ .error)
    (hrest : decodeOctets os
      (withResponses (t.responses ++ [t.statusWord] ++ [t.outChr0.word] ++ [t.outChr1.word]) t) = some (q, u)) :
    decodeOctets (o :: os) s = some (q.map (decodedChars (.decOctet o) t ++ ·), u) := by
  rw [decodeOctets, issue_command h, Option.bind_some, checkStatus_of_ne_error ht, Option.bind_some]
  simp only [readValue_eq, Option.bind_some, readReg, respond_eq_withResponses, withResponses_withResponses,
    responses_withResponses]
  have h0 (rs : List Word) : (withResponses rs t).outChr0 = t.outChr0 := rfl
  have h1 (rs : List Word) : (withResponses rs t).outChr1 = t.outChr1 := rfl
  rw [h0, h1, hrest, Option.map_some, charsOfWord_word, charsOfWord_word]
  cases q <;> rfl

/-- An octet that faults ends the loop with the code of its fault. -/
theorem decodeOctets_cons_of_fault {o : Octet} {s t : State} (h : exec (.decOctet o) s = .next t)
    (ht : t.mode = .error) (os : List Octet) :
    decodeOctets (o :: os) s = some (.error (.spuFault t.errCode.code), clearRegs (respond t.statusWord t)) := by
  rw [decodeOctets, issue_command h, Option.bind_some, checkStatus_of_error ht]
  rfl

/-- Octets that run without a fault before another: the loop gathers what they decode and goes on with the other. -/
theorem decodeOctets_append {pre : List Octet} {s u : State} {xs : List CodePoint}
    (hrun : runSession decodedChars (pre.map .decOctet) s = some (u, xs)) (rs : List Word) :
    ∃ rs', ∀ (os : List Octet) (q : Except HostError (List CodePoint)) (t : State),
      decodeOctets os (withResponses rs' u) = some (q, t) →
      decodeOctets (pre ++ os) (withResponses rs s) = some (q.map (xs ++ ·), t) := by
  induction pre generalizing s xs rs with
  | nil =>
    cases hrun
    refine ⟨rs, fun os q t h => ?_⟩
    cases q <;> exact h
  | cons o pre ih =>
    obtain ⟨v, hv⟩ := exec_total (.decOctet o) s
    by_cases hm : v.mode = .error
    · rw [List.map_cons, runSession_cons_fault _ hv hm] at hrun
      exact nomatch hrun
    rw [List.map_cons, runSession_cons _ hv hm] at hrun
    obtain ⟨⟨w, zs⟩, hrest, heq⟩ := Option.map_eq_some_iff.mp hrun
    cases heq
    obtain ⟨rs', hrs'⟩ := ih hrest (rs ++ [(withResponses rs v).statusWord] ++ [v.outChr0.word] ++ [v.outChr1.word])
    refine ⟨rs', fun os q t h => ?_⟩
    rw [List.cons_append, decodeOctets_cons_of_next (exec_withResponses hv rs) hm (hrs' os q t h)]
    cases q with
    | error e => rfl
    | ok cs => simp only [Except.map, List.append_assoc]; rfl

/-- Octets that all run without a fault: the loop answers what they decode. -/
theorem decodeOctets_of_runSession {os : List Octet} {s u : State} {xs : List CodePoint}
    (hrun : runSession decodedChars (os.map .decOctet) s = some (u, xs)) :
    ∃ rs, decodeOctets os s = some (.ok xs, withResponses rs u) := by
  obtain ⟨rs, hrs⟩ := decodeOctets_append hrun s.responses
  have h := hrs [] (.ok []) (withResponses rs u) rfl
  rw [List.append_nil, withResponses_self] at h
  exact ⟨rs, by rw [h, Except.map, List.append_nil]⟩

/-- The first octet that faults ends the loop with the code of its fault. -/
theorem decodeOctets_of_fault {pre : List Octet} {o : Octet} {s u v : State} {xs : List CodePoint}
    (hrun : runSession decodedChars (pre.map .decOctet) s = some (u, xs)) (h : exec (.decOctet o) u = .next v)
    (hv : v.mode = .error) (post : List Octet) :
    ∃ t, decodeOctets (pre ++ o :: post) s = some (.error (.spuFault v.errCode.code), t) := by
  obtain ⟨rs, hrs⟩ := decodeOctets_append hrun s.responses
  exact ⟨_, hrs (o :: post) _ _ (decodeOctets_cons_of_fault (exec_withResponses h rs) hv post)⟩

/-- The loop reports a fault only with the SPU cleared. -/
theorem decodeOctets_settled {os : List Octet} {s t : State} {e : HostError}
    (h : decodeOctets os s = some (.error e, t)) : CallSettled (.error e : Except HostError (List CodePoint)) t := by
  induction os generalizing s with
  | nil => exact nomatch h
  | cons o os ih =>
    simp only [decodeOctets, Option.bind_eq_some_iff] at h
    obtain ⟨u, -, ⟨c, v⟩, hc, h⟩ := h
    rcases checkStatus_cases hc with ⟨rfl, -⟩ | ⟨e', w, hw⟩
    · simp only [readValue_eq, Option.bind_some, Option.map_eq_some_iff] at h
      obtain ⟨⟨q, w⟩, hq, heq⟩ := h
      cases q with
      | error e' =>
        cases heq
        exact ih hq
      | ok cs => exact nomatch heq
    · cases hw
      cases h
      exact callSettled_clearRegs _ w

/-! ### A whole decode session of the host (R103) -/

theorem decodeRestricted_settled {os : List Octet} {n : Count} {s t : State} {p : Except HostError (List CodePoint)}
    (h : decodeRestricted os n s = some (p, t)) : CallSettled p t := by
  simp only [decodeRestricted, Option.bind_eq_some_iff] at h
  obtain ⟨u, -, ⟨q, v⟩, hq, h⟩ := h
  cases q with
  | error e =>
    cases h
    exact decodeOctets_settled hq
  | ok text =>
    simp only [Option.bind_eq_some_iff, Option.map_eq_some_iff] at h
    obtain ⟨w, -, ⟨c, x⟩, hc, heq⟩ := h
    rcases checkStatus_cases hc with ⟨rfl, hx⟩ | ⟨e, y, hy⟩
    · cases heq
      exact callSettled_ok _ hx
    · cases hy
      cases heq
      exact callSettled_clearRegs _ y

theorem payloadToText_settled {h : List Char} {m : EncodingMode} {n : Option Count} {s t : State}
    {p : Except HostError (List CodePoint)} (hm : s.mode ≠ .error) (hp : payloadToText h m n s = some (p, t)) :
    CallSettled p t := by
  unfold payloadToText at hp
  split at hp
  · cases hp
    exact ⟨hm, nofun⟩
  · cases hp
    refine ⟨hm, fun c hc => ?_⟩
    unfold wideDecode at hc
    split at hc
    · cases hc
    · split at hc <;> cases hc
  · cases hp
    exact ⟨hm, nofun⟩
  · exact decodeRestricted_settled hp

/-- What the host does once the octets have run: `DEC_END` and the STATUS check. -/
theorem decodeRestricted_of_octets {os : List Octet} {n : Count} {s t u : State} {xs : List CodePoint}
    (hm : s.mode ≠ .error) (hrun : runSession decodedChars (os.map .decOctet) (openDecode false n s) = some (t, xs))
    (hend : exec .decEnd t = .next u) :
    (u.mode ≠ .error → ∃ v, decodeRestricted os n s = some (.ok xs, v)) ∧
    (u.mode = .error → ∃ v, decodeRestricted os n s = some (.error (.spuFault u.errCode.code), v)) := by
  obtain ⟨rs, hrs⟩ := decodeOctets_of_runSession hrun
  rw [decodeRestricted, issue_command (execDecBegin_next hm false n), Option.bind_some, hrs, Option.bind_some]
  simp only [issue_command (exec_withResponses hend rs), Option.bind_some]
  refine ⟨fun hu => ?_, fun hu => ?_⟩
  · rw [checkStatus_of_ne_error (s := withResponses rs u) hu]
    exact ⟨_, rfl⟩
  · rw [checkStatus_of_error (s := withResponses rs u) hu]
    exact ⟨_, rfl⟩

/-- A session without a fault is answered with its text. -/
theorem decodeRestricted_of_runSession {os : List Octet} {n : Count} {s u : State} {text : List CodePoint}
    (hm : s.mode ≠ .error) (h : runSession decodedChars (decodeSession false n os) s = some (u, text)) :
    ∃ v, decodeRestricted os n s = some (.ok text, v) := by
  rw [runSession_cons _ (execDecBegin_next hm false n) nofun, runSession_append_eq] at h
  simp only [Option.map_eq_some_iff, Option.bind_eq_some_iff] at h
  obtain ⟨-, ⟨⟨t, xs⟩, hrun, ⟨w, ys⟩, hlast, rfl⟩, heq⟩ := h
  obtain ⟨v, hv⟩ := exec_total .decEnd t
  by_cases hvm : v.mode = .error
  · rw [runSession_cons_fault _ hv hvm] at hlast
    exact nomatch hlast
  rw [runSession_cons _ hv hvm] at hlast
  cases hlast
  cases heq
  obtain ⟨hok, -⟩ := decodeRestricted_of_octets hm hrun hv
  simpa [decodedChars] using hok hvm

/-- Where a command of the octets and the END of a session stands. -/
theorem decodeTail_split {os : List Octet} {done left : List Instr} {i : Instr}
    (h : os.map Instr.decOctet ++ [.decEnd] = done ++ i :: left) :
    (∃ pre o post, os = pre ++ o :: post ∧ done = pre.map .decOctet ∧ i = .decOctet o) ∨
      (done = os.map .decOctet ∧ i = .decEnd) := by
  induction os generalizing done with
  | nil =>
    cases done with
    | nil =>
      cases h
      exact .inr ⟨rfl, rfl⟩
    | cons d done => simp at h
  | cons o os ih =>
    cases done with
    | nil =>
      cases h
      exact .inl ⟨[], o, os, rfl, rfl, rfl⟩
    | cons d done =>
      simp only [List.map_cons, List.cons_append, List.cons.injEq] at h
      obtain ⟨rfl, h⟩ := h
      rcases ih h with ⟨pre, o', post, rfl, rfl, rfl⟩ | ⟨rfl, rfl⟩
      · exact .inl ⟨o :: pre, o', post, rfl, rfl, rfl⟩
      · exact .inr ⟨rfl, rfl⟩

/-- The first command of a session that faults is reported with the code of its fault. -/
theorem decodeRestricted_of_fault {os : List Octet} {n : Count} {s u v : State} {done left : List Instr} {i : Instr}
    {xs : List CodePoint} (hm : s.mode ≠ .error) (hsplit : decodeSession false n os = done ++ i :: left)
    (hrun : runSession decodedChars done s = some (u, xs)) (hi : exec i u = .next v) (hv : v.mode = .error) :
    ∃ t, decodeRestricted os n s = some (.error (.spuFault v.errCode.code), t) := by
  have hbegin := execDecBegin_next hm false n
  cases done with
  | nil =>
    cases hrun
    cases hsplit
    cases hbegin.symm.trans hi
    exact nomatch hv
  | cons d done =>
    rw [decodeSession, List.cons_append, List.cons.injEq] at hsplit
    obtain ⟨rfl, hsplit⟩ := hsplit
    rw [runSession_cons _ hbegin nofun] at hrun
    obtain ⟨⟨w, ys⟩, hocts, heq⟩ := Option.map_eq_some_iff.mp hrun
    cases heq
    rcases decodeTail_split hsplit with ⟨pre, o, post, rfl, rfl, rfl⟩ | ⟨rfl, rfl⟩
    · obtain ⟨t, ht⟩ := decodeOctets_of_fault hocts hi hv post
      rw [decodeRestricted, issue_command hbegin, Option.bind_some, ht]
      exact ⟨t, rfl⟩
    · obtain ⟨-, hfault⟩ := decodeRestricted_of_octets hm hocts hi
      exact hfault hv

/-- A session that does not run has a first command that faults. -/
theorem exists_fault_of_runSession_eq_none {β : Type} {out : Instr → State → List β} {is : List Instr} {s : State}
    (h : runSession out is s = none) :
    ∃ done left i u xs v, is = done ++ i :: left ∧ runSession out done s = some (u, xs) ∧ exec i u = .next v ∧
      v.mode = .error := by
  induction is generalizing s with
  | nil => exact nomatch h
  | cons i is ih =>
    obtain ⟨v, hv⟩ := exec_total i s
    by_cases hm : v.mode = .error
    · exact ⟨[], is, i, s, [], v, rfl, rfl, hv, hm⟩
    · rw [runSession_cons _ hv hm, Option.map_eq_none_iff] at h
      obtain ⟨done, left, j, u, xs, w, rfl, hrun, hj, hw⟩ := ih h
      exact ⟨i :: done, left, j, u, _, w, rfl, by rw [runSession_cons _ hv hm, hrun]; rfl, hj, hw⟩

/-- The host answers a text exactly when the decode session runs without a fault and decodes it. -/
theorem decodeRestricted_eq_ok_iff {os : List Octet} {n : Count} {s : State} (hm : s.mode ≠ .error)
    (text : List CodePoint) :
    (∃ t, decodeRestricted os n s = some (.ok text, t)) ↔
      ∃ u, runSession decodedChars (decodeSession false n os) s = some (u, text) := by
  refine ⟨fun ⟨t, ht⟩ => ?_, fun ⟨u, hu⟩ => decodeRestricted_of_runSession hm hu⟩
  cases hrun : runSession decodedChars (decodeSession false n os) s with
  | none =>
    obtain ⟨done, left, i, u, xs, v, hsplit, hdone, hi, hv⟩ := exists_fault_of_runSession_eq_none hrun
    obtain ⟨t', ht'⟩ := decodeRestricted_of_fault hm hsplit hdone hi hv
    exact nomatch ht.symm.trans ht'
  | some q =>
    obtain ⟨u, text'⟩ := q
    obtain ⟨v, hv⟩ := decodeRestricted_of_runSession hm hrun
    cases ht.symm.trans hv
    exact ⟨u, rfl⟩

/-! ### The two calls (R107, R109) -/

/-- Settles O58: the host gathers `pack` of the septets, and its payload's decode session gives the text back. -/
theorem restrictedTextRoundTrips : Obligations.RestrictedTextRoundTrips := by
  intro s text ss hm hwf hss hlen
  obtain ⟨v, hv, hvm, hvrom⟩ := textToPayload_restricted hm hss
  obtain ⟨t, ht, htm, htrom⟩ := encodeRestricted_ok (s := v) hvm (hvrom ▸ hss) hlen
  have hrom : t.rom = s.rom := htrom.trans hvrom
  obtain ⟨w, hw, -⟩ := decodeSessionRecoversTheText t text ss htm (hrom ▸ hwf) (hrom ▸ hss) hlen
  obtain ⟨u, hu⟩ := (decodeRestricted_eq_ok_iff htm text).mpr ⟨w, hw⟩
  exact ⟨t, u, hv.trans ht, (payloadToText_restricted (unhex_eq_some_iff.mpr rfl) _ t).trans hu⟩

/-- Settles O60: a fault stays recorded until the STATUS check, which every call that can fault ends with. -/
theorem hostReportsAndClearsFaults : Obligations.HostReportsAndClearsFaults := by
  refine ⟨fun s text ss hm hss hlen => ?overflow, fun s t text p hm h => textToPayload_settled hm h,
    fun s t h m n p hm hp => payloadToText_settled hm hp, fun s h os n hm hos => ?session⟩
  case overflow =>
    obtain ⟨v, hv, hvm, hvrom⟩ := textToPayload_restricted hm hss
    obtain ⟨u, hu⟩ := encodeRestricted_overflow hvm (hvrom ▸ hss) hlen
    exact ⟨_, hv.trans hu, fun r => readReg_clearRegs r u⟩
  case session =>
    simp only [payloadToText_restricted hos]
    exact ⟨decodeRestricted_eq_ok_iff hm, fun done left i u v cs hsplit hrun hi hv =>
      decodeRestricted_of_fault hm hsplit hrun hi hv⟩

end Sys2Proof.Machine
